-- ==== Sys2Proof/Word.lean ====
section
/-! DEFINITION. The word types of the block and the plainest helpers over them (00_scope.md R9, R10, R13). -/

namespace Sys2Proof

/-- One element of a ByteBuffer (R13): an 8-bit value, never signed and never a character (44_system.md R275). -/
abbrev Byte := BitVec 8

/-- The contents of one register, and the data of one bus access (R9). -/
abbrev Word := BitVec 32

/-- An offset from `BASE`: the block decodes 4 MiB of them (20_memory.md R86). -/
abbrev Offset := BitVec 22

/-- The opcode field `CMD[3:0]` (30_encoding.md R110). -/
abbrev Opcode := BitVec 4

end Sys2Proof
end

