-- ==== Sys2Proof/Syntax.lean ====
section
/-! DEFINITION. The commands of HE-CMD, one constructor per row of spec/opcode_table.json (30_encoding.md R112). -/

namespace Sys2Proof

/-- The eleven commands. None has an immediate field: every operand comes from an operand register (30_encoding.md
R111), so no constructor takes an argument. -/
inductive Instr where
  /-- 0x0 `NOP` (44_system.md R262) -/
  | nop
  /-- 0x1 `BP_PUT` (40_bitpacker.md R142) -/
  | bpPut
  /-- 0x2 `BP_FLUSH` (40_bitpacker.md R143) -/
  | bpFlush
  /-- 0x3 `BP_CLEAR` (40_bitpacker.md R144) -/
  | bpClear
  /-- 0x4 `BU_GET` (40_bitpacker.md R146) -/
  | buGet
  /-- 0x5 `BU_CLEAR` (40_bitpacker.md R147) -/
  | buClear
  /-- 0x6 `RLE_RUN` (41_rle.md R173) -/
  | rleRun
  /-- 0x7 `RLE_ENC` (41_rle.md R175) -/
  | rleEnc
  /-- 0x8 `HUF_ENC` (42_huffman.md R205) -/
  | hufEnc
  /-- 0x9 `LZ_FIND` (43_lz77.md R235) -/
  | lzFind
  /-- 0xA `LZ_ENC` (43_lz77.md R240) -/
  | lzEnc
  deriving DecidableEq, Repr

end Sys2Proof
end

