-- ==== Sys2Proof/Decode.lean ====
section
/-! DEFINITION. Decoding and encoding of the command word (30_encoding.md R110 to R115). Decoding is total: a word gives
its command or a rejection by name. The encoder is written from the same table. -/

namespace Sys2Proof

/-- Why a word is no command. -/
inductive DecodeReject where
  /-- OP is 0xB to 0xF (R115): completing such a START reports BAD_OPCODE. -/
  | reservedOpcode (op : Opcode)
  deriving DecidableEq, Repr

/-- One row of the opcode map (R112, spec/opcode_table.json): a word belongs to the row when its masked bits are the
row's match. -/
structure OpRow where
  instr : Instr
  mask : Word
  pattern : Word
  deriving DecidableEq, Repr

/-- The opcode map of R112; every row has mask 0x0000000F (R113). -/
def opTable : List OpRow :=
  [ ⟨.nop,     0xF#32, 0x0#32⟩,
    ⟨.bpPut,   0xF#32, 0x1#32⟩,
    ⟨.bpFlush, 0xF#32, 0x2#32⟩,
    ⟨.bpClear, 0xF#32, 0x3#32⟩,
    ⟨.buGet,   0xF#32, 0x4#32⟩,
    ⟨.buClear, 0xF#32, 0x5#32⟩,
    ⟨.rleRun,  0xF#32, 0x6#32⟩,
    ⟨.rleEnc,  0xF#32, 0x7#32⟩,
    ⟨.hufEnc,  0xF#32, 0x8#32⟩,
    ⟨.lzFind,  0xF#32, 0x9#32⟩,
    ⟨.lzEnc,   0xF#32, 0xA#32⟩ ]

/-- Whether a command word belongs to a row. -/
def OpRow.matchesWord (r : OpRow) (w : Word) : Bool := w &&& r.mask == r.pattern

/-- The opcode field of a command word (R110): bits 3 to 0. -/
def opField (w : Word) : Opcode := w.extractLsb' 0 4

/-- What the register CMD stores of a written word and reads back: bits 3 to 0, the rest read 0 (10_state.md R35). -/
def cmdWord (op : Opcode) : Word := op.setWidth 32

/-- Decode a command word: the row it belongs to, or the reserved opcode it holds (R113, R115). -/
def decode (w : Word) : Except DecodeReject Instr :=
  match opTable.find? (fun r => r.matchesWord w) with
  | some r => .ok r.instr
  | none => .error (.reservedOpcode (opField w))

/-- The opcode of a command (R112). -/
def opcodeOf : Instr → Opcode
  | .nop => 0x0#4
  | .bpPut => 0x1#4
  | .bpFlush => 0x2#4
  | .bpClear => 0x3#4
  | .buGet => 0x4#4
  | .buClear => 0x5#4
  | .rleRun => 0x6#4
  | .rleEnc => 0x7#4
  | .hufEnc => 0x8#4
  | .lzFind => 0x9#4
  | .lzEnc => 0xA#4

/-- Encode a command as the word a host writes to CMD: OP in bits 3 to 0, the reserved bits 0 (R110). -/
def encode (i : Instr) : Word := cmdWord (opcodeOf i)

/-- The 32-bit word whose bits are `w`, of which the table gives `nbits`; the bits above are 0. The command is one
32-bit register value with no byte structure on the bus (20_memory.md R83), so laying it out is taking it whole. -/
def tableWord (nbits w : Nat) : Word := BitVec.ofNat 32 (w % 2 ^ nbits)

/-- The command the decoder reads from a word numbered as spec/opcode_table.json numbers it. -/
def decodeTableWord (nbits w : Nat) : Option Instr :=
  match decode (tableWord nbits w) with
  | .ok i => some i
  | .error _ => none

end Sys2Proof
end

