-- ==== Sys2Proof/Config.lean ====
section
/-! DEFINITION. What an implementation fixes: the parameters of 00_scope.md R8 with their legal ranges and defaults,
the fixed limits, the open bus base, and the free values (93_implementation_defined.md part 2). -/

namespace Sys2Proof.Config

/-- The constant the `ID` register reads (10_state.md R32), the ASCII bytes "HE01". -/
def idValue : Word := 0x48453031#32

/-- `RLE_MAX_RUN`, fixed (R8; 41_rle.md R171). -/
def rleMaxRun : Nat := 255

/-- `LZ_MAX_LEN`, fixed (R8; 43_lz77.md R231). -/
def lzMaxLen : Nat := 255

/-- `HUF_MAX_SYMBOLS`, fixed (R8). -/
def hufMaxSymbols : Nat := 256

/-- `BP_MAX_NBITS`, fixed (R8; 30_encoding.md R116). -/
def bpMaxNbits : Nat := 32

/-- The implementation parameters of R8 that a model takes as arguments. They are held in State, where the registers
`CFG_IN_CAP`, `CFG_OUT_CAP` and `CFG_LZ` read them (10_state.md R51, R52), and no event changes them. DESIGN CHOICE
(log 12): holding them in State lets every statement about a state speak of every legal value. -/
structure Params where
  /-- `IN_CAP`, bytes in IN_BUF -/
  inCap : Nat
  /-- `OUT_CAP`, bytes in OUT_BUF -/
  outCap : Nat
  /-- `LZ_WINDOW`, the largest LZ77 distance searched -/
  lzWindow : Nat
  /-- `LZ_MIN_MATCH`, the shortest match emitted as a back-reference -/
  lzMinMatch : Nat
  deriving DecidableEq, Repr

/-- The defaults of R8. -/
def Params.default : Params :=
  { inCap := 65536, outCap := 262400, lzWindow := 4096, lzMinMatch := 3 }

/-- The legal ranges of R8. -/
abbrev Params.legal (p : Params) : Prop :=
  (1 ≤ p.inCap ∧ p.inCap ≤ 2 ^ 20) ∧ (1 ≤ p.outCap ∧ p.outCap ≤ 2 ^ 20) ∧
  (1 ≤ p.lzWindow ∧ p.lzWindow ≤ 65535) ∧ (1 ≤ p.lzMinMatch ∧ p.lzMinMatch ≤ 255)

/-- Free value (OPEN, 92_eei_decisions.md D7; log 12): which 4 MiB-aligned slot the platform puts the block in. -/
opaque baseIndex : Nat

/-- `BASE`: 4 MiB-aligned by construction (R8). Every rule of the spec is relative to it. -/
def base : Nat := 0x400000 * baseIndex

/-- The bus address of an offset (20_memory.md R86, R94). -/
def busAddress (o : Offset) : Nat := base + o.toNat

/-- The offset a bus address selects in this block, or none where the block does not decode it (R86). -/
def offsetOf (addr : Nat) : Option Offset :=
  if base ≤ addr ∧ addr < base + 0x400000 then some (BitVec.ofNat 22 (addr - base)) else none

/-- Free value (log 1, log 3): byte `i` of a buffer range whose contents the spec leaves as "any value"; the first
argument is the number of the draw (a hard reset, an encoder's OUT_OVERFLOW, a soft reset while busy). -/
opaque freeByte : Nat → Nat → Byte

/-- Free value (44_system.md R266; log 2): what a host read that R266 leaves as "any value" returns. -/
opaque freeWord : Nat → Word

/-- Free value (44_system.md R269; log 4): how many host steps come between a START and its completion step. -/
opaque freeWait : Nat → Nat

end Sys2Proof.Config
end

