-- ==== Sys2Proof/Machine/BusSyntax.lean ====
section
/-! DEFINITION. Bus accesses, register names and host program steps: the host's side of the interface as syntax
(20_memory.md R85, R86; 30_encoding.md R117, R118). -/

namespace Sys2Proof.Machine

/-- The direction of a bus access. -/
inductive Dir where
  | read
  | write
  deriving DecidableEq, Repr

/-- One bus access (R117 "bus encoding"). `width` is in bits; R85 allows 32 and, in the buffer windows, 8, and any
other width is a bus error. `data` is what a write carries (its low bits, for a byte) and is not used by a read. -/
structure Access where
  dir : Dir
  offset : Offset
  width : Nat
  data : Word
  deriving DecidableEq, Repr

/-- The registers of the control area (20_memory.md R86 "Register offsets in order"). -/
inductive RegName where
  | id | ctrl | cmd | status | errinfo | srcLen | dstCap | dstLen | pos | bpValue | bpNbits | bpState | buNbits
  | buValue | buPos | matchReg | runReg | hufNsym | lzNtok | cfgInCap | cfgOutCap | cfgLz
  deriving DecidableEq, Repr

/-- A field of a register as a host program names it: `<reg>.<field>`, bits `lo + len - 1` down to `lo` (R117). -/
structure Field where
  offset : Offset
  lo : Nat
  len : Nat
  deriving DecidableEq, Repr

/-- One line of a host program (R117). Labels are numbered. -/
inductive HostStep where
  /-- `W32 <off>, <v>` -/
  | w32 (off : Offset) (v : Word)
  /-- `W8 <off>, <v>` -/
  | w8 (off : Offset) (v : Byte)
  /-- `R32 <off> = <v>` -/
  | r32 (off : Offset) (v : Word)
  /-- `R8 <off> = <v>` -/
  | r8 (off : Offset) (v : Byte)
  /-- `POLL <reg>.<field> == <v>` -/
  | poll (f : Field) (v : Word)
  /-- `<label>:` -/
  | label (l : Nat)
  /-- `BEQ <reg>.<field>, <v>, <label>` -/
  | beq (f : Field) (v : Word) (l : Nat)
  /-- `BNE <reg>.<field>, <v>, <label>` -/
  | bne (f : Field) (v : Word) (l : Nat)
  /-- any one access a bus master can make (R323), the refused widths of R85 among them, with no expected value -/
  | bus (a : Access)
  deriving DecidableEq, Repr

end Sys2Proof.Machine
end

