-- ==== Sys2Proof/Machine/State.lean ====
section
/-! DEFINITION. The state of the machine as plain data: the BlockState of 10_state.md R30 together with the host's own
state (20_memory.md R95), the reset input, and the model's own counters; the reasons a step can stop; the state after
reset (70_reset_and_hazards.md R341). -/

namespace Sys2Proof.Machine

/-- Completion codes, `STATUS.ERRCODE` (60_exceptions.md R312). The values 7 to 15 are never produced, so the type has
none of them. -/
inductive ErrCode where
  | noError
  | badOpcode
  | badLen
  | badNbits
  | badPos
  | outOverflow
  | buExhausted
  deriving DecidableEq, Repr

/-- The stored bits of STATUS (10_state.md R34); ERR is a function of ERRCODE. -/
structure Status where
  busy : Bool
  done : Bool
  wbusy : Bool
  errcode : ErrCode
  deriving DecidableEq, Repr

/-- The bit packer's state (40_bitpacker.md R140; 10_state.md R39, R43). -/
structure Packer where
  dstLen : Word
  pend : BitVec 3
  pad : BitVec 3
  acc : Byte
  deriving DecidableEq, Repr

/-- The fields of MATCH (10_state.md R47). -/
structure MatchReg where
  dist : BitVec 16
  len : BitVec 8
  lit : Byte
  deriving DecidableEq, Repr

/-- The fields of RUN (10_state.md R48). -/
structure RunReg where
  count : BitVec 8
  value : Byte
  deriving DecidableEq, Repr

/-- A range `[0, bound)` of a buffer whose unwritten bytes come from free draw number `draw` (log 3). -/
structure Fill where
  bound : Nat
  draw : Nat
  deriving DecidableEq, Repr

/-- A buffer. `cells` lists the bytes written since their contents last became unspecified, in one canonical form:
addresses strictly rising. An unlisted address has NO stored value: what a read of it returns is a free byte of the
draw that covers it, the first of `fills` with the address below its bound, else `base` (20_memory.md R102, treatment
"any value"; log 1). So no listed entry equals what an unlisted address holds, and equal memories are equal data. -/
structure Memory where
  cells : List Host.Cell
  fills : List Fill
  base : Nat
  deriving DecidableEq, Repr

/-- The canonical form of a buffer. -/
abbrev Memory.wf (m : Memory) : Prop :=
  m.cells.Pairwise (fun a b => a.1 < b.1) ∧
  m.fills.Pairwise (fun f g => f.bound < g.bound) ∧
  ∀ f ∈ m.fills, 0 < f.bound

/-- A buffer nothing has written: every byte is a free byte of draw `d`. -/
def Memory.unknown (d : Nat) : Memory := { cells := [], fills := [], base := d }

/-- The host's own state (20_memory.md R95): its program (30_encoding.md R117), where it stands in it, the value its
last read returned, and the indexes of the read steps that did not return the value the program expects. -/
structure HostAgent where
  prog : List HostStep
  pc : Nat
  lastRead : Option Word
  unmet : List Nat
  deriving DecidableEq, Repr

/-- The machine's state. -/
structure State where
  /-- the parameters of 00_scope.md R8, read as CFG_IN_CAP, CFG_OUT_CAP and CFG_LZ (10_state.md R51, R52) -/
  params : Config.Params
  /-- CTRL.IRQ_EN (R33) -/
  irqEn : Bool
  /-- CMD.OP (R35) -/
  op : Opcode
  /-- STATUS (R34) -/
  status : Status
  /-- ERRINFO (R36) -/
  errinfo : Word
  /-- SRC_LEN (R37) -/
  srcLen : Word
  /-- DST_CAP (R38) -/
  dstCap : Word
  /-- DST_LEN and BP_STATE (R39, R43) -/
  packer : Packer
  /-- POS (R40) -/
  pos : Word
  /-- BP_VALUE (R41) -/
  bpValue : Word
  /-- BP_NBITS.NBITS (R42) -/
  bpNbits : BitVec 6
  /-- BU_NBITS.NBITS (R44) -/
  buNbits : BitVec 6
  /-- BU_VALUE (R45) -/
  buValue : Word
  /-- BU_POS (R46) -/
  buPos : Word
  /-- MATCH (R47) -/
  matchReg : MatchReg
  /-- RUN (R48) -/
  runReg : RunReg
  /-- HUF_NSYM (R49) -/
  hufNsym : BitVec 9
  /-- LZ_NTOK (R50) -/
  lzNtok : Word
  /-- FREQ (R53) -/
  freq : Vector Word 256
  /-- CODELEN (R54) -/
  codeLen : Vector Byte 256
  /-- CODE (R55) -/
  code : Vector (BitVec 256) 256
  /-- IN_BUF (R56) -/
  inBuf : Memory
  /-- OUT_BUF (R57) -/
  outBuf : Memory
  /-- the host (20_memory.md R95) -/
  host : HostAgent
  /-- the level of the hard reset input at each coming step, the next first; none listed is not asserted
  (70_reset_and_hazards.md R340; log 13) -/
  resetIn : List Bool
  /-- the model's own: how many host steps still come before the completion step while busy (44_system.md R269; log 4) -/
  wait : Nat
  /-- the model's own: the number of the next free draw (log 5) -/
  draws : Nat
  deriving DecidableEq, Repr

/-- Why the machine stops with a fault. -/
inductive Fault where
  /-- A host access that 20_memory.md R85, R87 or R88 refuses (R90, R318). Raised by a host step alone. Safe: the
  access has no effect in the block and the host is not continued, as R90 demands; what the platform does with the
  error response is not modelled (log 8). -/
  | busError (offset : Offset) (width : Nat) (dir : Dir)
  deriving DecidableEq, Repr

/-- Why a step is refused. -/
inductive Refusal where
  /-- An arm of exec that has no meaning yet. No arm of this model raises it. Safe. -/
  | notModelled (mnemonic : String)
  deriving DecidableEq, Repr

/-- The reset state of a block with parameters `p` (70_reset_and_hazards.md R341). The buffers hold any value (free
draws 0 and 1). The host has no program, the reset input is not asserted. -/
def State.resetWith (p : Config.Params) : State :=
  { params := p
    irqEn := false
    op := 0x0#4
    status := { busy := false, done := false, wbusy := false, errcode := .noError }
    errinfo := 0#32
    srcLen := 0#32
    dstCap := BitVec.ofNat 32 p.outCap
    packer := { dstLen := 0#32, pend := 0#3, pad := 0#3, acc := 0#8 }
    pos := 0#32
    bpValue := 0#32
    bpNbits := 0#6
    buNbits := 0#6
    buValue := 0#32
    buPos := 0#32
    matchReg := { dist := 0#16, len := 0#8, lit := 0#8 }
    runReg := { count := 0#8, value := 0#8 }
    hufNsym := 0#9
    lzNtok := 0#32
    freq := Vector.replicate 256 0#32
    codeLen := Vector.replicate 256 0#8
    code := Vector.replicate 256 0#256
    inBuf := Memory.unknown 0
    outBuf := Memory.unknown 1
    host := { prog := [], pc := 0, lastRead := none, unmet := [] }
    resetIn := []
    wait := 0
    draws := 2 }

/-- The machine right after reset, at the default parameters of 00_scope.md R8. -/
def State.reset : State := State.resetWith Config.Params.default

end Sys2Proof.Machine
end

