-- ==== Sys2Proof/Machine/Ops.lean ====
section
/-! DEFINITION. The named operations over buffers and registers that every meaning uses: reading and writing a byte,
making a range unspecified, bit strings (00_scope.md R14), the completion of a command with or without an error
(44_system.md R261, R263; 60_exceptions.md R310, R311), and the two resets (70_reset_and_hazards.md R340, R342). -/

namespace Sys2Proof.Machine

/-! ## Buffers -/

/-- The written byte at an address, if there is one. -/
def cellAt : List Host.Cell → Nat → Option Byte
  | [], _ => none
  | (a, b) :: rest, i => if a = i then some b else cellAt rest i

/-- The free draw that the unwritten byte at an address comes from: the first range that covers it, else the base. -/
def drawFor : List Fill → Nat → Nat → Nat
  | [], base, _ => base
  | f :: rest, base, i => if i < f.bound then f.draw else drawFor rest base i

/-- What a byte that nothing has written holds: any value (20_memory.md R102; log 1). -/
def Memory.freeAt (m : Memory) (i : Nat) : Byte := Config.freeByte (drawFor m.fills m.base i) i

/-- Byte `i` of a buffer, `IN[i]` or `OUT[i]` (00_scope.md R11). -/
def Memory.read (m : Memory) (i : Nat) : Byte := (cellAt m.cells i).getD (m.freeAt i)

/-- Put a byte into a rising list of cells. -/
def insertCell : List Host.Cell → Nat → Byte → List Host.Cell
  | [], i, b => [(i, b)]
  | (a, x) :: rest, i, b =>
    if i < a then (i, b) :: (a, x) :: rest
    else if a = i then (i, b) :: rest
    else (a, x) :: insertCell rest i b

/-- `OUT[i] <- b` (00_scope.md R11), and the host's byte write to `IN[i]` (20_memory.md R87). -/
def Memory.write (m : Memory) (i : Nat) (b : Byte) : Memory := { m with cells := insertCell m.cells i b }

/-- Write a byte list from index `i` up: `OUT[i..i+len) <- bs`. -/
def Memory.writeBytes (m : Memory) (i : Nat) : List Byte → Memory
  | [] => m
  | b :: bs => (m.write i b).writeBytes (i + 1) bs

/-- `OUT[0..cap) <- any value` (40_bitpacker.md R148, 70_reset_and_hazards.md R342): the bytes below `cap` become free
bytes of draw `d`; the others keep what they hold (log 3). -/
def Memory.forget (m : Memory) (cap d : Nat) : Memory :=
  if cap = 0 then m
  else { m with cells := m.cells.filter (fun c => decide (cap ≤ c.1))
                fills := ⟨cap, d⟩ :: m.fills.filter (fun f => decide (cap < f.bound)) }

/-- The four bytes at `i` on little-endian lanes (20_memory.md R83, R84). -/
def Memory.readLanes (m : Memory) (i : Nat) : Word :=
  m.read (i + 3) ++ m.read (i + 2) ++ m.read (i + 1) ++ m.read i

/-- Lane `k` of a bus word (20_memory.md R83): bits `8k+7` to `8k`. -/
def lane (v : Word) (k : Nat) : Byte := v.extractLsb' (8 * k) 8

/-- Write the four lanes of a bus word at `i` (20_memory.md R83). -/
def Memory.writeLanes (m : Memory) (i : Nat) (v : Word) : Memory :=
  m.writeBytes i [lane v 0, lane v 1, lane v 2, lane v 3]

/-- The bytes `[0, n)` of a buffer as a ByteBuffer. -/
def Memory.bytes (m : Memory) (n : Nat) : List Byte := (List.range n).map m.read

/-! ## Bit strings and big-endian fields (00_scope.md R11, R14; 20_memory.md R81, R82) -/

/-- Byte `j` of a packed bit string: `bits[8j+i]` at bit `7-i`, positions past the end 0 (R14). -/
def packByte (bits : List Bool) (j : Nat) : Byte :=
  BitVec.ofNat 8 ((List.range 8).foldl (fun v i => 2 * v + (bits.getD (8 * j + i) false).toNat) 0)

/-- `pack(bits)`: `ceil(len/8)` bytes (R14). -/
def pack (bits : List Bool) : List Byte := (List.range ((bits.length + 7) / 8)).map (packByte bits)

/-- `padcount(bits)` (R14). -/
def padcount (bits : List Bool) : Nat := (8 - bits.length % 8) % 8

/-- `unpackbit(buf, q)`: bit `7 - q mod 8` of byte `q div 8` (R14, R81). -/
def unpackBit (buf : Nat → Byte) (q : Nat) : Bool := (buf (q / 8)).getLsbD (7 - q % 8)

/-- The bits `v[n-1], …, v[0]` of a value, most significant first (R81). -/
def msbBits (v : Word) : Nat → List Bool
  | 0 => []
  | n + 1 => v.getLsbD n :: msbBits v n

/-- The unsigned value of a bit string whose first bit is the most significant (R81; 42_huffman.md R198). -/
def bitsValue (bits : List Bool) : Nat := bits.foldl (fun v b => 2 * v + b.toNat) 0

/-- `be16(v)` (R11). -/
def be16 (v : Nat) : List Byte := [BitVec.ofNat 8 (v / 2 ^ 8), BitVec.ofNat 8 v]

/-- `be32(v)` (R11). -/
def be32 (v : Nat) : List Byte :=
  [BitVec.ofNat 8 (v / 2 ^ 24), BitVec.ofNat 8 (v / 2 ^ 16), BitVec.ofNat 8 (v / 2 ^ 8), BitVec.ofNat 8 v]

/-! ## Completing a command

Errors are not traps (60_exceptions.md R310): nothing is saved, no mode changes and there is no handler. A command's
pseudocode ends either normally or with `raise E(x)` (R311); both end in the one completion update of 44_system.md
R263. There is no return from an error (R321): the next START is the only way on. -/

/-- How a command's pseudocode ended: the state it left, and the code and information word it reports. -/
structure CmdResult where
  st : State
  code : ErrCode
  info : Word

/-- The pseudocode ran to its end: `NONE`, ERRINFO 0 (60_exceptions.md R312, R313). -/
def CmdResult.ok (s : State) : CmdResult := { st := s, code := .noError, info := 0#32 }

/-- `raise E(x)` (60_exceptions.md R311), leaving the state `s`. -/
def CmdResult.raise (s : State) (e : ErrCode) (x : Word) : CmdResult := { st := s, code := e, info := x }

/-- The completion update of 44_system.md R263: ERRCODE and ERRINFO written, BUSY cleared, DONE set, WBUSY unchanged. -/
def State.completed (s : State) (code : ErrCode) (info : Word) : State :=
  { s with status := { s.status with busy := false, done := true, errcode := code }
           errinfo := info }

/-- End the completion step: the outcome of every command. -/
def finish (r : CmdResult) : Host.Outcome State Fault Refusal := .next (r.st.completed r.code r.info)

/-- The completion of a reserved opcode: BAD_OPCODE(zext_32(OP)), no other state change (30_encoding.md R115). -/
def State.badOpcode (s : State) (op : Opcode) : State := s.completed .badOpcode (op.setWidth 32)

/-! ## Free draws -/

/-- Take the next free draw number. -/
def State.nextDraw (s : State) : State := { s with draws := s.draws + 1 }

/-- `OUT[0..cap) <- any value`, by a fresh draw. -/
def State.forgetOut (s : State) (cap : Nat) : State :=
  { s with outBuf := s.outBuf.forget cap s.draws, draws := s.draws + 1 }

/-! ## Reset -/

/-- `CAP = min(R[DST_CAP], OUT_CAP)`, the effective capacity (00_scope.md R15). -/
def State.cap (s : State) : Nat := min s.dstCap.toNat s.params.outCap

/-- What both resets do to registers and tables (70_reset_and_hazards.md R340, R341, R342): the command in flight is
discarded and every register field and table entry takes its reset value. The buffers, the host, the reset input and
the draw counter are kept. -/
def State.resetRegs (s : State) : State :=
  { State.resetWith s.params with
    inBuf := s.inBuf
    outBuf := s.outBuf
    host := s.host
    resetIn := s.resetIn
    draws := s.draws }

/-- Hard reset (70_reset_and_hazards.md R340): as above, and every buffer byte is any value, by two fresh draws. -/
def State.hardReset (s : State) : State :=
  { s.resetRegs with
    inBuf := Memory.unknown s.draws
    outBuf := Memory.unknown (s.draws + 1)
    draws := s.draws + 2 }

/-- Soft reset (70_reset_and_hazards.md R342): IN_BUF is unchanged; OUT_BUF is unchanged unless a command was busy,
when `OUT[0..cap)` becomes any value, with `cap` taken before the reset. -/
def State.softReset (s : State) : State :=
  if s.status.busy then (s.forgetOut s.cap).resetRegs else s.resetRegs

end Sys2Proof.Machine
end

