-- ==== Sys2Proof/Machine/Operands.lean ====
section
/-! DEFINITION. Operand assembly and legality (30_encoding.md R111, R116): every operand comes whole from an operand
register, zero-extended, and is read at the completion step. -/

namespace Sys2Proof.Machine

/-- Operand `L = R[SRC_LEN]`. -/
def State.len (s : State) : Nat := s.srcLen.toNat

/-- Operand `IN[0..SRC_LEN)`, the ByteBuffer a command reads (10_state.md R56). -/
def State.input (s : State) : List Byte := s.inBuf.bytes s.len

/-- Operand `p = R[POS]`. -/
def State.posArg (s : State) : Nat := s.pos.toNat

/-- Operand `n = R[BP_NBITS].NBITS`. -/
def State.putBits (s : State) : Nat := s.bpNbits.toNat

/-- Operand `n = R[BU_NBITS].NBITS`. -/
def State.getBits (s : State) : Nat := s.buNbits.toNat

/-- `SRC_LEN ≤ IN_CAP`, checked by every command that reads IN_BUF (R116). -/
def State.lenOk (s : State) : Bool := decide (s.len ≤ s.params.inCap)

/-- `1 ≤ NBITS ≤ 32` (R116). -/
def nbitsOk (n : Nat) : Bool := decide (1 ≤ n ∧ n ≤ Config.bpMaxNbits)

/-- `POS < SRC_LEN` (R116). -/
def State.posOk (s : State) : Bool := decide (s.posArg < s.len)

/-- A command that reads IN_BUF: BAD_LEN(SRC_LEN) first, with nothing changed (60_exceptions.md R314, R315). -/
def withLen (s : State) (body : CmdResult) : CmdResult :=
  if s.lenOk then body else .raise s .badLen s.srcLen

/-- A command with a width operand: BAD_NBITS(NBITS) with nothing changed (60_exceptions.md R314, R315). -/
def withNbits (s : State) (n : BitVec 6) (body : CmdResult) : CmdResult :=
  if nbitsOk n.toNat then body else .raise s .badNbits (n.setWidth 32)

/-- A command with a position operand: BAD_POS(POS) with nothing changed (60_exceptions.md R314, R315). -/
def withPos (s : State) (body : CmdResult) : CmdResult :=
  if s.posOk then body else .raise s .badPos s.pos

/-- The information word of OUT_OVERFLOW: `CAP` (60_exceptions.md R313). -/
def State.capWord (s : State) : Word := BitVec.ofNat 32 s.cap

end Sys2Proof.Machine
end

