-- ==== Sys2Proof/Machine/Packer.lean ====
section
/-! DEFINITION. The bit packer: its primitive, its three commands, and the emission that the encode commands share
(40_bitpacker.md R140 to R144, R148). -/

namespace Sys2Proof.Machine

/-- `pushbit(b)` on the packer and the buffer it writes (R141). -/
def pushBit (pm : Packer × Memory) (b : Bool) : Packer × Memory :=
  let acc := pm.1.acc ||| ((BitVec.ofBool b).setWidth 8 <<< (7 - pm.1.pend.toNat))
  if pm.1.pend = 7#3 then
    ({ pm.1 with dstLen := pm.1.dstLen + 1, pend := 0#3, acc := 0#8 }, pm.2.write pm.1.dstLen.toNat acc)
  else
    ({ pm.1 with pend := pm.1.pend + 1, acc := acc }, pm.2)

/-- Push a bit string, first bit first. -/
def pushBits (pm : Packer × Memory) (bits : List Bool) : Packer × Memory := bits.foldl pushBit pm

/-- Set the packer and OUT_BUF together. -/
def State.setPacked (s : State) (pm : Packer × Memory) : State := { s with packer := pm.1, outBuf := pm.2 }

/-- Set the packer alone. -/
def State.setPacker (s : State) (p : Packer) : State := { s with packer := p }

/-- An empty packer with `n` whole bytes written and a last flush that added `pad` bits. -/
def Packer.at (n pad : Nat) : Packer :=
  { dstLen := BitVec.ofNat 32 n, pend := 0#3, pad := BitVec.ofNat 3 pad, acc := 0#8 }

/-- How many whole bytes a put of `n` bits completes: `(BP.PEND + n) div 8` (R142). -/
def Packer.putBytes (p : Packer) (n : Nat) : Nat := (p.pend.toNat + n) / 8

/-- `BP_PUT` (R142): all or nothing. -/
def runBpPut (s : State) : CmdResult :=
  withNbits s s.bpNbits
    (if s.packer.dstLen.toNat + s.packer.putBytes s.putBits > s.cap then .raise s .outOverflow s.capWord
     else .ok (s.setPacked (pushBits (s.packer, s.outBuf) (msbBits s.bpValue s.putBits))))

/-- `BP_FLUSH` (R143). -/
def runBpFlush (s : State) : CmdResult :=
  if s.packer.pend = 0#3 then .ok (s.setPacker { s.packer with pad := 0#3 })
  else if s.packer.dstLen.toNat + 1 > s.cap then .raise s .outOverflow s.capWord
  else .ok (s.setPacked
    ({ dstLen := s.packer.dstLen + 1, pend := 0#3, pad := BitVec.ofNat 3 (8 - s.packer.pend.toNat), acc := 0#8 },
     s.outBuf.write s.packer.dstLen.toNat s.packer.acc))

/-- `BP_CLEAR` (R144): OUT_BUF is not changed. -/
def runBpClear (s : State) : CmdResult := .ok (s.setPacker (Packer.at 0 0))

/-- `emit(o, pad)` (R148), the last act of every encode command: on success the output replaces `OUT[0..len(o))` and
the packer stands empty after it; otherwise the packer is cleared and `OUT[0..CAP)` is any value. -/
def emit (s : State) (o : List Byte) (pad : Nat) : CmdResult :=
  if o.length > s.cap then
    .raise ((s.forgetOut s.cap).setPacker (Packer.at 0 0)) .outOverflow s.capWord
  else .ok (s.setPacked (Packer.at o.length pad, s.outBuf.writeBytes 0 o))

/-- `BP_PUT`. -/
def execBpPut (s : State) : Host.Outcome State Fault Refusal := finish (runBpPut s)

/-- `BP_FLUSH`. -/
def execBpFlush (s : State) : Host.Outcome State Fault Refusal := finish (runBpFlush s)

/-- `BP_CLEAR`. -/
def execBpClear (s : State) : Host.Outcome State Fault Refusal := finish (runBpClear s)

end Sys2Proof.Machine
end

