-- ==== Sys2Proof/Machine/Huffman.lean ====
section
/-! DEFINITION. The Huffman encoder (42_huffman.md R190 to R206). -/

namespace Sys2Proof.Machine

/-- A Huffman tree; the left edge is bit 0 and the right edge bit 1 (R195). -/
inductive HufTree where
  | leaf (sym : Byte)
  | node (left right : HufTree)
  deriving DecidableEq, Repr

/-- A node of the pool with its weight and key (R193). -/
structure PoolNode where
  weight : Nat
  key : Nat
  tree : HufTree
  deriving DecidableEq, Repr

/-- `freq(in)`, the FrequencyTable (R191). -/
def freqOf (inp : List Byte) (s : Byte) : Nat := inp.count s

/-- The byte values 0 to 255 in ascending order. -/
def allBytes : List Byte := (List.range Config.hufMaxSymbols).map (BitVec.ofNat 8)

/-- `S`: the byte values that occur, ascending (R192). -/
def symbols (F : Byte → Nat) : List Byte := allBytes.filter (fun s => decide (0 < F s))

/-- The order of R193: lower weight first, among equal weights lower key first. -/
def PoolNode.before (a b : PoolNode) : Bool := decide (a.weight < b.weight ∨ a.weight = b.weight ∧ a.key < b.key)

/-- Take the least node out of a non-empty pool. -/
def takeLeast : PoolNode → List PoolNode → PoolNode × List PoolNode
  | x, [] => (x, [])
  | x, y :: ys =>
    if x.before (takeLeast y ys).1 then (x, y :: ys) else ((takeLeast y ys).1, x :: (takeLeast y ys).2)

/-- The node that merge number `m` makes of the first and second node it removed (R193, R194, R195). -/
def mergeNode (m : Nat) (a b : PoolNode) : PoolNode :=
  { weight := a.weight + b.weight, key := 256 + m, tree := .node a.tree b.tree }

/-- One merge: remove the least node, then the least of the rest, and add their parent (R194). A pool of fewer than
two nodes stays. -/
def mergeOnce (m : Nat) : List PoolNode → List PoolNode
  | [] => []
  | [x] => [x]
  | x :: y :: ys =>
    match takeLeast x (y :: ys) with
    | (a, []) => [a]
    | (a, z :: zs) => mergeNode m a (takeLeast z zs).1 :: (takeLeast z zs).2

/-- The merges numbered `m`, `m+1`, …, as many as the first argument says (R194). -/
def mergeLoop : Nat → Nat → List PoolNode → List PoolNode
  | 0, _, pool => pool
  | k + 1, m, pool => mergeLoop k (m + 1) (mergeOnce m pool)

/-- The initial pool: a leaf for each symbol, with weight `F[s]` and key `s` (R193, R194). -/
def leavesOf (F : Byte → Nat) : List PoolNode := (symbols F).map (fun s => ⟨F s, s.toNat, .leaf s⟩)

/-- `buildTree(F)` (R194): `K - 1` merges, then the one node left; none when no symbol occurs. -/
def buildTree (F : Byte → Nat) : Option HufTree :=
  ((mergeLoop ((symbols F).length - 1) 0 (leavesOf F)).head?).map (fun p => p.tree)

/-- The path from the root to the leaf of `s` (R197), if there is one. -/
def HufTree.path : HufTree → Byte → Option (List Bool)
  | .leaf x, s => if x = s then some [] else none
  | .node l r, s =>
    match l.path s with
    | some c => some (false :: c)
    | none => (r.path s).map (fun c => true :: c)

/-- The Code Table (R196, R197): for one distinct symbol the 1-bit code `0`, for more the root-to-leaf paths; a byte
value outside `S` has no code, here the empty bit string. -/
def codeTable (F : Byte → Nat) : Byte → List Bool :=
  match symbols F with
  | [] => fun _ => []
  | [s0] => fun s => if s = s0 then [false] else []
  | _ :: _ :: _ =>
    match buildTree F with
    | none => fun _ => []
    | some t => fun s => (t.path s).getD []

/-- The header of R200 for a table `F` and an original byte count `n`. -/
def hufHeader (n : Nat) (F : Byte → Nat) : List Byte :=
  be32 n ++ be16 (symbols F).length ++ (symbols F).flatMap (fun s => s :: be32 (F s))

/-- The bit string of the body (R201). -/
def hufBits (inp : List Byte) : List Bool := inp.flatMap (codeTable (freqOf inp))

/-- `huffEncode(in)` (R202): the stream. -/
def huffEncode (inp : List Byte) : List Byte := hufHeader inp.length (freqOf inp) ++ pack (hufBits inp)

/-- The padding count of `huffEncode(in)` (R201, R202). -/
def huffPad (inp : List Byte) : Nat := padcount (hufBits inp)

/-- A table of 256 entries, entry `s` computed from the byte value `s`. -/
def tableOf {α : Type} (f : Byte → α) : Vector α 256 := Vector.ofFn (fun i => f (BitVec.ofFin i))

/-- The table update of R206: FREQ, CODELEN, CODE and HUF_NSYM, all 256 entries. -/
def State.setTables (s : State) (inp : List Byte) : State :=
  let F := freqOf inp
  let code := codeTable F
  { s with freq := tableOf (fun b => BitVec.ofNat 32 (F b))
           codeLen := tableOf (fun b => BitVec.ofNat 8 (code b).length)
           code := tableOf (fun b => BitVec.ofNat 256 (bitsValue (code b)))
           hufNsym := BitVec.ofNat 9 (symbols F).length }

/-- `HUF_ENC` (R205): BAD_LEN first; then the tables, which stay written even when the emission overflows. -/
def runHufEnc (s : State) : CmdResult :=
  withLen s (emit (s.setTables s.input) (huffEncode s.input) (huffPad s.input))

/-- `HUF_ENC`. -/
def execHufEnc (s : State) : Host.Outcome State Fault Refusal := finish (runHufEnc s)

end Sys2Proof.Machine
end

