-- ==== Sys2Proof/Machine/Lz.lean ====
section
/-! DEFINITION. The LZ77 match engine and encoder (43_lz77.md R230 to R240). -/

namespace Sys2Proof.Machine

/-- A token `(distance, length, literal)` (R236). -/
structure Token where
  dist : Nat
  len : Nat
  lit : Byte
  deriving DecidableEq, Repr

/-- The length of the longest common beginning of two byte lists, at most `k`. -/
def commonLen : Nat → List Byte → List Byte → Nat
  | 0, _, _ => 0
  | _, [], _ => 0
  | _, _ :: _, [] => 0
  | k + 1, a :: as, b :: bs => if a = b then commonLen k as bs + 1 else 0

/-- `matchlen(in, p, d, Lmax)` (R231): how far `in[p..]` agrees with `in[p-d..]`; it may run past `p`. -/
def matchLen (inp : List Byte) (p d lmax : Nat) : Nat := commonLen lmax (inp.drop p) (inp.drop (p - d))

/-- `Lmax = min(LZ_MAX_LEN, n - p - 1)` (R231): one byte is left for the literal. -/
def lzLimit (inp : List Byte) (p : Nat) : Nat := min Config.lzMaxLen (inp.length - p - 1)

/-- One candidate distance of the scan of R232; strict, so that the first (smallest) distance wins a tie. The pair is
`(best_d, best_l)`. -/
def lzBetter (inp : List Byte) (p : Nat) (best : Nat × Nat) (d : Nat) : Nat × Nat :=
  if best.2 < matchLen inp p d (lzLimit inp p) then (d, matchLen inp p d (lzLimit inp p)) else best

/-- The best match over the distances 1 to `min(p, window)`, ascending (R232). -/
def lzBest (window : Nat) (inp : List Byte) (p : Nat) : Nat × Nat :=
  (List.range' 1 (min p window)).foldl (lzBetter inp p) (0, 0)

/-- `find(in, n, p)` (R232, R233). -/
def lzFind (window minMatch : Nat) (inp : List Byte) (p : Nat) : Nat × Nat :=
  if (lzBest window inp p).2 < minMatch then (0, 0) else lzBest window inp p

/-- The token at a position: the match found and the byte after it (R235, R236). -/
def tokenAt (window minMatch : Nat) (inp : List Byte) (p : Nat) : Token :=
  { dist := (lzFind window minMatch inp p).1
    len := (lzFind window minMatch inp p).2
    lit := inp.getD (p + (lzFind window minMatch inp p).2) 0#8 }

/-- The loop of R236 from position `p` on; `fuel` bounds the number of tokens. -/
def tokensFrom (window minMatch : Nat) (inp : List Byte) : Nat → Nat → List Token
  | 0, _ => []
  | fuel + 1, p =>
    if p < inp.length then
      tokenAt window minMatch inp p ::
        tokensFrom window minMatch inp fuel (p + (tokenAt window minMatch inp p).len + 1)
    else []

/-- `tokens(in)` (R236). -/
def tokens (window minMatch : Nat) (inp : List Byte) : List Token := tokensFrom window minMatch inp inp.length 0

/-- `record(d, l, c) = be16(d) ++ [l, c]` (R237). -/
def Token.record (t : Token) : List Byte := be16 t.dist ++ [BitVec.ofNat 8 t.len, t.lit]

/-- `lzEncode(in)` (R238, R239); its padding count is 0. -/
def lzEncode (window minMatch : Nat) (inp : List Byte) : List Byte :=
  be32 inp.length ++ (tokens window minMatch inp).flatMap Token.record

/-- The fields of MATCH for a token (10_state.md R47). -/
def Token.reg (t : Token) : MatchReg :=
  { dist := BitVec.ofNat 16 t.dist, len := BitVec.ofNat 8 t.len, lit := t.lit }

/-- `LZ_FIND` (R235): BAD_LEN, then BAD_POS; POS is not advanced. -/
def runLzFind (s : State) : CmdResult :=
  withLen s (withPos s
    (.ok { s with matchReg := (tokenAt s.params.lzWindow s.params.lzMinMatch s.input s.posArg).reg }))

/-- Set LZ_NTOK, only where the emission succeeded (R240). -/
def CmdResult.countTokens (r : CmdResult) (n : Nat) : CmdResult :=
  if r.code = .noError then { r with st := { r.st with lzNtok := BitVec.ofNat 32 n } } else r

/-- `LZ_ENC` (R240). -/
def runLzEnc (s : State) : CmdResult :=
  withLen s
    ((emit s (lzEncode s.params.lzWindow s.params.lzMinMatch s.input) 0).countTokens
      (tokens s.params.lzWindow s.params.lzMinMatch s.input).length)

/-- `LZ_FIND`. -/
def execLzFind (s : State) : Host.Outcome State Fault Refusal := finish (runLzFind s)

/-- `LZ_ENC`. -/
def execLzEnc (s : State) : Host.Outcome State Fault Refusal := finish (runLzEnc s)

end Sys2Proof.Machine
end

