-- ==== Sys2Proof/Machine/Rle.lean ====
section
/-! DEFINITION. The RLE run detector and encoder (41_rle.md R170 to R175). -/

namespace Sys2Proof.Machine

/-- How many of the first bytes of a list, at most `k`, equal `v`. -/
def sameCount (v : Byte) : Nat → List Byte → Nat
  | 0, _ => 0
  | _, [] => 0
  | k + 1, b :: bs => if b = v then sameCount v k bs + 1 else 0

/-- `run(in, n, p)` (R171) for an input whose suffix from `p` on is `v :: rest`: the count r. The value is `v`. -/
def runCount (v : Byte) (rest : List Byte) : Nat := 1 + sameCount v (Config.rleMaxRun - 1) rest

/-- The records of R172 and the loop of R174 over the input not yet read; `fuel` bounds the number of runs. -/
def rleRecords : Nat → List Byte → List Byte
  | 0, _ => []
  | _, [] => []
  | fuel + 1, v :: rest =>
    BitVec.ofNat 8 (runCount v rest) :: v :: rleRecords fuel (rest.drop (runCount v rest - 1))

/-- `rleEncode(in)` (R174): the stream; its padding count is always 0. -/
def rleEncode (inp : List Byte) : List Byte := rleRecords inp.length inp

/-- The run the detector finds in `inp` at position `p` (R171), as the fields of RUN (10_state.md R48). -/
def runAt (inp : List Byte) (p : Nat) : RunReg :=
  match inp.drop p with
  | [] => { count := 0#8, value := 0#8 }
  | v :: rest => { count := BitVec.ofNat 8 (runCount v rest), value := v }

/-- `RLE_RUN` (R173): BAD_LEN, then BAD_POS; POS is not advanced. -/
def runRleRun (s : State) : CmdResult :=
  withLen s (withPos s (.ok { s with runReg := runAt s.input s.posArg }))

/-- `RLE_ENC` (R175). -/
def runRleEnc (s : State) : CmdResult := withLen s (emit s (rleEncode s.input) 0)

/-- `RLE_RUN`. -/
def execRleRun (s : State) : Host.Outcome State Fault Refusal := finish (runRleRun s)

/-- `RLE_ENC`. -/
def execRleEnc (s : State) : Host.Outcome State Fault Refusal := finish (runRleEnc s)

end Sys2Proof.Machine
end

