-- ==== Sys2Proof/Machine/System.lean ====
section
/-! DEFINITION. The control family: NOP (44_system.md R262). -/

namespace Sys2Proof.Machine

/-- `NOP`: does nothing but complete; it reads no operand, not even SRC_LEN (R262). -/
def execNop (s : State) : Host.Outcome State Fault Refusal := finish (.ok s)

end Sys2Proof.Machine
end

