-- ==== Sys2Proof/Machine/Unpacker.lean ====
section
/-! DEFINITION. The bit unpacker (40_bitpacker.md R145 to R147). -/

namespace Sys2Proof.Machine

/-- The unsigned value of `n` stream bits from bit `q` on, the first read the most significant (R146). -/
def streamValue (buf : Nat → Byte) (q n : Nat) : Nat :=
  bitsValue ((List.range n).map (fun k => unpackBit buf (q + k)))

/-- Set the unpacker's two registers. -/
def State.setUnpacked (s : State) (value pos : Word) : State := { s with buValue := value, buPos := pos }

/-- `BU_GET` (R146): BAD_LEN, then BAD_NBITS, then BU_EXHAUSTED; the value and the cursor only on success. -/
def runBuGet (s : State) : CmdResult :=
  withLen s (withNbits s s.buNbits
    (if s.buPos.toNat + s.getBits > 8 * s.len then .raise s .buExhausted s.buPos
     else .ok (s.setUnpacked (BitVec.ofNat 32 (streamValue s.inBuf.read s.buPos.toNat s.getBits))
            (BitVec.ofNat 32 (s.buPos.toNat + s.getBits)))))

/-- `BU_CLEAR` (R147): SRC_LEN is not checked. -/
def runBuClear (s : State) : CmdResult := .ok (s.setUnpacked 0#32 0#32)

/-- `BU_GET`. -/
def execBuGet (s : State) : Host.Outcome State Fault Refusal := finish (runBuGet s)

/-- `BU_CLEAR`. -/
def execBuClear (s : State) : Host.Outcome State Fault Refusal := finish (runBuClear s)

end Sys2Proof.Machine
end

