-- ==== Sys2Proof/Machine/Dispatch.lean ====
section
/-! DEFINITION. The completion step's dispatch: one arm per command (30_encoding.md R112; 44_system.md R261). -/

namespace Sys2Proof.Machine

/-- Run the command as one atomic completion step. -/
def exec (i : Instr) (s : State) : Host.Outcome State Fault Refusal :=
  match i with
  | .nop => Sys2Proof.Machine.execNop s
  | .bpPut => Sys2Proof.Machine.execBpPut s
  | .bpFlush => Sys2Proof.Machine.execBpFlush s
  | .bpClear => Sys2Proof.Machine.execBpClear s
  | .buGet => Sys2Proof.Machine.execBuGet s
  | .buClear => Sys2Proof.Machine.execBuClear s
  | .rleRun => Sys2Proof.Machine.execRleRun s
  | .rleEnc => Sys2Proof.Machine.execRleEnc s
  | .hufEnc => Sys2Proof.Machine.execHufEnc s
  | .lzFind => Sys2Proof.Machine.execLzFind s
  | .lzEnc => Sys2Proof.Machine.execLzEnc s

end Sys2Proof.Machine
end

