-- ==== Sys2Proof/Machine/Flags.lean ====
section
/-! DEFINITION. The STATUS register, the block's only flags (10_state.md R34, R60), and the interrupt line. -/

namespace Sys2Proof.Machine

/-- The 4-bit value of a completion code (60_exceptions.md R312). -/
def ErrCode.bits : ErrCode → BitVec 4
  | .noError => 0#4
  | .badOpcode => 1#4
  | .badLen => 2#4
  | .badNbits => 3#4
  | .badPos => 4#4
  | .outOverflow => 5#4
  | .buExhausted => 6#4

/-- STATUS.ERR, always `ERRCODE ≠ 0` (10_state.md R34). -/
def Status.err (st : Status) : Bool := st.errcode != .noError

/-- What a read of STATUS returns (10_state.md R34): BUSY, DONE, ERR, WBUSY in bits 0 to 3, ERRCODE in bits 7 to 4. -/
def Status.word (st : Status) : Word :=
  (st.errcode.bits ++ BitVec.ofBool st.wbusy ++ BitVec.ofBool st.err ++ BitVec.ofBool st.done
    ++ BitVec.ofBool st.busy).setWidth 32

/-- An idle host write to STATUS: DONE and WBUSY are W1C, the other bits are not written (10_state.md R31, R34). -/
def Status.w1c (st : Status) (v : Word) : Status :=
  { st with done := st.done && !v.getLsbD 1, wbusy := st.wbusy && !v.getLsbD 3 }

/-- What START does to STATUS (44_system.md R260): BUSY set, DONE and ERRCODE cleared, WBUSY kept. -/
def Status.started (st : Status) : Status := { st with busy := true, done := false, errcode := .noError }

/-- A START: the command in CMD.OP is in flight, to be completed after a free, finite number of host steps
(44_system.md R260, R269; log 4). -/
def State.started (s : State) : State :=
  { s with status := s.status.started, wait := Config.freeWait s.draws, draws := s.draws + 1 }

/-- A host write dropped because BUSY = 1 (44_system.md R265): WBUSY set, nothing else. -/
def State.dropWrite (s : State) : State := { s with status := { s.status with wbusy := true } }

/-- The output line `irq`, level-sensitive and active high (44_system.md R268). -/
def State.irq (s : State) : Bool := s.status.done && s.irqEn

end Sys2Proof.Machine
end

