-- ==== Sys2Proof/Machine/Bus.lean ====
section
/-! DEFINITION. Host bus accesses: the address map, which accesses err, what reads return and what writes do
(20_memory.md R80 to R92; 10_state.md R31 to R57; 44_system.md R260, R265, R266). -/

namespace Sys2Proof.Machine

/-- The offset of a register (20_memory.md R86). -/
def RegName.offset : RegName → Offset
  | .id => 0x000#22
  | .ctrl => 0x004#22
  | .cmd => 0x008#22
  | .status => 0x00C#22
  | .errinfo => 0x010#22
  | .srcLen => 0x014#22
  | .dstCap => 0x018#22
  | .dstLen => 0x01C#22
  | .pos => 0x020#22
  | .bpValue => 0x024#22
  | .bpNbits => 0x028#22
  | .bpState => 0x02C#22
  | .buNbits => 0x030#22
  | .buValue => 0x034#22
  | .buPos => 0x038#22
  | .matchReg => 0x03C#22
  | .runReg => 0x040#22
  | .hufNsym => 0x044#22
  | .lzNtok => 0x048#22
  | .cfgInCap => 0x04C#22
  | .cfgOutCap => 0x050#22
  | .cfgLz => 0x054#22

/-- Every register, in the order of R86. -/
def RegName.all : List RegName :=
  [.id, .ctrl, .cmd, .status, .errinfo, .srcLen, .dstCap, .dstLen, .pos, .bpValue, .bpNbits, .bpState, .buNbits,
   .buValue, .buPos, .matchReg, .runReg, .hufNsym, .lzNtok, .cfgInCap, .cfgOutCap, .cfgLz]

/-- The four windows of the address map (R86). -/
inductive Window where
  /-- registers, tables and the unassigned offsets below 0x10_0000 -/
  | regs
  | inWin
  | outWin
  /-- 0x30_0000 to 0x3F_FFFF, unassigned -/
  | top
  deriving DecidableEq, Repr

/-- What an aligned access reaches (R86). -/
inductive Target where
  | reg (r : RegName)
  | freq (s : Byte)
  | codeLen (s : Byte)
  | code (s : Byte) (w : Nat)
  | inByte (i : Nat)
  | outByte (i : Nat)
  | unassigned
  deriving DecidableEq, Repr

/-- The window of an offset (R86). -/
def windowOf (o : Offset) : Window :=
  if o.toNat < 0x100000 then .regs
  else if o.toNat < 0x200000 then .inWin
  else if o.toNat < 0x300000 then .outWin
  else .top

/-- What lies at an offset below 0x10_0000 (R86, R89). -/
def regTarget (o : Nat) : Target :=
  if o < 0x058 then
    match RegName.all[o / 4]? with
    | some r => .reg r
    | none => .unassigned
  else if o < 0x400 then .unassigned
  else if o < 0x800 then .freq (BitVec.ofNat 8 ((o - 0x400) / 4))
  else if o < 0xC00 then .codeLen (BitVec.ofNat 8 ((o - 0x800) / 4))
  else if o < 0x1000 then .unassigned
  else if o < 0x3000 then .code (BitVec.ofNat 8 ((o - 0x1000) / 32)) ((o - 0x1000) / 4 % 8)
  else .unassigned

/-- What lies at an offset (R86, R87, R88, R89). -/
def targetOf (o : Offset) : Target :=
  match windowOf o with
  | .regs => regTarget o.toNat
  | .inWin => .inByte (o.toNat - 0x100000)
  | .outWin => .outByte (o.toNat - 0x200000)
  | .top => .unassigned

/-- A 32-bit write, `W32` (30_encoding.md R117). -/
def Access.w32 (off : Offset) (v : Word) : Access := { dir := .write, offset := off, width := 32, data := v }

/-- A byte write, `W8` (R117). -/
def Access.w8 (off : Offset) (v : Byte) : Access := { dir := .write, offset := off, width := 8, data := v.setWidth 32 }

/-- A 32-bit read, `R32` (R117). -/
def Access.r32 (off : Offset) : Access := { dir := .read, offset := off, width := 32, data := 0#32 }

/-- A byte read, `R8` (R117). -/
def Access.r8 (off : Offset) : Access := { dir := .read, offset := off, width := 8, data := 0#32 }

/-- An aligned 32-bit access (R85). -/
def Access.isWord (a : Access) : Bool := a.width == 32 && a.offset.toNat % 4 == 0

/-- An 8-bit access (R85). -/
def Access.isByte (a : Access) : Bool := a.width == 8

/-- Whether an access is answered without a bus error (R85, R87, R88). A word access to a buffer needs all four of its
bytes within the capacity (DEDUCED, log 9); the unassigned top range takes aligned words only (DEDUCED, log 10). -/
def Access.ok (p : Config.Params) (a : Access) : Bool :=
  match windowOf a.offset with
  | .regs => a.isWord
  | .inWin => (a.isWord || a.isByte) && decide (a.offset.toNat - 0x100000 + a.width / 8 ≤ p.inCap)
  | .outWin => (a.isWord || a.isByte) && decide (a.offset.toNat - 0x200000 + a.width / 8 ≤ p.outCap) && a.dir == .read
  | .top => a.isWord

/-! ## Reads -/

/-- CFG_LZ (10_state.md R52). -/
def cfgLzWord (p : Config.Params) : Word :=
  BitVec.ofNat 8 Config.lzMaxLen ++ BitVec.ofNat 8 p.lzMinMatch ++ BitVec.ofNat 16 p.lzWindow

/-- BP_STATE (10_state.md R43): PEND in bits 2 to 0, PAD in 6 to 4, ACC in 15 to 8. -/
def Packer.word (p : Packer) : Word := (p.acc ++ 0#1 ++ p.pad ++ 0#1 ++ p.pend).setWidth 32

/-- MATCH (10_state.md R47): DIST in bits 15 to 0, LEN in 23 to 16, LIT in 31 to 24. -/
def MatchReg.word (m : MatchReg) : Word := m.lit ++ m.len ++ m.dist

/-- RUN (10_state.md R48): COUNT in bits 7 to 0, VALUE in 15 to 8. -/
def RunReg.word (r : RunReg) : Word := (r.value ++ r.count).setWidth 32

/-- The current value of a register (10_state.md R32 to R52). -/
def State.readReg (s : State) : RegName → Word
  | .id => Config.idValue
  | .ctrl => (BitVec.ofBool s.irqEn).setWidth 32 <<< 2
  | .cmd => cmdWord s.op
  | .status => s.status.word
  | .errinfo => s.errinfo
  | .srcLen => s.srcLen
  | .dstCap => s.dstCap
  | .dstLen => s.packer.dstLen
  | .pos => s.pos
  | .bpValue => s.bpValue
  | .bpNbits => s.bpNbits.setWidth 32
  | .bpState => s.packer.word
  | .buNbits => s.buNbits.setWidth 32
  | .buValue => s.buValue
  | .buPos => s.buPos
  | .matchReg => s.matchReg.word
  | .runReg => s.runReg.word
  | .hufNsym => s.hufNsym.setWidth 32
  | .lzNtok => s.lzNtok
  | .cfgInCap => BitVec.ofNat 32 s.params.inCap
  | .cfgOutCap => BitVec.ofNat 32 s.params.outCap
  | .cfgLz => cfgLzWord s.params

/-- `FREQ[b]` (10_state.md R53). -/
def State.freqAt (s : State) (b : Byte) : Word := s.freq[b.toNat]

/-- `CODELEN[b]` (10_state.md R54). -/
def State.codeLenAt (s : State) (b : Byte) : Byte := s.codeLen[b.toNat]

/-- `CODE[b]` as one 256-bit value (10_state.md R55). -/
def State.codeAt (s : State) (b : Byte) : BitVec 256 := s.code[b.toNat]

/-- `CODE[b][w]`: bits `32w+31` to `32w` of the value (10_state.md R55). -/
def State.codeWordAt (s : State) (b : Byte) (w : Nat) : Word := (s.codeAt b).extractLsb' (32 * w) 32

/-- The value an access reads when it is exact: a byte read is the byte itself, zero-extended here (44_system.md R272),
a word read of a buffer is its four little-endian lanes (20_memory.md R83). -/
def State.exactRead (s : State) (a : Access) : Word :=
  match targetOf a.offset with
  | .reg r => s.readReg r
  | .freq b => s.freqAt b
  | .codeLen b => (s.codeLenAt b).setWidth 32
  | .code b w => s.codeWordAt b w
  | .inByte i => if a.isByte then (s.inBuf.read i).setWidth 32 else s.inBuf.readLanes i
  | .outByte i => if a.isByte then (s.outBuf.read i).setWidth 32 else s.outBuf.readLanes i
  | .unassigned => 0#32

/-- What a read returns exactly even while BUSY (44_system.md R266). The unassigned offsets are not registers and read
0 always (20_memory.md R89; DEDUCED, log 11). -/
def Target.exactWhileBusy : Target → Bool
  | .reg .id | .reg .ctrl | .reg .cmd | .reg .status | .reg .cfgInCap | .reg .cfgOutCap | .reg .cfgLz => true
  | .unassigned => true
  | _ => false

/-- Any value, of the width of the access (44_system.md R266; log 2). -/
def Access.freeRead (a : Access) (d : Nat) : Word :=
  if a.isByte then ((Config.freeWord d).setWidth 8).setWidth 32 else Config.freeWord d

/-- A read that does not err: no side effect on the block (20_memory.md R92); while BUSY, a draw for everything R266
does not name. The draw counter is the model's own. -/
def State.busRead (s : State) (a : Access) : State × Word :=
  if s.status.busy && !(targetOf a.offset).exactWhileBusy then (s.nextDraw, a.freeRead s.draws)
  else (s, s.exactRead a)

/-! ## Writes -/

/-- An idle write to CTRL without SRESET (44_system.md R260): IRQ_EN, then START. -/
def State.writeCtrl (s : State) (v : Word) : State :=
  if v.getLsbD 0 then { s with irqEn := v.getLsbD 2 }.started else { s with irqEn := v.getLsbD 2 }

/-- An idle write to a register: only its RW, W1C and WO fields change (10_state.md R31 to R52). -/
def State.writeReg (s : State) (r : RegName) (v : Word) : State :=
  match r with
  | .ctrl => s.writeCtrl v
  | .cmd => { s with op := opField v }
  | .status => { s with status := s.status.w1c v }
  | .srcLen => { s with srcLen := v }
  | .dstCap => { s with dstCap := v }
  | .pos => { s with pos := v }
  | .bpValue => { s with bpValue := v }
  | .bpNbits => { s with bpNbits := v.setWidth 6 }
  | .buNbits => { s with buNbits := v.setWidth 6 }
  | .id | .errinfo | .dstLen | .bpState | .buValue | .buPos | .matchReg | .runReg | .hufNsym | .lzNtok
  | .cfgInCap | .cfgOutCap | .cfgLz => s

/-- An idle write that does not err: registers, and bytes or words of IN_BUF (20_memory.md R87); tables and unassigned
offsets ignore it (10_state.md R31, 20_memory.md R89). -/
def State.idleWrite (s : State) (a : Access) : State :=
  match targetOf a.offset with
  | .reg r => s.writeReg r a.data
  | .inByte i =>
    { s with inBuf := if a.isByte then s.inBuf.write i (lane a.data 0) else s.inBuf.writeLanes i a.data }
  | .freq _ | .codeLen _ | .code _ _ | .outByte _ | .unassigned => s

/-- A CTRL write with bit 1 set: it performs the soft reset, busy or not (44_system.md R260, R265). -/
def Access.isSoftReset (a : Access) : Bool := targetOf a.offset == .reg .ctrl && a.data.getLsbD 1

/-- A write that does not err: the soft reset wins over everything, a write while BUSY is dropped, and otherwise the
write takes effect (44_system.md R260, R265). -/
def State.busWrite (s : State) (a : Access) : State :=
  if a.isSoftReset then s.softReset
  else if s.status.busy then s.dropWrite
  else s.idleWrite a

/-- One bus access, atomic (20_memory.md R91): the new state and what a read returned, or a bus error, which changes
nothing (R90). -/
def State.access (s : State) (a : Access) : Except Fault (State × Option Word) :=
  if a.ok s.params then
    match a.dir with
    | .read => .ok ((s.busRead a).1, some (s.busRead a).2)
    | .write => .ok (s.busWrite a, none)
  else .error (.busError a.offset a.width a.dir)

end Sys2Proof.Machine
end

