-- ==== Sys2Proof/Machine/HostProgram.lean ====
section
/-! DEFINITION. The host as an agent: its program steps, its own control flow, and the pseudo-steps
(30_encoding.md R117, R118; 44_system.md R271; 20_memory.md R95). -/

namespace Sys2Proof.Machine

/-! ## Writing programs -/

/-- The offset `IN+i` (R117). -/
def inOffset (i : Nat) : Offset := BitVec.ofNat 22 (0x100000 + i)

/-- The offset `OUT+i` (R117). -/
def outOffset (i : Nat) : Offset := BitVec.ofNat 22 (0x200000 + i)

/-- A whole register as a field, `<reg>.*` (R117). -/
def Field.whole (r : RegName) : Field := { offset := r.offset, lo := 0, len := 32 }

/-- `STATUS.BUSY`, `STATUS.DONE`, `STATUS.ERR`, `STATUS.WBUSY` and `STATUS.ERRCODE` (10_state.md R34). -/
def Field.busy : Field := { offset := RegName.status.offset, lo := 0, len := 1 }
def Field.done : Field := { offset := RegName.status.offset, lo := 1, len := 1 }
def Field.err : Field := { offset := RegName.status.offset, lo := 2, len := 1 }
def Field.wbusy : Field := { offset := RegName.status.offset, lo := 3, len := 1 }
def Field.errcode : Field := { offset := RegName.status.offset, lo := 4, len := 4 }

/-- The value of a field in the word read from its register. -/
def Field.of (f : Field) (w : Word) : Word := (w >>> f.lo) &&& BitVec.ofNat 32 (2 ^ f.len - 1)

/-- `RUN <mnemonic>` (R118). -/
def pseudoRun (op : Opcode) : List HostStep :=
  [.w32 RegName.cmd.offset (cmdWord op), .w32 RegName.ctrl.offset 0x1#32, .poll Field.busy 0#32]

/-- `RUNI <mnemonic>` (R118), which keeps IRQ_EN = 1. -/
def pseudoRunI (op : Opcode) : List HostStep :=
  [.w32 RegName.cmd.offset (cmdWord op), .w32 RegName.ctrl.offset 0x5#32, .poll Field.busy 0#32]

/-- `LOAD <i>, b0, b1, …` (R118). -/
def pseudoLoad (i : Nat) : List Byte → List HostStep
  | [] => []
  | b :: bs => .w8 (inOffset i) b :: pseudoLoad (i + 1) bs

/-- `CLRDONE` (R118). -/
def pseudoClrDone : List HostStep := [.w32 RegName.status.offset 0x2#32]

/-- `CLRWBUSY` (R118). -/
def pseudoClrWbusy : List HostStep := [.w32 RegName.status.offset 0x8#32]

/-- `SOFTRESET` (R118). -/
def pseudoSoftReset : List HostStep := [.w32 RegName.ctrl.offset 0x2#32]

/-! ## Running programs -/

/-- The step the host stands at, if its program is not at its end. -/
def HostAgent.current (h : HostAgent) : Option HostStep := h.prog[h.pc]?

/-- The host's program is at its end: it issues no more accesses. -/
def HostAgent.finished (h : HostAgent) : Bool := decide (h.prog.length ≤ h.pc)

/-- Go on with the next step. -/
def HostAgent.advance (h : HostAgent) : HostAgent := { h with pc := h.pc + 1 }

/-- Where a label stands in a program. R117 is silent on a label that the program does not define, and on one that it
defines twice: here the first branches past the end and the second to its first occurrence (DESIGN CHOICE, log 14). -/
def labelIndex : List HostStep → Nat → Nat
  | [], _ => 0
  | .label k :: rest, l => if k = l then 0 else labelIndex rest l + 1
  | _ :: rest, l => labelIndex rest l + 1

/-- Continue at a label (R117): the label's own step, and then the step it names. R117 is silent on a label at the end of
a program, which no step follows: here such a label names the program's end, so that the host that goes there issues no
more accesses (DESIGN CHOICE, log 14). -/
def HostAgent.jump (h : HostAgent) (l : Nat) : HostAgent := { h with pc := labelIndex h.prog l }

/-- Remember what a read returned. -/
def HostAgent.saw (h : HostAgent) (v : Word) : HostAgent := { h with lastRead := some v }

/-- A read step that expects a value (R117): go on either way, recording the step if it read another value (log 6). -/
def HostAgent.expect (h : HostAgent) (want got : Word) : HostAgent :=
  if got = want then (h.saw got).advance else { (h.saw got).advance with unmet := h.unmet ++ [h.pc] }

/-- The bus access of a host step (R117 "bus encoding"); a label has none. -/
def HostStep.access : HostStep → Option Access
  | .w32 off v => some (.w32 off v)
  | .w8 off v => some (.w8 off v)
  | .r32 off _ => some (.r32 off)
  | .r8 off _ => some (.r8 off)
  | .poll f _ => some (.r32 f.offset)
  | .label _ => none
  | .beq f _ _ => some (.r32 f.offset)
  | .bne f _ _ => some (.r32 f.offset)
  | .bus a => some a

/-- What the host does with the answer to a step's access: it goes on, stays (POLL) or branches, on the value read
(R117; 44_system.md R271). -/
def HostAgent.after (h : HostAgent) (st : HostStep) (answer : Option Word) : HostAgent :=
  match answer with
  | none => h.advance
  | some v =>
    match st with
    | .r32 _ want => h.expect want v
    | .r8 _ want => h.expect (want.setWidth 32) v
    | .poll f want => if f.of v = want then (h.saw v).advance else h.saw v
    | .beq f want l => if f.of v = want then (h.saw v).jump l else (h.saw v).advance
    | .bne f want l => if f.of v = want then (h.saw v).advance else (h.saw v).jump l
    | .w32 _ _ | .w8 _ _ | .label _ | .bus _ => (h.saw v).advance

/-- One host step brings the completion step of a busy block nearer (44_system.md R269; log 4). -/
def State.tick (s : State) : State := { s with wait := s.wait - 1 }

/-- Set the host's state. -/
def State.setHost (s : State) (h : HostAgent) : State := { s with host := h }

/-- The host performs one step of its program. -/
def State.runHost (s : State) (st : HostStep) : Host.Outcome State Fault Refusal :=
  match st.access with
  | none => .next (s.tick.setHost s.host.advance)
  | some a =>
    match s.tick.access a with
    | .error e => .fault e
    | .ok r => .next (r.1.setHost (s.host.after st r.2))

/-- The host's turn: its next step, or nothing when its program is at its end (log 7). -/
def State.hostTurn (s : State) : Host.Outcome State Fault Refusal :=
  match s.host.current with
  | none => .next s
  | some st => s.runHost st

/-- The completion step (44_system.md R261): the command in CMD.OP, or BAD_OPCODE for a reserved one (30_encoding.md
R115). `run` is the dispatch of the commands. -/
def State.complete (run : Instr → State → Host.Outcome State Fault Refusal) (s : State) :
    Host.Outcome State Fault Refusal :=
  match decode (cmdWord s.op) with
  | .ok i => run i s
  | .error (.reservedOpcode op) => .next (s.badOpcode op)

/-- Whether the completion step is what happens next: a command is in flight and either its wait is over or the host
has no step left (44_system.md R261, R269; log 4). -/
def State.completesNow (s : State) : Bool := s.status.busy && (s.host.finished || s.wait == 0)

/-- Sample the reset input for one step (70_reset_and_hazards.md R340; log 13). -/
def State.resetAsserted (s : State) : Bool := s.resetIn.headD false

/-- The reset input's next level has been used. -/
def State.sampled (s : State) : State := { s with resetIn := s.resetIn.tail }

/-- Bring a command into flight at once, as the two host writes `W32 CMD, w` and `W32 CTRL, 0x1` do (44_system.md R260),
with its completion step as the very next event: no wait, and the reset input not asserted at the next step (log 7). -/
def State.inFlight (s : State) (w : Word) : State :=
  { s with op := opField w
           status := s.status.started
           wait := 0
           resetIn := match s.resetIn with
             | [] => []
             | _ :: rest => false :: rest }

end Sys2Proof.Machine
end

