-- ==== Sys2Proof/Machine/Step.lean ====
section
/-! DEFINITION. One step of the machine: one event of the total order of 20_memory.md R96. A hard reset overrides
everything (60_exceptions.md R320); otherwise it is the block's completion step, when that is what comes next, or the
host's next step. -/

namespace Sys2Proof.Machine

/-- One event. -/
def step (s : State) : Host.Outcome State Fault Refusal :=
  if s.resetAsserted then .next s.sampled.hardReset
  else if s.completesNow then s.sampled.complete exec
  else s.sampled.hostTurn

/-- The state in which the very next step runs the command whose word has the bits `w` (log 7): the command is put in
CMD and started, with no wait. -/
def State.withFetchWord (s : State) (nbits w : Nat) : State := s.inFlight (tableWord nbits w)

end Sys2Proof.Machine
end

