-- ==== Sys2Proof/Machine/RefDecoders.lean ====
section
/-! DEFINITION. The reference decoders, which fix what the compressed formats mean (45_reference_decoders.md R280 to
R288; 00_scope.md R6). They are functions, not commands: no step of the machine calls them. -/

namespace Sys2Proof.Machine

/-- Why a decoder fails. The kind alone is normative; the reason is the first failing check (R280). -/
inductive DecodeError where
  | oddLength
  | zeroCount
  | truncatedHeader
  | badSymbolCount
  | truncatedTable
  | unsortedTable
  | zeroFreq
  | countMismatch
  | bodyLength
  | nonTerminating
  | bodyNotRecords
  | truncatedBody
  | badSentinel
  | badDistance
  | overrun
  | trailingData
  deriving DecidableEq, Repr

/-- Whether a decoder failed: what conformance is judged on (R280). -/
def isDecodeError (r : Except DecodeError (List Byte)) : Bool :=
  match r with
  | .ok _ => false
  | .error _ => true

/-- The number a big-endian byte list stands for. -/
def beValue (bs : List Byte) : Nat := bs.foldl (fun v b => 256 * v + b.toNat) 0

/-! ## RLE -/

/-- The pair loop of R281. A last lone byte cannot occur, because the length was checked before. -/
def rleDecPairs : List Byte → Except DecodeError (List Byte)
  | [] => .ok []
  | [_] => .error .oddLength
  | r :: v :: rest =>
    if r = 0#8 then .error .zeroCount
    else
      match rleDecPairs rest with
      | .ok out => .ok (List.replicate r.toNat v ++ out)
      | .error e => .error e

/-- `RLE_DEC(b)` (R281). -/
def rleDec (b : List Byte) : Except DecodeError (List Byte) :=
  if b.length % 2 ≠ 0 then .error .oddLength else rleDecPairs b

/-! ## Huffman -/

/-- The table loop of R283: `k` entries of 5 bytes, strictly ascending symbols, no zero frequency. -/
def hufDecTable : Nat → Option Byte → List Byte → Except DecodeError (List (Byte × Nat))
  | 0, _, _ => .ok []
  | k + 1, prev, s :: b3 :: b2 :: b1 :: b0 :: rest =>
    if (match prev with
        | none => false
        | some q => decide (s.toNat ≤ q.toNat)) then .error .unsortedTable
    else if beValue [b3, b2, b1, b0] = 0 then .error .zeroFreq
    else
      match hufDecTable k (some s) rest with
      | .ok es => .ok ((s, beValue [b3, b2, b1, b0]) :: es)
      | .error e => .error e
  | _ + 1, _, _ => .error .truncatedTable

/-- The FrequencyTable of the parsed entries (R283). -/
def tableFreq (es : List (Byte × Nat)) (s : Byte) : Nat := (es.lookup s).getD 0

/-- `B`, the bit count of the body (R201, R284). -/
def bodyBits (F : Byte → Nat) : Nat := ((symbols F).map (fun s => F s * (codeTable F s).length)).sum

/-- The stream bits of a byte list, MSB-first (20_memory.md R81). -/
def streamBits (body : List Byte) : List Bool :=
  (List.range (8 * body.length)).map (unpackBit (fun i => body.getD i 0#8))

/-- One symbol of the body walk (R285): the leaf reached and the bits left, or none when the bits run out. -/
def walkSymbol : HufTree → List Bool → Option (Byte × List Bool)
  | .leaf s, bits => some (s, bits)
  | .node _ _, [] => none
  | .node l _, false :: bits => walkSymbol l bits
  | .node _ r, true :: bits => walkSymbol r bits

/-- The body walk of R285: `n` symbols. -/
def walkSymbols (t : HufTree) : Nat → List Bool → Except DecodeError (List Byte)
  | 0, _ => .ok []
  | n + 1, bits =>
    match walkSymbol t bits with
    | none => .error .nonTerminating
    | some (s, rest) =>
      match walkSymbols t n rest with
      | .ok out => .ok (s :: out)
      | .error e => .error e

/-- The decoder after the table (R284, R285). -/
def hufDecBody (n : Nat) (F : Byte → Nat) (body : List Byte) : Except DecodeError (List Byte) :=
  if body.length ≠ (bodyBits F + 7) / 8 then .error .bodyLength
  else
    match symbols F with
    | [] => .ok []
    | [s0] => .ok (List.replicate n s0)
    | _ :: _ :: _ =>
      match buildTree F with
      | none => .error .nonTerminating
      | some t => walkSymbols t n (streamBits body)

/-- `HUF_DEC(b)` (R282 to R285). -/
def hufDec (b : List Byte) : Except DecodeError (List Byte) :=
  let n := beValue (b.take 4)
  let k := beValue ((b.drop 4).take 2)
  if b.length < 6 then .error .truncatedHeader
  else if k > 256 then .error .badSymbolCount
  else if b.length < 6 + 5 * k then .error .truncatedTable
  else
    match hufDecTable k none (b.drop 6) with
    | .error e => .error e
    | .ok es =>
      if (es.map (fun e => e.2)).sum ≠ n then .error .countMismatch
      else hufDecBody n (tableFreq es) (b.drop (6 + 5 * k))

/-! ## LZ77 -/

/-- The byte-by-byte forward copy of R287: `l` bytes from `d` behind the end of the output. -/
def copyBack (d : Nat) : Nat → List Byte → List Byte
  | 0, out => out
  | l + 1, out => copyBack d l (out ++ [out.getD (out.length - d) 0#8])

/-- The token loop of R287 with the end check of R288: `n` is the declared length, `out` what is written so far. -/
def lzDecTokens (n : Nat) : List Byte → List Byte → Except DecodeError (List Byte)
  | out, d1 :: d0 :: l :: c :: rest =>
    if out.length < n then
      if beValue [d1, d0] = 0 ∧ l = 0#8 then
        lzDecTokens n (out ++ [c]) rest
      else if beValue [d1, d0] = 0 ∨ l = 0#8 then .error .badSentinel
      else if beValue [d1, d0] > out.length then .error .badDistance
      else if (copyBack (beValue [d1, d0]) l.toNat out ++ [c]).length > n then .error .overrun
      else lzDecTokens n (copyBack (beValue [d1, d0]) l.toNat out ++ [c]) rest
    else .error .trailingData
  | out, body =>
    if out.length < n then .error .truncatedBody
    else if body.isEmpty then .ok out
    else .error .trailingData

/-- `LZ_DEC(b)` (R286 to R288). -/
def lzDec (b : List Byte) : Except DecodeError (List Byte) :=
  if b.length < 4 then .error .truncatedHeader
  else if (b.drop 4).length % 4 ≠ 0 then .error .bodyNotRecords
  else lzDecTokens (beValue (b.take 4)) [] (b.drop 4)

/-! ## Round trip -/

/-- The three laws of R289 for one input, on a block with parameters `p`: each decoder gives the input back from what
its encoder made of it. R289 asks for them for every input shorter than 2^32 bytes and every legal `p`. -/
abbrev roundTripLaws (p : Config.Params) (inp : List Byte) : Prop :=
  rleDec (rleEncode inp) = .ok inp ∧
  hufDec (huffEncode inp) = .ok inp ∧
  lzDec (lzEncode p.lzWindow p.lzMinMatch inp) = .ok inp

end Sys2Proof.Machine
end

