-- ==== Sys2Proof/WellFormed.lean ====
section
/-! DEFINITION. Well-formedness of what is given to the machine: commands, parameters, and host programs. -/

namespace Sys2Proof

/-- Every command is well formed: none has an operand field (30_encoding.md R111). What is checked is that its word has
an opcode of the map and nothing in the reserved bits. -/
abbrev Instr.wf (i : Instr) : Prop := (encode i).toNat ≤ 0xA

namespace Machine

/-- A field lies within its register, and the offsets of W8 and R8 lie in a buffer window ("buffer windows only",
30_encoding.md R117). That a branch must go to a label of its program is the model's (DESIGN CHOICE, log 14). -/
def HostStep.wf (prog : List HostStep) : HostStep → Bool
  | .beq f _ l | .bne f _ l => decide (f.lo + f.len ≤ 32) && decide (1 ≤ f.len) && prog.contains (.label l)
  | .poll f _ => decide (f.lo + f.len ≤ 32) && decide (1 ≤ f.len)
  | .w8 off _ => windowOf off == .inWin || windowOf off == .outWin
  | .r8 off _ => windowOf off == .inWin || windowOf off == .outWin
  | .w32 _ _ | .r32 _ _ | .label _ | .bus _ => true

/-- The labels a program defines, in order. -/
def labelsOf : List HostStep → List Nat
  | [] => []
  | .label l :: rest => l :: labelsOf rest
  | _ :: rest => labelsOf rest

/-- A host program whose steps are well formed (30_encoding.md R117) and whose labels are distinct. R117 does not speak
of a program that defines a label twice; refusing it here is the model's (DESIGN CHOICE, log 14), and the machine runs
it all the same. A label that no step follows is accepted, on which R117 is silent too (DESIGN CHOICE, log 14). -/
def programWf (prog : List HostStep) : Bool := prog.all (HostStep.wf prog) && decide (labelsOf prog).Nodup

end Machine

end Sys2Proof
end

