-- ==== Sys2Proof/Safety.lean ====
section
/-! DEFINITION. What counts as a safe run, the invariants that rule out states no run reaches, and the vocabulary the
claims are stated in. -/

namespace Sys2Proof.Machine

/-! ## Safe runs -/

/-- `k` events happen from `s` without a bus error or a refusal. -/
def SafeRun (k : Nat) (s : State) : Prop := ∃ t, core.run k s = .next t

/-! ## Invariants -/

/-- The low bits of ACC are 0: its top PEND bits are the pending bits (10_state.md R43 "Invariant"). -/
def Packer.clean (p : Packer) : Prop := ∀ j, j < 8 - p.pend.toNat → p.acc.getLsbD j = false

/-- The invariant of registers and buffers. -/
structure State.Inv (s : State) : Prop where
  /-- the parameters are legal (00_scope.md R8) -/
  legal : s.params.legal
  /-- IN_BUF is in canonical form, within its capacity, and only a hard reset made its bytes unspecified (R56) -/
  inWf : s.inBuf.wf
  inCells : ∀ c ∈ s.inBuf.cells, c.1 < s.params.inCap
  inFills : s.inBuf.fills = []
  /-- OUT_BUF is in canonical form and within its capacity (R57) -/
  outWf : s.outBuf.wf
  outCells : ∀ c ∈ s.outBuf.cells, c.1 < s.params.outCap
  outFills : ∀ f ∈ s.outBuf.fills, f.bound ≤ s.params.outCap
  /-- DST_LEN is in 0 to OUT_CAP (R39) -/
  dstLen : s.packer.dstLen.toNat ≤ s.params.outCap
  /-- the bits of ACC below the pending ones are 0 (R43) -/
  accClean : s.packer.clean
  /-- BU_POS is in 0 to 8·IN_CAP (R46) -/
  buPos : s.buPos.toNat ≤ 8 * s.params.inCap
  /-- while a command is in flight DONE and ERRCODE are clear (R60, 44_system.md R260) -/
  busyClean : s.status.busy = true → s.status.done = false ∧ s.status.errcode = .noError
  /-- at most one token per input byte (R50, 43_lz77.md R236) -/
  ntok : s.lzNtok.toNat ≤ s.params.inCap
  /-- MATCH is a literal or a back-reference within the limits (R47, 43_lz77.md R234) -/
  matchForm : (s.matchReg.dist = 0#16 ∧ s.matchReg.len = 0#8) ∨
    (1 ≤ s.matchReg.dist.toNat ∧ s.matchReg.dist.toNat ≤ s.params.lzWindow ∧
      s.params.lzMinMatch ≤ s.matchReg.len.toNat)

/-- The invariant of the Huffman tables (10_state.md R49, R53 to R55). -/
structure State.TablesInv (s : State) : Prop where
  /-- HUF_NSYM counts the byte values with a non-zero frequency -/
  nsym : s.hufNsym.toNat = (allBytes.filter (fun b => s.freqAt b != 0#32)).length
  /-- a byte value has a code exactly when it occurred -/
  coded : ∀ b : Byte, s.codeLenAt b = 0#8 ↔ s.freqAt b = 0#32
  /-- the bits of a code entry at and above its length are 0 -/
  high : ∀ b : Byte, (s.codeAt b).toNat < 2 ^ (s.codeLenAt b).toNat

/-! ## Vocabulary of the claims -/

/-- The pending bits of the packer in stream order (10_state.md R43). -/
def Packer.pendingBits (p : Packer) : List Bool := (List.range p.pend.toNat).map (fun i => p.acc.getLsbD (7 - i))

/-- The packed stream so far: `OUT[0..DST_LEN)` followed by the top PEND bits of ACC (40_bitpacker.md R140). -/
def State.packedStream (s : State) : List Bool :=
  streamBits (s.outBuf.bytes s.packer.dstLen.toNat) ++ s.packer.pendingBits

/-- A buffer after `OUT[0..len(o)) <- o`: the bytes of `o` from 0 on, the others as in `m` (40_bitpacker.md R148). -/
def Memory.holds (m' m : Memory) (o : List Byte) : Prop :=
  ∀ a, m'.read a = if h : a < o.length then o[a] else m.read a

/-- Two buffers agree from an address on. -/
def Memory.sameFrom (m' m : Memory) (n : Nat) : Prop := ∀ a, n ≤ a → m'.read a = m.read a

/-- The commands that read IN_BUF (60_exceptions.md R312, BAD_LEN). -/
def readsInput : Instr → Bool
  | .buGet | .rleRun | .rleEnc | .hufEnc | .lzFind | .lzEnc => true
  | .nop | .bpPut | .bpFlush | .bpClear | .buClear => false

/-- The encode commands (40_bitpacker.md R148). -/
def isEncoder : Instr → Bool
  | .rleEnc | .hufEnc | .lzEnc => true
  | .nop | .bpPut | .bpFlush | .bpClear | .buGet | .buClear | .rleRun | .lzFind => false

/-- The output an encode command computes from its input (41_rle.md R174, 42_huffman.md R202, 43_lz77.md R239). -/
def encoderOutput (p : Config.Params) (inp : List Byte) : Instr → List Byte
  | .rleEnc => rleEncode inp
  | .hufEnc => huffEncode inp
  | .lzEnc => lzEncode p.lzWindow p.lzMinMatch inp
  | .nop | .bpPut | .bpFlush | .bpClear | .buGet | .buClear | .rleRun | .lzFind => []

/-- The (count, value) records of an RLE stream (41_rle.md R172). -/
def rleRecordsOf : List Byte → List (Byte × Byte)
  | c :: v :: rest => (c, v) :: rleRecordsOf rest
  | _ => []

/-- A host that puts a list of (value, width) pairs one after the other, each put succeeding, from a state that is
given (40_bitpacker.md R149). -/
def putAll : List (Word × BitVec 6) → State → Option State
  | [], s => some s
  | (v, n) :: rest, s =>
    match exec .bpPut { s with bpValue := v, bpNbits := n } with
    | .next t => if t.status.errcode = .noError then putAll rest t else none
    | .fault _ => none
    | .refused _ => none

/-- A host that gets values of given widths one after the other, with the values read; none if a get fails (R149). -/
def getAll : List (BitVec 6) → State → Option (List Word × State)
  | [], s => some ([], s)
  | n :: rest, s =>
    match exec .buGet { s with buNbits := n } with
    | .next t =>
      if t.status.errcode = .noError then (getAll rest t).map (fun r => (t.buValue :: r.1, r.2)) else none
    | .fault _ => none
    | .refused _ => none

end Sys2Proof.Machine
end

