-- ==== Sys2Proof/Certificates/Slice0/Obligations.lean ====
section
/-! DEFINITION. The statements for the provers, from the numbered rules of spec/. -/

open Sys2Proof Sys2Proof.Machine

/-! ## Encoding -/

/-- 30_encoding.md R112: the opcode map, each row as the word the spec gives it, and the first and last reserved word. -/
def Obligations.OpcodeMapWordsDecode : Prop :=
  decode 0x00000000#32 = .ok .nop ∧ decode 0x00000001#32 = .ok .bpPut ∧ decode 0x00000002#32 = .ok .bpFlush ∧
  decode 0x00000003#32 = .ok .bpClear ∧ decode 0x00000004#32 = .ok .buGet ∧ decode 0x00000005#32 = .ok .buClear ∧
  decode 0x00000006#32 = .ok .rleRun ∧ decode 0x00000007#32 = .ok .rleEnc ∧ decode 0x00000008#32 = .ok .hufEnc ∧
  decode 0x00000009#32 = .ok .lzFind ∧ decode 0x0000000A#32 = .ok .lzEnc ∧
  decode 0x0000000B#32 = .error (.reservedOpcode 0xB#4) ∧ decode 0x0000000F#32 = .error (.reservedOpcode 0xF#4)

/-- 30_encoding.md R113: the command is selected by `CMD[3:0]` alone, bits 31 to 4 never matter, and decoding is total:
an OP of 0 to 10 gives the one command with that opcode, any other is reserved. -/
def Obligations.DecodeReadsOpcodeFieldOnly : Prop :=
  ∀ w : Word,
    (∀ w' : Word, w'.extractLsb' 0 4 = w.extractLsb' 0 4 → decode w' = decode w) ∧
    ((w.extractLsb' 0 4).toNat ≤ 10 → ∃ i, decode w = .ok i ∧ opcodeOf i = w.extractLsb' 0 4) ∧
    (10 < (w.extractLsb' 0 4).toNat → decode w = .error (.reservedOpcode (w.extractLsb' 0 4)))

/-- Decode and encode agree (30_encoding.md R110 to R113): a word decodes to `i` exactly when its opcode field is that
of `i`'s own word, whatever its reserved bits; `i`'s word has its reserved bits 0 and reads back as `i` through the
table's numbering. -/
def Obligations.DecodeEncodeAgree : Prop :=
  ∀ i : Instr,
    (∀ w : Word, decode w = .ok i ↔ w.extractLsb' 0 4 = (encode i).extractLsb' 0 4) ∧
    (encode i).extractLsb' 4 28 = 0#28 ∧
    ∀ nbits, 4 ≤ nbits → decodeTableWord nbits (encode i).toNat = some i

/-- A busy step runs the command in CMD.OP (44_system.md R261): when the reset input is not asserted, a command is in
flight and the completion step is next, the step is `exec` of the command that CMD.OP decodes to, or, for a reserved
opcode, the BAD_OPCODE completion of 30_encoding.md R115. When the completion step is next (the wait is over, or the
host has no step left) is the model's choice (log 4), and so is that a step uses up one level of the reset input
(log 13). -/
def Obligations.StepRunsDecodedCommand : Prop :=
  ∀ s : State, s.resetIn.head? ≠ some true → s.status.busy = true →
    (s.wait = 0 ∨ s.host.prog.length ≤ s.host.pc) →
    (∀ i : Instr, decode (s.op.setWidth 32) = .ok i → step s = exec i { s with resetIn := s.resetIn.tail }) ∧
    (10 < s.op.toNat → step s = .next { s with
      resetIn := s.resetIn.tail
      status := { busy := false, done := true, wbusy := s.status.wbusy, errcode := .badOpcode }
      errinfo := s.op.setWidth 32 })

/-- The state that `withFetchWord` makes runs that command as the very next event, whatever the state was. The
scheduling of that event is the model's choice (log 7). -/
def Obligations.FetchedWordRunsNext : Prop :=
  ∀ (s : State) (nbits w : Nat) (i : Instr), decodeTableWord nbits w = some i →
    ∃ u : State, step (s.withFetchWord nbits w) = exec i u ∧ u.op = opcodeOf i ∧
      u = { s with op := u.op, status := u.status, wait := u.wait, resetIn := u.resetIn } ∧
      u.status = { busy := true, done := false, wbusy := s.status.wbusy, errcode := .noError }

/-- 30_encoding.md R115: completing a reserved opcode reports BAD_OPCODE with ERRINFO = zext_32(OP) and changes no
other state; and no encoding but NOP's executes as a no-op: every other command changes something somewhere. That the
completion step of a reserved opcode is what a step does is in StepRunsDecodedCommand. -/
def Obligations.ReservedOpcodeReportsBadOpcode : Prop :=
  (∀ s : State, 10 < s.op.toNat →
    s.complete exec = .next { s with
      status := { busy := false, done := true, wbusy := s.status.wbusy, errcode := .badOpcode }
      errinfo := s.op.setWidth 32 }) ∧
  (∀ i : Instr, i ≠ .nop → ∃ s t : State, exec i s = .next t ∧
    t ≠ { s with status := t.status, errinfo := t.errinfo })

/-! ## Command lifecycle -/

/-- 44_system.md R260: a host write of `v` to CTRL. SRESET wins over everything; while BUSY the write is dropped and
sets WBUSY; otherwise IRQ_EN takes bit 2 and START sets BUSY and clears DONE and ERRCODE, and nothing else, ERRINFO
included. (`wait` and `draws` are the model's own, log 4 and 5.) -/
def Obligations.CtrlWriteFollowsRule : Prop :=
  ∀ (s : State) (v : Word), ∃ t, s.access (.w32 0x004#22 v) = .ok (t, none) ∧
    (v.getLsbD 1 = true → t = s.softReset) ∧
    (v.getLsbD 1 = false → s.status.busy = true → t = { s with status := { s.status with wbusy := true } }) ∧
    (v.getLsbD 1 = false → s.status.busy = false → v.getLsbD 0 = false → t = { s with irqEn := v.getLsbD 2 }) ∧
    (v.getLsbD 1 = false → s.status.busy = false → v.getLsbD 0 = true →
      t = { s with
        irqEn := v.getLsbD 2
        status := { busy := true, done := false, wbusy := s.status.wbusy, errcode := .noError }
        wait := t.wait
        draws := t.draws })

/-- 70_reset_and_hazards.md R342: the soft reset, whatever the CTRL write's other bits and whether or not a command is
busy: every register and table takes its reset value, IN_BUF is unchanged, and OUT_BUF is unchanged when idle and at
and above `cap = min(DST_CAP, OUT_CAP)` (before the reset) when busy. -/
def Obligations.SoftResetResetsRegisters : Prop :=
  ∀ (s : State) (v : Word), v.getLsbD 1 = true → ∃ t, s.access (.w32 0x004#22 v) = .ok (t, none) ∧
    t = { s with
      irqEn := false, op := 0#4, errinfo := 0#32, srcLen := 0#32, dstCap := BitVec.ofNat 32 s.params.outCap
      status := { busy := false, done := false, wbusy := false, errcode := .noError }
      packer := { dstLen := 0#32, pend := 0#3, pad := 0#3, acc := 0#8 }
      pos := 0#32, bpValue := 0#32, bpNbits := 0#6, buNbits := 0#6, buValue := 0#32, buPos := 0#32
      matchReg := { dist := 0#16, len := 0#8, lit := 0#8 }, runReg := { count := 0#8, value := 0#8 }
      hufNsym := 0#9, lzNtok := 0#32
      freq := t.freq, codeLen := t.codeLen, code := t.code
      outBuf := t.outBuf, wait := t.wait, draws := t.draws } ∧
    (∀ b, t.freqAt b = 0#32 ∧ t.codeLenAt b = 0#8 ∧ t.codeAt b = 0#256) ∧
    (s.status.busy = false → t.outBuf = s.outBuf) ∧
    (∀ a, min s.dstCap.toNat s.params.outCap ≤ a → t.outBuf.read a = s.outBuf.read a) ∧
    t.irq = false

/-- 70_reset_and_hazards.md R340, R341: the hard reset overrides everything, a command in flight included: a step with
the input asserted leaves every register and table at its reset value, and `irq` low. (The buffers are any value; that
the host's own state and the input's later levels are kept is the model's choice, log 13.) -/
def Obligations.HardResetResetsRegisters : Prop :=
  ∀ (s : State) (rest : List Bool), s.resetIn = true :: rest → ∃ t, step s = .next t ∧
    t = { s with
      irqEn := false, op := 0#4, errinfo := 0#32, srcLen := 0#32, dstCap := BitVec.ofNat 32 s.params.outCap
      status := { busy := false, done := false, wbusy := false, errcode := .noError }
      packer := { dstLen := 0#32, pend := 0#3, pad := 0#3, acc := 0#8 }
      pos := 0#32, bpValue := 0#32, bpNbits := 0#6, buNbits := 0#6, buValue := 0#32, buPos := 0#32
      matchReg := { dist := 0#16, len := 0#8, lit := 0#8 }, runReg := { count := 0#8, value := 0#8 }
      hufNsym := 0#9, lzNtok := 0#32
      freq := t.freq, codeLen := t.codeLen, code := t.code, resetIn := rest
      inBuf := t.inBuf, outBuf := t.outBuf, wait := t.wait, draws := t.draws } ∧
    (∀ b, t.freqAt b = 0#32 ∧ t.codeLenAt b = 0#8 ∧ t.codeAt b = 0#256) ∧
    t.irq = false

/-- 70_reset_and_hazards.md R341 as the host sees it: what 32-bit reads of the registers return right after reset, for
every legal choice of the parameters (00_scope.md R8). -/
def Obligations.ResetReadsResetValues : Prop :=
  ∀ p : Config.Params, p.legal →
    ∀ (off : Offset) (v : Word),
      (off, v) ∈ [(0x000#22, 0x48453031#32), (0x004#22, 0#32), (0x008#22, 0#32), (0x00C#22, 0#32), (0x010#22, 0#32),
        (0x014#22, 0#32), (0x018#22, BitVec.ofNat 32 p.outCap), (0x01C#22, 0#32), (0x020#22, 0#32), (0x024#22, 0#32),
        (0x028#22, 0#32), (0x02C#22, 0#32), (0x030#22, 0#32), (0x034#22, 0#32), (0x038#22, 0#32), (0x03C#22, 0#32),
        (0x040#22, 0#32), (0x044#22, 0#32), (0x048#22, 0#32), (0x04C#22, BitVec.ofNat 32 p.inCap),
        (0x050#22, BitVec.ofNat 32 p.outCap),
        (0x054#22, BitVec.ofNat 32 (p.lzWindow + p.lzMinMatch * 2 ^ 16 + 255 * 2 ^ 24))] →
      (State.resetWith p).access (.r32 off) = .ok (State.resetWith p, some v)

/-- 44_system.md R265: while BUSY, every write that does not err changes nothing but WBUSY, wherever it goes, except a
CTRL write with bit 1 set, which performs the soft reset. -/
def Obligations.BusyWritesAreDropped : Prop :=
  ∀ (s : State) (a : Access), s.status.busy = true → a.dir = .write → a.ok s.params = true →
    (a.offset = 0x004#22 → a.data.getLsbD 1 = true → s.access a = .ok (s.softReset, none)) ∧
    (¬ (a.offset = 0x004#22 ∧ a.data.getLsbD 1 = true) →
      s.access a = .ok ({ s with status := { s.status with wbusy := true } }, none))

/-- 44_system.md R266: while BUSY a read of ID, CTRL, CMD, STATUS or CFG_* returns its current value; any other read of
a register, table entry or buffer byte has no side effect on the block and tells nothing about it: two busy states with
the same draw number read the same value, whatever they hold. -/
def Obligations.BusyReadsTellNothing : Prop :=
  (∀ s : State, s.status.busy = true → ∀ (off : Offset) (v : Word),
    (off, v) ∈ [(0x000#22, 0x48453031#32), (0x004#22, if s.irqEn then 4#32 else 0#32), (0x008#22, s.op.setWidth 32),
      (0x00C#22, s.status.word), (0x04C#22, BitVec.ofNat 32 s.params.inCap),
      (0x050#22, BitVec.ofNat 32 s.params.outCap),
      (0x054#22, BitVec.ofNat 8 255 ++ BitVec.ofNat 8 s.params.lzMinMatch ++ BitVec.ofNat 16 s.params.lzWindow)] →
    s.access (.r32 off) = .ok (s, some v)) ∧
  (∀ (s u : State) (a : Access), s.status.busy = true → u.status.busy = true → s.draws = u.draws →
    a.dir = .read → a.ok s.params = true → a.ok u.params = true → targetOf a.offset ≠ .unassigned →
    a.offset ∉ [0x000#22, 0x004#22, 0x008#22, 0x00C#22, 0x04C#22, 0x050#22, 0x054#22] →
    ∃ v, s.access a = .ok ({ s with draws := s.draws + 1 }, some v) ∧
      u.access a = .ok ({ u with draws := u.draws + 1 }, some v))

/-! ## Bus accesses -/

/-- 20_memory.md R85, R87, R88, R90: which accesses get a bus error, in numbers, and that one changes no state and does
not let the host go on, the block idle or busy. That a word reaching past a buffer's end and a byte access in the
unassigned top range err is the model's reading (log 9, log 10); that a busy block's completion is not yet due is
`wait ≠ 0`, the model's own (log 4). -/
def Obligations.BusErrorsExactly : Prop :=
  (∀ (s : State) (a : Access),
    ((a.width = 32 ∧ a.offset.toNat % 4 = 0 ∨ a.width = 8 ∧ 0x100000 ≤ a.offset.toNat ∧ a.offset.toNat < 0x300000) ∧
      (0x100000 ≤ a.offset.toNat → a.offset.toNat < 0x200000 →
        a.offset.toNat + a.width / 8 ≤ 0x100000 + s.params.inCap) ∧
      (0x200000 ≤ a.offset.toNat → a.offset.toNat < 0x300000 →
        a.dir = .read ∧ a.offset.toNat + a.width / 8 ≤ 0x200000 + s.params.outCap) ↔
      ∃ r, s.access a = .ok r) ∧
    ((¬ ∃ r, s.access a = .ok r) → s.access a = .error (.busError a.offset a.width a.dir))) ∧
  (∀ (s : State) (st : HostStep) (a : Access), s.resetIn.head? ≠ some true → (s.status.busy = true → s.wait ≠ 0) →
    s.host.current = some st → st.access = some a → (¬ ∃ r, s.access a = .ok r) →
    step s = .fault (.busError a.offset a.width a.dir))

/-- 20_memory.md R83, R84, R87, R88: an idle byte read at `IN+i` or `OUT+i` returns that byte of the buffer, and an
idle 32-bit read of a word returns its four bytes on little-endian lanes, each lane what the byte read there returns;
the block does not change. -/
def Obligations.WordReadSeesByteLanes : Prop :=
  ∀ s : State, s.params.legal → s.status.busy = false →
    (∀ i, i < s.params.inCap → s.access (.r8 (inOffset i)) = .ok (s, some ((s.inBuf.read i).setWidth 32))) ∧
    (∀ i, i < s.params.outCap → s.access (.r8 (outOffset i)) = .ok (s, some ((s.outBuf.read i).setWidth 32))) ∧
    (∀ i, i % 4 = 0 → i + 4 ≤ s.params.inCap →
      ∃ v : Word, s.access (.r32 (inOffset i)) = .ok (s, some v) ∧
        v = (s.inBuf.read i).setWidth 32 ||| (s.inBuf.read (i + 1)).setWidth 32 <<< 8 |||
          (s.inBuf.read (i + 2)).setWidth 32 <<< 16 ||| (s.inBuf.read (i + 3)).setWidth 32 <<< 24 ∧
        ∀ k, k < 4 → s.access (.r8 (inOffset (i + k))) = .ok (s, some ((v.extractLsb' (8 * k) 8).setWidth 32))) ∧
    (∀ i, i % 4 = 0 → i + 4 ≤ s.params.outCap →
      ∃ v : Word, s.access (.r32 (outOffset i)) = .ok (s, some v) ∧
        v = (s.outBuf.read i).setWidth 32 ||| (s.outBuf.read (i + 1)).setWidth 32 <<< 8 |||
          (s.outBuf.read (i + 2)).setWidth 32 <<< 16 ||| (s.outBuf.read (i + 3)).setWidth 32 <<< 24 ∧
        ∀ k, k < 4 → s.access (.r8 (outOffset (i + k))) = .ok (s, some ((v.extractLsb' (8 * k) 8).setWidth 32)))

/-- 20_memory.md R83, R87: an idle host write to IN_BUF, a byte or the four lanes of a word, is what later reads of
those bytes see; every other byte and all other state are unchanged. -/
def Obligations.HostWritesToInBuf : Prop :=
  (∀ (s : State) (i : Nat) (b : Byte), s.params.legal → s.status.busy = false → i < s.params.inCap →
    ∃ t, s.access (.w8 (inOffset i) b) = .ok (t, none) ∧ t = { s with inBuf := t.inBuf } ∧
      ∀ a, t.inBuf.read a = if a = i then b else s.inBuf.read a) ∧
  (∀ (s : State) (i : Nat) (v : Word), s.params.legal → s.status.busy = false → i % 4 = 0 →
    i + 4 ≤ s.params.inCap →
    ∃ t, s.access (.w32 (inOffset i) v) = .ok (t, none) ∧ t = { s with inBuf := t.inBuf } ∧
      ∀ a, t.inBuf.read a =
        if i ≤ a ∧ a < i + 4 then v.extractLsb' (8 * (a - i)) 8 else s.inBuf.read a)

/-- 10_state.md R31 to R52: an idle write to an operand register changes that register alone, and a read returns what
its RW bits took: all 32 bits, bits 5 to 0 of the NBITS registers, bits 3 to 0 of CMD. And what an idle read of each
register returns in any state, field by field: IRQ_EN in bit 2 of CTRL; PEND, PAD and ACC from bits 0, 4 and 8 of
BP_STATE; DIST, LEN and LIT from bits 0, 16 and 24 of MATCH; COUNT and VALUE from bits 0 and 8 of RUN; the window, the
minimum and the maximum match length from bits 0, 16 and 24 of CFG_LZ. STATUS alone is left to StatusBitsAndW1C. -/
def Obligations.OperandRegistersReadBack : Prop :=
  (∀ s : State, s.status.busy = false → ∀ (off : Offset) (v : Word),
    (off, v) ∈ [(0x000#22, 0x48453031#32), (0x004#22, if s.irqEn then 4#32 else 0#32), (0x008#22, s.op.setWidth 32),
      (0x010#22, s.errinfo), (0x014#22, s.srcLen), (0x018#22, s.dstCap), (0x01C#22, s.packer.dstLen),
      (0x020#22, s.pos), (0x024#22, s.bpValue), (0x028#22, s.bpNbits.setWidth 32),
      (0x02C#22, s.packer.pend.setWidth 32 ||| s.packer.pad.setWidth 32 <<< 4 ||| s.packer.acc.setWidth 32 <<< 8),
      (0x030#22, s.buNbits.setWidth 32), (0x034#22, s.buValue), (0x038#22, s.buPos),
      (0x03C#22,
        s.matchReg.dist.setWidth 32 ||| s.matchReg.len.setWidth 32 <<< 16 ||| s.matchReg.lit.setWidth 32 <<< 24),
      (0x040#22, s.runReg.count.setWidth 32 ||| s.runReg.value.setWidth 32 <<< 8),
      (0x044#22, s.hufNsym.setWidth 32), (0x048#22, s.lzNtok), (0x04C#22, BitVec.ofNat 32 s.params.inCap),
      (0x050#22, BitVec.ofNat 32 s.params.outCap),
      (0x054#22, BitVec.ofNat 8 255 ++ BitVec.ofNat 8 s.params.lzMinMatch ++ BitVec.ofNat 16 s.params.lzWindow)] →
    s.access (.r32 off) = .ok (s, some v)) ∧
  ∀ (s : State) (v : Word), s.status.busy = false →
    s.access (.w32 0x008#22 v) = .ok ({ s with op := v.extractLsb' 0 4 }, none) ∧
    s.access (.w32 0x014#22 v) = .ok ({ s with srcLen := v }, none) ∧
    s.access (.w32 0x018#22 v) = .ok ({ s with dstCap := v }, none) ∧
    s.access (.w32 0x020#22 v) = .ok ({ s with pos := v }, none) ∧
    s.access (.w32 0x024#22 v) = .ok ({ s with bpValue := v }, none) ∧
    s.access (.w32 0x028#22 v) = .ok ({ s with bpNbits := v.extractLsb' 0 6 }, none) ∧
    s.access (.w32 0x030#22 v) = .ok ({ s with buNbits := v.extractLsb' 0 6 }, none) ∧
    ∀ (off : Offset) (mask : Word),
      (off, mask) ∈ [(0x008#22, 0xF#32), (0x014#22, 0xFFFFFFFF#32), (0x018#22, 0xFFFFFFFF#32),
        (0x020#22, 0xFFFFFFFF#32), (0x024#22, 0xFFFFFFFF#32), (0x028#22, 0x3F#32), (0x030#22, 0x3F#32)] →
      ∀ t, s.access (.w32 off v) = .ok (t, none) → t.access (.r32 off) = .ok (t, some (v &&& mask))

/-- 10_state.md R31, R32, R53 to R55; 20_memory.md R89: an idle 32-bit write to a read-only register, a table entry or
an unassigned offset below 0x10_0000 or from 0x30_0000 on changes nothing, and unassigned offsets read 0. -/
def Obligations.OtherOffsetsIgnoreWrites : Prop :=
  ∀ (s : State) (off : Offset) (v : Word), s.status.busy = false → off.toNat % 4 = 0 →
    (off.toNat < 0x100000 ∨ 0x300000 ≤ off.toNat) →
    off ∉ [0x004#22, 0x008#22, 0x00C#22, 0x014#22, 0x018#22, 0x020#22, 0x024#22, 0x028#22, 0x030#22] →
    s.access (.w32 off v) = .ok (s, none) ∧
    (0x058 ≤ off.toNat ∧ off.toNat < 0x400 ∨ 0xC00 ≤ off.toNat ∧ off.toNat < 0x1000 ∨ 0x3000 ≤ off.toNat →
      s.access (.r32 off) = .ok (s, some 0#32))

/-- 10_state.md R34, R31: the bits of STATUS as a read returns them, and an idle write to it: DONE and WBUSY are W1C,
no other bit of the block changes. -/
def Obligations.StatusBitsAndW1C : Prop :=
  (∀ s : State, ∃ w : Word, s.access (.r32 0x00C#22) = .ok (s, some w) ∧
    w.getLsbD 0 = s.status.busy ∧ w.getLsbD 1 = s.status.done ∧
    w.getLsbD 2 = decide (s.status.errcode ≠ .noError) ∧ w.getLsbD 3 = s.status.wbusy ∧
    w.extractLsb' 4 4 = (match s.status.errcode with
      | .noError => 0#4 | .badOpcode => 1#4 | .badLen => 2#4 | .badNbits => 3#4 | .badPos => 4#4
      | .outOverflow => 5#4 | .buExhausted => 6#4) ∧
    w.extractLsb' 8 24 = 0#24) ∧
  (∀ (s : State) (v : Word), s.status.busy = false →
    s.access (.w32 0x00C#22 v) = .ok ({ s with status := { s.status with
      done := if v.getLsbD 1 then false else s.status.done
      wbusy := if v.getLsbD 3 then false else s.status.wbusy } }, none))

/-- 10_state.md R53, R54, R55: the tables at their offsets, idle: FREQ and CODELEN one word each, CODE eight words each,
word `w` the bits `32w+31` to `32w` of the entry. -/
def Obligations.TableReadsAtTheirOffsets : Prop :=
  ∀ (s : State) (b : Byte), s.status.busy = false →
    s.access (.r32 (BitVec.ofNat 22 (0x400 + 4 * b.toNat))) = .ok (s, some (s.freqAt b)) ∧
    s.access (.r32 (BitVec.ofNat 22 (0x800 + 4 * b.toNat))) = .ok (s, some ((s.codeLenAt b).setWidth 32)) ∧
    ∀ w, w < 8 → s.access (.r32 (BitVec.ofNat 22 (0x1000 + 32 * b.toNat + 4 * w))) =
      .ok (s, some ((s.codeAt b).extractLsb' (32 * w) 32))

/-- 44_system.md R268: `irq = STATUS.DONE ∧ CTRL.IRQ_EN`. It is raised by a completion while IRQ_EN = 1 or by setting
IRQ_EN while DONE = 1, and lowered by a W1C write of DONE when not busy, by a START, by clearing IRQ_EN, and by reset. -/
def Obligations.IrqLevelFollowsDoneAndEnable : Prop :=
  (∀ s : State, s.irq = (s.status.done && s.irqEn)) ∧
  (∀ s t : State, s.complete exec = .next t → t.irq = s.irqEn) ∧
  (∀ (s t : State) (v : Word), s.access (.w32 0x004#22 v) = .ok (t, none) → s.status.busy = false →
    v.getLsbD 1 = false → t.irq = (!v.getLsbD 0 && s.status.done && v.getLsbD 2)) ∧
  (∀ (s t : State) (v : Word), s.access (.w32 0x00C#22 v) = .ok (t, none) → s.status.busy = false →
    v.getLsbD 1 = true → t.irq = false) ∧
  (∀ (s t : State) (v : Word), s.access (.w32 0x004#22 v) = .ok (t, none) → v.getLsbD 1 = true → t.irq = false) ∧
  (∀ s t : State, s.resetIn.head? = some true → step s = .next t → t.irq = false)

/-! ## Completions -/

/-- 44_system.md R263, all but which code and information word a command reports: every completion, successful or not
and of every opcode, ends with BUSY cleared, DONE set and WBUSY unchanged, in some code, of which ERR reads whether it
is non-zero, and with ERRINFO 0 when that code is NONE. Which code and which information word are the subject of
FirstApplicableErrorIsReported and of the statement about each command. -/
def Obligations.EveryCompletionUpdatesStatus : Prop :=
  ∀ s : State, ∃ (t : State) (code : ErrCode) (info : Word), s.complete exec = .next t ∧
    t.status = { busy := false, done := true, wbusy := s.status.wbusy, errcode := code } ∧
    t.status.err = decide (code ≠ .noError) ∧ t.errinfo = info ∧ (code = .noError → info = 0#32)

/-- 10_state.md R58, 44_system.md R272: no completion changes an operand register, CMD, CTRL, IN_BUF or a parameter,
nor the host, the reset input or the wait. -/
def Obligations.CompletionsKeepOperands : Prop :=
  ∀ s t : State, s.complete exec = .next t →
    t.params = s.params ∧ t.irqEn = s.irqEn ∧ t.op = s.op ∧ t.srcLen = s.srcLen ∧ t.dstCap = s.dstCap ∧
    t.pos = s.pos ∧ t.bpValue = s.bpValue ∧ t.bpNbits = s.bpNbits ∧ t.buNbits = s.buNbits ∧
    t.inBuf = s.inBuf ∧ t.host = s.host ∧ t.resetIn = s.resetIn ∧ t.wait = s.wait

/-- 30_encoding.md R111: the results each command may write. A result register, table or buffer changes only under a
command that lists it. -/
def Obligations.CommandsWriteOnlyTheirResults : Prop :=
  ∀ (i : Instr) (s t : State), exec i s = .next t →
    (i ∉ [.buGet, .buClear] → t.buValue = s.buValue ∧ t.buPos = s.buPos) ∧
    (i ≠ .rleRun → t.runReg = s.runReg) ∧
    (i ≠ .lzFind → t.matchReg = s.matchReg) ∧
    (i ≠ .lzEnc → t.lzNtok = s.lzNtok) ∧
    (i ≠ .hufEnc → t.freq = s.freq ∧ t.codeLen = s.codeLen ∧ t.code = s.code ∧ t.hufNsym = s.hufNsym) ∧
    (i ∉ [.bpPut, .bpFlush, .bpClear, .rleEnc, .hufEnc, .lzEnc] → t.packer = s.packer) ∧
    (i = .bpPut → t.packer.pad = s.packer.pad) ∧
    (i ∉ [.bpPut, .bpFlush, .rleEnc, .hufEnc, .lzEnc] → t.outBuf = s.outBuf)

/-- 60_exceptions.md R315: what an error leaves. Errors 1 to 4 and 6, and OUT_OVERFLOW of BP_PUT and BP_FLUSH, change
nothing but STATUS and ERRINFO. OUT_OVERFLOW of an encoder empties the packer, PAD included, and leaves `OUT[0..CAP)`
as any value and the rest of OUT_BUF as it was; only HUF_ENC leaves its tables written. -/
def Obligations.ErrorsLeaveState : Prop :=
  ∀ (i : Instr) (s t : State), exec i s = .next t →
    (t.status.errcode ≠ .noError → (t.status.errcode ≠ .outOverflow ∨ i = .bpPut ∨ i = .bpFlush) →
      t = { s with status := t.status, errinfo := t.errinfo }) ∧
    (t.status.errcode = .outOverflow → isEncoder i = true →
      t.packer = { dstLen := 0#32, pend := 0#3, pad := 0#3, acc := 0#8 } ∧
      t.outBuf.sameFrom s.outBuf (min s.dstCap.toNat s.params.outCap) ∧
      t = { s with status := t.status, errinfo := t.errinfo, packer := t.packer, outBuf := t.outBuf, draws := t.draws
                   freq := t.freq, codeLen := t.codeLen, code := t.code, hufNsym := t.hufNsym } ∧
      (i ≠ .hufEnc → t.freq = s.freq ∧ t.codeLen = s.codeLen ∧ t.code = s.code ∧ t.hufNsym = s.hufNsym))

/-- 60_exceptions.md R314, and R313 for the information words: one error is reported, the first that applies in the
order BAD_OPCODE, BAD_LEN, BAD_NBITS, BAD_POS, then OUT_OVERFLOW or BU_EXHAUSTED, which no command can raise together;
and the information word of each. When the errors of the last level apply is the subject of the statement about each
command. -/
def Obligations.FirstApplicableErrorIsReported : Prop :=
  (∀ s : State, 10 < s.op.toNat → ∃ t, s.complete exec = .next t ∧ t.status.errcode = .badOpcode ∧
    t.errinfo = s.op.setWidth 32) ∧
  (∀ (i : Instr) (s : State), ∃ t, exec i s = .next t ∧
    (readsInput i = true → s.params.inCap < s.srcLen.toNat → t.status.errcode = .badLen ∧ t.errinfo = s.srcLen) ∧
    ((readsInput i = true → s.srcLen.toNat ≤ s.params.inCap) →
      (i = .bpPut → s.bpNbits.toNat = 0 ∨ 32 < s.bpNbits.toNat →
        t.status.errcode = .badNbits ∧ t.errinfo = s.bpNbits.setWidth 32) ∧
      (i = .buGet → s.buNbits.toNat = 0 ∨ 32 < s.buNbits.toNat →
        t.status.errcode = .badNbits ∧ t.errinfo = s.buNbits.setWidth 32) ∧
      (i = .rleRun ∨ i = .lzFind → s.srcLen.toNat ≤ s.pos.toNat →
        t.status.errcode = .badPos ∧ t.errinfo = s.pos) ∧
      ((i = .bpPut → 1 ≤ s.bpNbits.toNat ∧ s.bpNbits.toNat ≤ 32) →
        (i = .buGet → 1 ≤ s.buNbits.toNat ∧ s.buNbits.toNat ≤ 32) →
        (i = .rleRun ∨ i = .lzFind → s.pos.toNat < s.srcLen.toNat) →
        (t.status.errcode = .noError ∧ t.errinfo = 0#32 ∨
          t.status.errcode = .outOverflow ∧
            t.errinfo = BitVec.ofNat 32 (min s.dstCap.toNat s.params.outCap) ∧
            (i = .bpPut ∨ i = .bpFlush ∨ isEncoder i = true) ∨
          t.status.errcode = .buExhausted ∧ t.errinfo = s.buPos ∧ i = .buGet))))

/-- 44_system.md R262: NOP does nothing but complete, from every state, reading no operand; its opcode is 0, the reset
value of CMD.OP. -/
def Obligations.NopOnlyCompletes : Prop :=
  decode 0x0#32 = .ok .nop ∧ (∀ p : Config.Params, (State.resetWith p).op = 0#4) ∧
  ∀ s : State, exec .nop s = .next { s with
    status := { busy := false, done := true, wbusy := s.status.wbusy, errcode := .noError }, errinfo := 0#32 }

/-! ## The bit packer and unpacker -/

/-- 40_bitpacker.md R142: BP_PUT with all its cases. A legal put that fits appends the low NBITS bits of BP_VALUE to
the packed stream, most significant first, keeps PAD, and writes OUT_BUF from DST_LEN up to the new DST_LEN only. The
premise on ACC is the invariant of 10_state.md R43. -/
def Obligations.BpPutAppendsBits : Prop :=
  decode 0x1#32 = .ok .bpPut ∧
  ∀ s : State,
    (s.bpNbits.toNat = 0 ∨ 32 < s.bpNbits.toNat →
      exec .bpPut s = .next (s.completed .badNbits (s.bpNbits.setWidth 32))) ∧
    (1 ≤ s.bpNbits.toNat → s.bpNbits.toNat ≤ 32 →
      min s.dstCap.toNat s.params.outCap < s.packer.dstLen.toNat + (s.packer.pend.toNat + s.bpNbits.toNat) / 8 →
      exec .bpPut s = .next (s.completed .outOverflow (BitVec.ofNat 32 (min s.dstCap.toNat s.params.outCap)))) ∧
    (1 ≤ s.bpNbits.toNat → s.bpNbits.toNat ≤ 32 →
      s.packer.dstLen.toNat + (s.packer.pend.toNat + s.bpNbits.toNat) / 8 ≤ min s.dstCap.toNat s.params.outCap →
      s.packer.clean →
      ∃ t, exec .bpPut s = .next t ∧
        t = { s.completed .noError 0#32 with packer := t.packer, outBuf := t.outBuf } ∧
        t.packedStream = s.packedStream ++
          (List.range s.bpNbits.toNat).map (fun i => s.bpValue.getLsbD (s.bpNbits.toNat - 1 - i)) ∧
        8 * t.packer.dstLen.toNat + t.packer.pend.toNat =
          8 * s.packer.dstLen.toNat + s.packer.pend.toNat + s.bpNbits.toNat ∧
        t.packer.pad = s.packer.pad ∧ t.packer.clean ∧
        ∀ a, a < s.packer.dstLen.toNat ∨ t.packer.dstLen.toNat ≤ a → t.outBuf.read a = s.outBuf.read a)

/-- 40_bitpacker.md R143: BP_FLUSH with all its cases. -/
def Obligations.BpFlushPadsPendingByte : Prop :=
  decode 0x2#32 = .ok .bpFlush ∧
  ∀ s : State,
    (s.packer.pend = 0#3 → exec .bpFlush s =
      .next { s.completed .noError 0#32 with packer := { s.packer with pad := 0#3 } }) ∧
    (s.packer.pend ≠ 0#3 → min s.dstCap.toNat s.params.outCap < s.packer.dstLen.toNat + 1 →
      exec .bpFlush s = .next (s.completed .outOverflow (BitVec.ofNat 32 (min s.dstCap.toNat s.params.outCap)))) ∧
    (s.packer.pend ≠ 0#3 → s.packer.dstLen.toNat + 1 ≤ min s.dstCap.toNat s.params.outCap →
      ∃ t, exec .bpFlush s = .next t ∧
        t = { s.completed .noError 0#32 with packer := t.packer, outBuf := t.outBuf } ∧
        t.packer.dstLen.toNat = s.packer.dstLen.toNat + 1 ∧ t.packer.pend = 0#3 ∧ t.packer.acc = 0#8 ∧
        t.packer.pad.toNat = 8 - s.packer.pend.toNat ∧
        ∀ a, t.outBuf.read a = if a = s.packer.dstLen.toNat then s.packer.acc else s.outBuf.read a)

/-- 40_bitpacker.md R144 and R147: BP_CLEAR and BU_CLEAR complete from every state; they write the packer, or the
unpacker, and nothing else: no byte of OUT_BUF changes and SRC_LEN is not checked. -/
def Obligations.ClearsAlwaysComplete : Prop :=
  decode 0x3#32 = .ok .bpClear ∧ decode 0x5#32 = .ok .buClear ∧
  ∀ s : State,
    exec .bpClear s = .next { s.completed .noError 0#32 with
      packer := { dstLen := 0#32, pend := 0#3, pad := 0#3, acc := 0#8 } } ∧
    exec .buClear s = .next { s.completed .noError 0#32 with buValue := 0#32, buPos := 0#32 }

/-- 40_bitpacker.md R146: BU_GET with all its cases, in the order of its checks. A read that succeeds returns the next
NBITS stream bits of IN_BUF, the first read the most significant, zero-extended, and moves the cursor by NBITS. -/
def Obligations.BuGetReadsStreamBits : Prop :=
  decode 0x4#32 = .ok .buGet ∧
  ∀ s : State, s.params.legal →
    (s.params.inCap < s.srcLen.toNat → exec .buGet s = .next (s.completed .badLen s.srcLen)) ∧
    (s.srcLen.toNat ≤ s.params.inCap → s.buNbits.toNat = 0 ∨ 32 < s.buNbits.toNat →
      exec .buGet s = .next (s.completed .badNbits (s.buNbits.setWidth 32))) ∧
    (s.srcLen.toNat ≤ s.params.inCap → 1 ≤ s.buNbits.toNat → s.buNbits.toNat ≤ 32 →
      8 * s.srcLen.toNat < s.buPos.toNat + s.buNbits.toNat →
      exec .buGet s = .next (s.completed .buExhausted s.buPos)) ∧
    (s.srcLen.toNat ≤ s.params.inCap → 1 ≤ s.buNbits.toNat → s.buNbits.toNat ≤ 32 →
      s.buPos.toNat + s.buNbits.toNat ≤ 8 * s.srcLen.toNat →
      ∃ t, exec .buGet s = .next t ∧
        t = { s.completed .noError 0#32 with buValue := t.buValue, buPos := t.buPos } ∧
        t.buPos.toNat = s.buPos.toNat + s.buNbits.toNat ∧ t.buValue.toNat < 2 ^ s.buNbits.toNat ∧
        ∀ k, k < s.buNbits.toNat → t.buValue.getLsbD (s.buNbits.toNat - 1 - k) =
          (s.inBuf.read ((s.buPos.toNat + k) / 8)).getLsbD (7 - (s.buPos.toNat + k) % 8))

/-- 40_bitpacker.md R149: round trip of the bit primitives. Puts that all succeed from a cleared packer, then a flush
that succeeds, leave `pack(bits)` in OUT_BUF and `padcount(bits)` in PAD; and a state whose IN_BUF holds those bytes,
with SRC_LEN their number and the cursor at 0, gives the values back, after which any get wider than PAD is exhausted. -/
def Obligations.PackedValuesUnpack : Prop :=
  ∀ (vs : List (Word × BitVec 6)) (s s' t : State),
    s.packer.dstLen = 0#32 → s.packer.pend = 0#3 → s.packer.acc = 0#8 → putAll vs s = some s' →
    exec .bpFlush s' = .next t → t.status.errcode = .noError →
    t.outBuf.bytes t.packer.dstLen.toNat = pack (vs.flatMap (fun p => msbBits p.1 p.2.toNat)) ∧
    t.packer.pad.toNat = padcount (vs.flatMap (fun p => msbBits p.1 p.2.toNat)) ∧
    ∀ u : State, u.params.legal → u.srcLen = t.packer.dstLen → u.srcLen.toNat ≤ u.params.inCap → u.buPos = 0#32 →
      u.inBuf.bytes u.srcLen.toNat = t.outBuf.bytes t.packer.dstLen.toNat →
      ∃ u' ws, getAll (vs.map (fun p => p.2)) u = some (ws, u') ∧
        ws.map BitVec.toNat = vs.map (fun p => p.1.toNat % 2 ^ p.2.toNat) ∧
        ∀ n : BitVec 6, t.packer.pad.toNat < n.toNat → n.toNat ≤ 32 →
          exec .buGet { u' with buNbits := n } =
            .next ({ u' with buNbits := n }.completed .buExhausted u'.buPos)

/-! ## RLE -/

/-- 41_rle.md R173 with R171: RLE_RUN with all its cases. Within bounds RUN takes the byte at POS and the largest count
of at most 255 equal bytes from there that stays inside `IN[0..SRC_LEN)`; POS is not advanced. -/
def Obligations.RleRunFindsMaximalRun : Prop :=
  decode 0x6#32 = .ok .rleRun ∧
  ∀ s : State,
    (s.params.inCap < s.srcLen.toNat → exec .rleRun s = .next (s.completed .badLen s.srcLen)) ∧
    (s.srcLen.toNat ≤ s.params.inCap → s.srcLen.toNat ≤ s.pos.toNat →
      exec .rleRun s = .next (s.completed .badPos s.pos)) ∧
    (s.srcLen.toNat ≤ s.params.inCap → s.pos.toNat < s.srcLen.toNat →
      ∃ t, exec .rleRun s = .next t ∧ t = { s.completed .noError 0#32 with runReg := t.runReg } ∧
        t.runReg.value = s.inBuf.read s.pos.toNat ∧
        1 ≤ t.runReg.count.toNat ∧ s.pos.toNat + t.runReg.count.toNat ≤ s.srcLen.toNat ∧
        (∀ i, i < t.runReg.count.toNat → s.inBuf.read (s.pos.toNat + i) = t.runReg.value) ∧
        (t.runReg.count.toNat = 255 ∨ s.pos.toNat + t.runReg.count.toNat = s.srcLen.toNat ∨
          s.inBuf.read (s.pos.toNat + t.runReg.count.toNat) ≠ t.runReg.value))

/-- 41_rle.md R172, R174: the records of rleEncode: nothing for the empty input; otherwise count then value of the run
at the front, where the count `r` is the largest of at most 255 equal bytes, then the records of the rest. -/
def Obligations.RleEncodeEmitsRunsInOrder : Prop :=
  rleEncode [] = [] ∧
  ∀ (v : Byte) (rest : List Byte), ∃ (r : Nat) (tail : List Byte),
    1 ≤ r ∧ r ≤ 255 ∧ v :: rest = List.replicate r v ++ tail ∧ (r = 255 ∨ tail.head? ≠ some v) ∧
    rleEncode (v :: rest) = [BitVec.ofNat 8 r, v] ++ rleEncode tail

/-- 41_rle.md R176: every count byte is 1 to 255, adjacent records have different values unless the first count is 255,
and the counts sum to the input length; the stream is two bytes a record, at most twice the input (R174). -/
def Obligations.RleStreamShape : Prop :=
  ∀ inp : List Byte,
    (rleEncode inp).length = 2 * (rleRecordsOf (rleEncode inp)).length ∧ (rleEncode inp).length ≤ 2 * inp.length ∧
    (∀ r ∈ rleRecordsOf (rleEncode inp), 1 ≤ r.1.toNat) ∧
    (rleRecordsOf (rleEncode inp)).IsChain (fun r q => r.2 = q.2 → r.1 = 255#8) ∧
    ((rleRecordsOf (rleEncode inp)).map (fun r => r.1.toNat)).sum = inp.length

/-- 45_reference_decoders.md R289 for RLE: the decoder gives every input back. -/
def Obligations.RleRoundTrip : Prop := ∀ inp : List Byte, rleDec (rleEncode inp) = .ok inp

/-- 41_rle.md R175 with 40_bitpacker.md R148: RLE_ENC with all its cases. -/
def Obligations.RleEncEmitsStream : Prop :=
  decode 0x7#32 = .ok .rleEnc ∧
  ∀ s : State,
    (s.params.inCap < s.srcLen.toNat → exec .rleEnc s = .next (s.completed .badLen s.srcLen)) ∧
    (s.srcLen.toNat ≤ s.params.inCap →
      (rleEncode (s.inBuf.bytes s.srcLen.toNat)).length ≤ min s.dstCap.toNat s.params.outCap →
      ∃ t, exec .rleEnc s = .next t ∧
        t = { s.completed .noError 0#32 with packer := t.packer, outBuf := t.outBuf } ∧
        t.packer.dstLen.toNat = (rleEncode (s.inBuf.bytes s.srcLen.toNat)).length ∧
        t.packer.pend = 0#3 ∧ t.packer.acc = 0#8 ∧ t.packer.pad = 0#3 ∧
        t.outBuf.holds s.outBuf (rleEncode (s.inBuf.bytes s.srcLen.toNat))) ∧
    (s.srcLen.toNat ≤ s.params.inCap →
      min s.dstCap.toNat s.params.outCap < (rleEncode (s.inBuf.bytes s.srcLen.toNat)).length →
      ∃ t, exec .rleEnc s = .next t ∧
        t = { s.completed .outOverflow (BitVec.ofNat 32 (min s.dstCap.toNat s.params.outCap)) with
          packer := { dstLen := 0#32, pend := 0#3, pad := 0#3, acc := 0#8 }, outBuf := t.outBuf, draws := t.draws } ∧
        t.outBuf.sameFrom s.outBuf (min s.dstCap.toNat s.params.outCap))

/-! ## Huffman -/

/-- 42_huffman.md R205 with R206 and 40_bitpacker.md R148: HUF_ENC with all its cases. Once the length check has
passed, every entry of FREQ, CODELEN and CODE and HUF_NSYM is rewritten from the input, whether or not the stream fits. -/
def Obligations.HufEncEmitsStreamAndTables : Prop :=
  decode 0x8#32 = .ok .hufEnc ∧
  ∀ s : State, s.params.legal →
    (s.params.inCap < s.srcLen.toNat → exec .hufEnc s = .next (s.completed .badLen s.srcLen)) ∧
    (s.srcLen.toNat ≤ s.params.inCap →
      ∃ t, exec .hufEnc s = .next t ∧
        (∀ b, (t.freqAt b).toNat = (s.inBuf.bytes s.srcLen.toNat).count b ∧
          (t.codeLenAt b).toNat = (codeTable (freqOf (s.inBuf.bytes s.srcLen.toNat)) b).length ∧
          (t.codeAt b).toNat = bitsValue (codeTable (freqOf (s.inBuf.bytes s.srcLen.toNat)) b)) ∧
        t.hufNsym.toNat = (s.inBuf.bytes s.srcLen.toNat).dedup.length ∧
        ((huffEncode (s.inBuf.bytes s.srcLen.toNat)).length ≤ min s.dstCap.toNat s.params.outCap →
          t = { s.completed .noError 0#32 with packer := t.packer, outBuf := t.outBuf, freq := t.freq
                                               codeLen := t.codeLen, code := t.code, hufNsym := t.hufNsym } ∧
          t.packer.dstLen.toNat = (huffEncode (s.inBuf.bytes s.srcLen.toNat)).length ∧
          t.packer.pend = 0#3 ∧ t.packer.acc = 0#8 ∧
          t.packer.pad.toNat = huffPad (s.inBuf.bytes s.srcLen.toNat) ∧
          t.outBuf.holds s.outBuf (huffEncode (s.inBuf.bytes s.srcLen.toNat))) ∧
        (min s.dstCap.toNat s.params.outCap < (huffEncode (s.inBuf.bytes s.srcLen.toNat)).length →
          t = { s.completed .outOverflow (BitVec.ofNat 32 (min s.dstCap.toNat s.params.outCap)) with
            packer := { dstLen := 0#32, pend := 0#3, pad := 0#3, acc := 0#8 }, outBuf := t.outBuf, draws := t.draws
            freq := t.freq, codeLen := t.codeLen, code := t.code, hufNsym := t.hufNsym } ∧
          t.outBuf.sameFrom s.outBuf (min s.dstCap.toNat s.params.outCap)))

/-- 42_huffman.md R193, R194, R195, R197: the tree construction. Taking the least node out of a pool gives the node that
precedes every other of the pool, by weight, then key, keys being distinct. Merge number m removes the least node a and
then the least node b of the rest, and adds one node with left a, right b, the sum of their weights, and key `256 + m`.
The tree of K ≥ 2 symbols is what K - 1 merges, numbered from 0, leave of the leaves (weight `F[s]`, key s). The code of
a symbol is its path from the root, bit 0 for each edge to a left child and bit 1 for each to a right one. -/
def Obligations.TakeLeastRemovesMinimum : Prop :=
  (∀ (x : PoolNode) (pool : List PoolNode), ((x :: pool).map (fun n => n.key)).Nodup →
    ((takeLeast x pool).1 :: (takeLeast x pool).2).Perm (x :: pool) ∧
    ∀ y ∈ (takeLeast x pool).2, (takeLeast x pool).1.weight < y.weight ∨
      (takeLeast x pool).1.weight = y.weight ∧ (takeLeast x pool).1.key < y.key) ∧
  (∀ (m : Nat) (pool : List PoolNode), 2 ≤ pool.length → (pool.map (fun n => n.key)).Nodup →
    ∃ (a b : PoolNode) (rest : List PoolNode), (a :: b :: rest).Perm pool ∧
      (∀ y ∈ b :: rest, a.weight < y.weight ∨ a.weight = y.weight ∧ a.key < y.key) ∧
      (∀ y ∈ rest, b.weight < y.weight ∨ b.weight = y.weight ∧ b.key < y.key) ∧
      mergeOnce m pool =
        { weight := a.weight + b.weight, key := 256 + m, tree := .node a.tree b.tree } :: rest) ∧
  (∀ F : Byte → Nat, 2 ≤ (symbols F).length →
    ∃ (pools : Nat → List PoolNode) (root : PoolNode),
      pools 0 = (symbols F).map (fun s => { weight := F s, key := s.toNat, tree := .leaf s }) ∧
      (∀ m, m < (symbols F).length - 1 →
        ((pools m).map (fun n => n.key)).Nodup ∧ (pools m).length = (symbols F).length - m ∧
        pools (m + 1) = mergeOnce m (pools m)) ∧
      pools ((symbols F).length - 1) = [root] ∧ buildTree F = some root.tree ∧
      ∀ s ∈ symbols F, root.tree.path s = some (codeTable F s)) ∧
  (∀ x s : Byte, HufTree.path (.leaf x) s = if x = s then some [] else none) ∧
  (∀ (l r : HufTree) (s : Byte) (c : List Bool), l.path s = some c → HufTree.path (.node l r) s = some (false :: c)) ∧
  (∀ (l r : HufTree) (s : Byte) (c : List Bool), l.path s = none → r.path s = some c →
    HufTree.path (.node l r) s = some (true :: c))

/-- 42_huffman.md R196, R197: with one distinct byte value its code is `0`; with K ≥ 2 every code has 1 to K - 1 bits;
a byte value that does not occur has none. -/
def Obligations.CodeLengthBounds : Prop :=
  ∀ (inp : List Byte) (b : Byte),
    (b ∉ inp → codeTable (freqOf inp) b = []) ∧
    (b ∈ inp → inp.dedup.length = 1 → codeTable (freqOf inp) b = [false]) ∧
    (b ∈ inp → 2 ≤ inp.dedup.length → 1 ≤ (codeTable (freqOf inp) b).length ∧
      (codeTable (freqOf inp) b).length ≤ inp.dedup.length - 1)

/-- 42_huffman.md R203 "Prefix property": no code is a prefix of another. -/
def Obligations.CodesArePrefixFree : Prop :=
  ∀ (inp : List Byte) (a b : Byte), a ∈ inp → b ∈ inp → a ≠ b →
    ¬ codeTable (freqOf inp) a <+: codeTable (freqOf inp) b

/-- 42_huffman.md R203 "Skew": a more frequent byte value has no longer a code. The spec takes this property from
general knowledge ("not in source") and has checked it on its vectors only ("not proved here"). -/
def Obligations.FrequentBytesHaveShorterCodes : Prop :=
  ∀ (inp : List Byte) (a b : Byte), b ∈ inp → inp.count b < inp.count a →
    (codeTable (freqOf inp) a).length ≤ (codeTable (freqOf inp) b).length

/-- 42_huffman.md R199, R200, R201: the stream for the empty input, the stream for one distinct byte value, and in
general, byte by byte, every field of the stream: N, K, for each of the K symbols in strictly ascending order SYM_j and
FREQ_j, all big-endian, and BODY, the packed codes of the input's bytes in order; the total length is
`6 + 5K + ceil(B/8)`, where B sums the code lengths over the input. -/
def Obligations.HuffmanStreamLayout : Prop :=
  huffEncode [] = [0#8, 0#8, 0#8, 0#8, 0#8, 0#8] ∧
  (∀ (n : Nat) (b : Byte), 1 ≤ n →
    huffEncode (List.replicate n b) =
      be32 n ++ [0#8, 1#8, b] ++ be32 n ++ List.replicate ((n + 7) / 8) 0#8) ∧
  (∀ inp : List Byte,
    (huffEncode inp).take 6 = be32 inp.length ++ be16 inp.dedup.length ∧
    (huffEncode inp).length = 6 + 5 * inp.dedup.length +
      ((inp.map (fun b => (codeTable (freqOf inp) b).length)).sum + 7) / 8) ∧
  (∀ inp : List Byte, ∃ S : List Byte,
    S.Pairwise (fun a b => a.toNat < b.toNat) ∧ (∀ b, b ∈ S ↔ b ∈ inp) ∧
    (∀ i, i < 4 → (huffEncode inp)[i]? = some (BitVec.ofNat 8 (inp.length / 2 ^ (8 * (3 - i))))) ∧
    (∀ i, i < 2 → (huffEncode inp)[4 + i]? = some (BitVec.ofNat 8 (S.length / 2 ^ (8 * (1 - i))))) ∧
    (∀ (j : Nat) (b : Byte), S[j]? = some b →
      (huffEncode inp)[6 + 5 * j]? = some b ∧ 1 ≤ inp.count b ∧
      ∀ i, i < 4 → (huffEncode inp)[7 + 5 * j + i]? = some (BitVec.ofNat 8 (inp.count b / 2 ^ (8 * (3 - i))))) ∧
    (huffEncode inp).drop (6 + 5 * S.length) = pack (inp.flatMap (codeTable (freqOf inp))))

/-- 45_reference_decoders.md R289 for Huffman: the decoder gives every input shorter than 2^32 bytes back. -/
def Obligations.HuffmanRoundTrip : Prop :=
  ∀ inp : List Byte, inp.length < 2 ^ 32 → hufDec (huffEncode inp) = .ok inp

/-! ## LZ77 -/

/-- 43_lz77.md R231: matchlen is the largest length of at most Lmax over which the bytes from p on equal those d before
them. -/
def Obligations.MatchLenIsLargest : Prop :=
  ∀ (inp : List Byte) (p d lmax : Nat), 1 ≤ d → d ≤ p → p + lmax < inp.length →
    matchLen inp p d lmax ≤ lmax ∧
    (∀ i, i < matchLen inp p d lmax → inp[p + i]? = inp[p - d + i]?) ∧
    (matchLen inp p d lmax = lmax ∨
      inp[p + matchLen inp p d lmax]? ≠ inp[p - d + matchLen inp p d lmax]?)

/-- 43_lz77.md R232, R233, R234: find returns the longest match over the distances of the window, the nearest of the
longest, or (0, 0) when every match is shorter than the minimum. -/
def Obligations.FindIsLongestNearest : Prop :=
  ∀ (window minMatch : Nat) (inp : List Byte) (p : Nat), 1 ≤ minMatch → p < inp.length →
    (lzFind window minMatch inp p = (0, 0) ∧
      ∀ d, 1 ≤ d → d ≤ min p window → matchLen inp p d (min 255 (inp.length - p - 1)) < minMatch) ∨
    (∃ d l, lzFind window minMatch inp p = (d, l) ∧ 1 ≤ d ∧ d ≤ min p window ∧ minMatch ≤ l ∧
      l = matchLen inp p d (min 255 (inp.length - p - 1)) ∧
      (∀ d', 1 ≤ d' → d' ≤ min p window → matchLen inp p d' (min 255 (inp.length - p - 1)) ≤ l) ∧
      ∀ d', 1 ≤ d' → d' < d → matchLen inp p d' (min 255 (inp.length - p - 1)) < l)

/-- 43_lz77.md R235: LZ_FIND with all its cases; MATCH takes what find returns at POS and the byte after the match. -/
def Obligations.LzFindReportsToken : Prop :=
  decode 0x9#32 = .ok .lzFind ∧
  ∀ s : State, s.params.legal →
    (s.params.inCap < s.srcLen.toNat → exec .lzFind s = .next (s.completed .badLen s.srcLen)) ∧
    (s.srcLen.toNat ≤ s.params.inCap → s.srcLen.toNat ≤ s.pos.toNat →
      exec .lzFind s = .next (s.completed .badPos s.pos)) ∧
    (s.srcLen.toNat ≤ s.params.inCap → s.pos.toNat < s.srcLen.toNat →
      ∃ t d l, lzFind s.params.lzWindow s.params.lzMinMatch (s.inBuf.bytes s.srcLen.toNat) s.pos.toNat = (d, l) ∧
        exec .lzFind s = .next t ∧ t = { s.completed .noError 0#32 with matchReg := t.matchReg } ∧
        t.matchReg.dist.toNat = d ∧ t.matchReg.len.toNat = l ∧ s.pos.toNat + l < s.srcLen.toNat ∧
        t.matchReg.lit = s.inBuf.read (s.pos.toNat + l))

/-- 43_lz77.md R236, R237, R238, R241: each token stands at the position its predecessors leave, is what find returns
there with the byte that follows, and is a literal or a back-reference within the limits; the covered bytes sum to the
input; the stream is `4 + 4T` bytes, at most `4 + 4n`. And the stream byte by byte: the input's length, big-endian, then
for token k from byte `4 + 4k` on the distance, big-endian, the length, and the literal. -/
def Obligations.TokensCoverInput : Prop :=
  ∀ (window minMatch : Nat) (inp : List Byte), 1 ≤ minMatch →
    ((tokens window minMatch inp).map (fun t => t.len + 1)).sum = inp.length ∧
    (lzEncode window minMatch inp).length = 4 + 4 * (tokens window minMatch inp).length ∧
    (tokens window minMatch inp).length ≤ inp.length ∧
    (∀ i, i < 4 →
      (lzEncode window minMatch inp)[i]? = some (BitVec.ofNat 8 (inp.length / 2 ^ (8 * (3 - i))))) ∧
    (∀ (k : Nat) (t : Token), (tokens window minMatch inp)[k]? = some t →
      (lzEncode window minMatch inp)[4 + 4 * k]? = some (BitVec.ofNat 8 (t.dist / 2 ^ 8)) ∧
      (lzEncode window minMatch inp)[5 + 4 * k]? = some (BitVec.ofNat 8 t.dist) ∧
      (lzEncode window minMatch inp)[6 + 4 * k]? = some (BitVec.ofNat 8 t.len) ∧
      (lzEncode window minMatch inp)[7 + 4 * k]? = some t.lit) ∧
    ∀ (k : Nat) (t : Token), (tokens window minMatch inp)[k]? = some t →
      let p := (((tokens window minMatch inp).take k).map (fun t => t.len + 1)).sum
      lzFind window minMatch inp p = (t.dist, t.len) ∧ inp[p + t.len]? = some t.lit ∧
      (t.dist = 0 ∧ t.len = 0 ∨
        1 ≤ t.dist ∧ t.dist ≤ window ∧ t.dist ≤ p ∧ minMatch ≤ t.len ∧ t.len ≤ 255)

/-- 43_lz77.md R241: two occurrences of a string longer than the minimum match, no farther apart than the window, give
at least one back-reference token. -/
def Obligations.RepeatedSubstringGivesBackReference : Prop :=
  ∀ (window minMatch : Nat) (inp sub : List Byte) (p1 p2 : Nat),
    1 ≤ minMatch → minMatch ≤ 255 → minMatch + 1 ≤ sub.length → p1 < p2 → p2 - p1 ≤ window →
    sub <+: inp.drop p1 → sub <+: inp.drop p2 →
    ∃ t ∈ tokens window minMatch inp, 1 ≤ t.dist ∧ minMatch ≤ t.len

/-- 45_reference_decoders.md R289 for LZ77: for every legal window and minimum match the decoder gives every input
shorter than 2^32 bytes back. -/
def Obligations.LzRoundTrip : Prop :=
  ∀ (p : Config.Params) (inp : List Byte), p.legal → inp.length < 2 ^ 32 →
    lzDec (lzEncode p.lzWindow p.lzMinMatch inp) = .ok inp

/-- 43_lz77.md R240 with 40_bitpacker.md R148: LZ_ENC with all its cases; LZ_NTOK is written on success only. -/
def Obligations.LzEncEmitsStream : Prop :=
  decode 0xA#32 = .ok .lzEnc ∧
  ∀ s : State, s.params.legal →
    (s.params.inCap < s.srcLen.toNat → exec .lzEnc s = .next (s.completed .badLen s.srcLen)) ∧
    (s.srcLen.toNat ≤ s.params.inCap →
      ∀ o T, o = lzEncode s.params.lzWindow s.params.lzMinMatch (s.inBuf.bytes s.srcLen.toNat) →
      T = (tokens s.params.lzWindow s.params.lzMinMatch (s.inBuf.bytes s.srcLen.toNat)).length →
      ∃ t, exec .lzEnc s = .next t ∧
        (4 + 4 * T ≤ min s.dstCap.toNat s.params.outCap →
          t = { s.completed .noError 0#32 with packer := t.packer, outBuf := t.outBuf, lzNtok := t.lzNtok } ∧
          t.lzNtok.toNat = T ∧ t.packer.dstLen.toNat = 4 + 4 * T ∧
          t.packer.pend = 0#3 ∧ t.packer.acc = 0#8 ∧ t.packer.pad = 0#3 ∧ t.outBuf.holds s.outBuf o) ∧
        (min s.dstCap.toNat s.params.outCap < 4 + 4 * T →
          t = { s.completed .outOverflow (BitVec.ofNat 32 (min s.dstCap.toNat s.params.outCap)) with
            packer := { dstLen := 0#32, pend := 0#3, pad := 0#3, acc := 0#8 }, outBuf := t.outBuf
            draws := t.draws } ∧
          t.outBuf.sameFrom s.outBuf (min s.dstCap.toNat s.params.outCap)))

/-! ## The encoders together -/

/-- 60_exceptions.md R317: content never fails: with SRC_LEN within IN_CAP and CAP at least the output length every
encode command succeeds, whatever the bytes, so that a decoder of its OUT_BUF sees exactly its output. -/
def Obligations.ContentNeverFails : Prop :=
  ∀ (i : Instr) (s : State), isEncoder i = true → s.srcLen.toNat ≤ s.params.inCap →
    (encoderOutput s.params (s.inBuf.bytes s.srcLen.toNat) i).length ≤ min s.dstCap.toNat s.params.outCap →
    ∃ t, exec i s = .next t ∧ t.status.errcode = .noError ∧
      t.outBuf.bytes t.packer.dstLen.toNat = encoderOutput s.params (s.inBuf.bytes s.srcLen.toNat) i

/-- 10_state.md R56, 41_rle.md R170, 43_lz77.md R230, 44_system.md R272: a command reads no IN_BUF byte at or above
SRC_LEN: two runs that differ only there end alike. -/
def Obligations.CommandsReadOnlyValidInput : Prop :=
  ∀ (i : Instr) (s t : State) (m : Memory), exec i s = .next t →
    (∀ a, a < s.srcLen.toNat → m.read a = s.inBuf.read a) →
    exec i { s with inBuf := m } = .next { t with inBuf := m }

/-! ## Reference decoders -/

/-- 45_reference_decoders.md R281: RLE_DEC fails exactly on an odd length or a zero count, and otherwise emits `count`
copies of each value. -/
def Obligations.RleDecoderAcceptsExactly : Prop :=
  ∀ b : List Byte,
    (b.length % 2 = 1 → rleDec b = .error .oddLength) ∧
    (b.length % 2 = 0 → (∃ r ∈ rleRecordsOf b, r.1 = 0#8) → rleDec b = .error .zeroCount) ∧
    (b.length % 2 = 0 → (∀ r ∈ rleRecordsOf b, r.1 ≠ 0#8) →
      rleDec b = .ok ((rleRecordsOf b).flatMap (fun r => List.replicate r.1.toNat r.2)))

/-- 45_reference_decoders.md R291: every proper prefix of a stream that decodes fails to decode, for Huffman and for
LZ77; an RLE stream cut at a record boundary decodes to a prefix of the data. -/
def Obligations.TruncatedStreamsFail : Prop :=
  (∀ (b out : List Byte) (n : Nat), hufDec b = .ok out → n < b.length → isDecodeError (hufDec (b.take n)) = true) ∧
  (∀ (b out : List Byte) (n : Nat), lzDec b = .ok out → n < b.length → isDecodeError (lzDec (b.take n)) = true) ∧
  (∀ (b out : List Byte) (n : Nat), rleDec b = .ok out → ∃ out', rleDec (b.take (2 * n)) = .ok out' ∧ out' <+: out)

/-! ## Whole machine -/

/-- The invariant holds after reset, for every legal choice of the parameters. -/
def Obligations.ResetMeetsInvariants : Prop :=
  (∀ p : Config.Params, p.legal → (State.resetWith p).Inv ∧ (State.resetWith p).TablesInv) ∧
  State.reset.Inv ∧ State.reset.TablesInv

/-- Every step keeps the invariant of registers and buffers (00_scope.md R8; 10_state.md R34, R39, R43, R46, R47, R50,
R56, R57, R60): canonical buffers within their capacities, the packer and both cursors in range, a clean flag state
while busy. -/
def Obligations.StepKeepsInvariant : Prop := ∀ s t : State, s.Inv → step s = .next t → t.Inv

/-- Every step keeps the invariant of the Huffman tables (10_state.md R49, R53, R54, R55): HUF_NSYM counts the non-zero
frequencies, a byte value has a code exactly when it occurred, and the bits at and above a code's length are 0. -/
def Obligations.StepKeepsTables : Prop :=
  ∀ s t : State, s.params.legal → s.TablesInv → step s = .next t → t.TablesInv

/-- 10_state.md R60 over every step: BUSY is set only by a CTRL write with START and without SRESET; DONE is set only
by a completion; WBUSY is set only by a host write while BUSY; ERRCODE becomes non-zero only at a completion. -/
def Obligations.FlagsChangeOnlyAsStated : Prop :=
  ∀ s t : State, step s = .next t →
    (s.status.busy = false → t.status.busy = true →
      ∃ st v, s.host.current = some st ∧ (∃ a, st.access = some a ∧ a.dir = .write ∧ a.offset = 0x004#22 ∧ a.data = v) ∧
        v.getLsbD 0 = true ∧ v.getLsbD 1 = false) ∧
    (s.status.done = false → t.status.done = true →
      s.status.busy = true ∧ State.complete exec { s with resetIn := s.resetIn.tail } = .next t) ∧
    (s.status.wbusy = false → t.status.wbusy = true →
      s.status.busy = true ∧ ∃ st a, s.host.current = some st ∧ st.access = some a ∧ a.dir = .write) ∧
    (t.status.errcode ≠ .noError → t.status.errcode ≠ s.status.errcode →
      s.status.busy = true ∧ State.complete exec { s with resetIn := s.resetIn.tail } = .next t)

/-- 30_encoding.md R117, 44_system.md R271: the host's control flow. A BEQ or BNE on a field of STATUS is one exact read
of STATUS, busy or not, and the host goes on at the label or at the next step by what it read; the block itself does
not change. On a field of any register, BEQ, BNE and POLL make one 32-bit read of it; POLL stays where it is until the
field reads the value, and then goes on. W32, W8, R32 and R8 make the access of R117's bus encoding and a label makes
none, and the host goes on at the next step. A label that a program has stands at the index a branch to it goes to, the
only such index when the labels are distinct. The model's own are: `wait` (log 4); that the host goes on after an R32 or
R8 whatever value it read, and the step that makes one bare access, which R117 does not list (log 6); that a step uses
up one reset level (log 13); and that a label is a step of its own (log 17). Where a branch goes whose label the program
lacks or defines twice is log 14's choice, on which nothing here rests. -/
def Obligations.HostBranchesOnStatusField : Prop :=
  (∀ (s : State) (f : Field) (v : Word) (l : Nat) (beq : Bool), f.offset = 0x00C#22 → s.resetIn.head? ≠ some true →
    (s.status.busy = true → s.wait ≠ 0) →
    s.host.current = some (if beq then .beq f v l else .bne f v l) →
    step s = .next { s with
      resetIn := s.resetIn.tail, wait := s.wait - 1
      host := { s.host with
        lastRead := some s.status.word
        pc := if (decide ((s.status.word >>> f.lo) &&& BitVec.ofNat 32 (2 ^ f.len - 1) = v)) = beq
              then labelIndex s.host.prog l else s.host.pc + 1 } }) ∧
  (∀ (s u : State) (f : Field) (v w : Word), s.resetIn.head? ≠ some true → (s.status.busy = true → s.wait ≠ 0) →
    State.access { s with resetIn := s.resetIn.tail, wait := s.wait - 1 } (.r32 f.offset) = .ok (u, some w) →
    (s.host.current = some (.poll f v) →
      step s = .next { u with host := { s.host with
        lastRead := some w
        pc := if (w >>> f.lo) &&& BitVec.ofNat 32 (2 ^ f.len - 1) = v then s.host.pc + 1 else s.host.pc } }) ∧
    (∀ l, s.host.current = some (.beq f v l) →
      step s = .next { u with host := { s.host with
        lastRead := some w
        pc := if (w >>> f.lo) &&& BitVec.ofNat 32 (2 ^ f.len - 1) = v
              then labelIndex s.host.prog l else s.host.pc + 1 } }) ∧
    (∀ l, s.host.current = some (.bne f v l) →
      step s = .next { u with host := { s.host with
        lastRead := some w
        pc := if (w >>> f.lo) &&& BitVec.ofNat 32 (2 ^ f.len - 1) = v
              then s.host.pc + 1 else labelIndex s.host.prog l } })) ∧
  (∀ (s u : State) (st : HostStep) (a : Access) (r : Option Word), s.resetIn.head? ≠ some true →
    (s.status.busy = true → s.wait ≠ 0) → s.host.current = some st →
    (∃ off v b c,
      (st = .w32 off v ∧ a = { dir := .write, offset := off, width := 32, data := v }) ∨
      (st = .w8 off b ∧ a = { dir := .write, offset := off, width := 8, data := b.setWidth 32 }) ∨
      (st = .r32 off v ∧ a = { dir := .read, offset := off, width := 32, data := 0#32 }) ∨
      (st = .r8 off b ∧ a = { dir := .read, offset := off, width := 8, data := 0#32 }) ∨
      (st = .bus c ∧ a = c)) →
    State.access { s with resetIn := s.resetIn.tail, wait := s.wait - 1 } a = .ok (u, r) →
    ∃ t, step s = .next t ∧ t = { u with host := t.host } ∧ t.host.pc = s.host.pc + 1 ∧
      t.host.prog = s.host.prog ∧ (∀ v, r = some v → t.host.lastRead = some v)) ∧
  (∀ (s : State) (l : Nat), s.resetIn.head? ≠ some true → (s.status.busy = true → s.wait ≠ 0) →
    s.host.current = some (.label l) →
    step s = .next { s with
      resetIn := s.resetIn.tail, wait := s.wait - 1, host := { s.host with pc := s.host.pc + 1 } }) ∧
  (∀ (prog : List HostStep) (l : Nat), .label l ∈ prog → prog[labelIndex prog l]? = some (.label l)) ∧
  (∀ (prog : List HostStep) (l i : Nat), programWf prog = true → prog[i]? = some (.label l) → labelIndex prog l = i)

/-- 44_system.md R269: a command in flight does not stay in flight for ever: with no hard reset, after at most
`wait + 1` events it has completed (or a soft reset has discarded it), or the host has met a bus error. How long `wait`
is, is a free value (log 4). -/
def Obligations.CommandInFlightEnds : Prop :=
  ∀ s : State, s.status.busy = true → s.resetIn = [] →
    ∃ k, k ≤ s.wait + 1 ∧
      ((∃ t, core.run k s = .next t ∧ t.status.busy = false) ∨ ∃ f, core.run k s = .fault f)
end

