-- ==== Sys2Proof/Laws/Memory.lean ====
section
/-! SUPPORT. The laws of buffers: what a read sees after each operation, and that every operation keeps the canonical
form and the bounds of the listed addresses. -/

namespace Sys2Proof.Machine

/-! ## Reading after writing -/

theorem cellAt_insertCell_same (cs : List Host.Cell) (i : Nat) (b : Byte) :
    cellAt (insertCell cs i b) i = some b := by
  induction cs with
  | nil => simp [insertCell, cellAt]
  | cons c cs ih =>
    obtain ⟨a, x⟩ := c
    simp only [insertCell]
    split
    · simp [cellAt]
    · split
      · simp [cellAt]
      · next h => simp [cellAt, h, ih]

theorem cellAt_insertCell_other (cs : List Host.Cell) (i j : Nat) (b : Byte) (h : j ≠ i) :
    cellAt (insertCell cs i b) j = cellAt cs j := by
  induction cs with
  | nil => simp [insertCell, cellAt, h.symm]
  | cons c cs ih =>
    obtain ⟨a, x⟩ := c
    simp only [insertCell]
    split
    · simp [cellAt, h.symm]
    · split
      · next h' => subst h'; simp [cellAt, h.symm]
      · simp [cellAt, ih]

@[simp] theorem Memory.freeAt_write (m : Memory) (i j : Nat) (b : Byte) : (m.write i b).freeAt j = m.freeAt j := rfl

/-- The byte written is the byte read. -/
@[simp] theorem Memory.read_write_same (m : Memory) (i : Nat) (b : Byte) : (m.write i b).read i = b := by
  simp [Memory.read, Memory.write, cellAt_insertCell_same]

/-- A write leaves every other byte alone. -/
theorem Memory.read_write_other (m : Memory) (i j : Nat) (b : Byte) (h : j ≠ i) :
    (m.write i b).read j = m.read j := by
  simp [Memory.read, Memory.write, cellAt_insertCell_other _ _ _ _ h, Memory.freeAt]

theorem Memory.read_write (m : Memory) (i j : Nat) (b : Byte) :
    (m.write i b).read j = if j = i then b else m.read j := by
  split
  · next h => subst h; simp
  · next h => exact m.read_write_other i j b h

/-- What every address reads after a list of bytes is written from `i` up. -/
theorem Memory.read_writeBytes (bs : List Byte) : ∀ (m : Memory) (i j : Nat),
    (m.writeBytes i bs).read j = if h : i ≤ j ∧ j - i < bs.length then bs[j - i] else m.read j := by
  induction bs with
  | nil => intro m i j; simp [Memory.writeBytes]
  | cons b bs ih =>
    intro m i j
    rw [Memory.writeBytes, ih, Memory.read_write]
    by_cases hj : j = i
    · subst hj; simp
    · by_cases hi : i + 1 ≤ j
      · have e : j - i = (j - (i + 1)) + 1 := by omega
        simp only [hi, true_and, hj, if_false, show i ≤ j by omega, List.length_cons]
        by_cases hl : j - (i + 1) < bs.length
        · rw [dif_pos hl, dif_pos (by omega)]; simp [e]
        · rw [dif_neg hl, dif_neg (by omega)]
      · rw [dif_neg (by omega), dif_neg (by omega), if_neg hj]

/-! ## Making a range unspecified -/

theorem cellAt_filter_ge (cs : List Host.Cell) (n i : Nat) (h : n ≤ i) :
    cellAt (cs.filter (fun c => decide (n ≤ c.1))) i = cellAt cs i := by
  induction cs with
  | nil => rfl
  | cons c cs ih =>
    obtain ⟨a, x⟩ := c
    by_cases ha : n ≤ a
    · simp [List.filter, ha, cellAt, ih]
    · have : a ≠ i := by omega
      simp [List.filter, ha, cellAt, ih, this]

theorem drawFor_filter_gt (fs : List Fill) (base n i : Nat) (h : n ≤ i) :
    drawFor (fs.filter (fun f => decide (n < f.bound))) base i = drawFor fs base i := by
  induction fs with
  | nil => rfl
  | cons f fs ih =>
    by_cases hf : n < f.bound
    · simp [List.filter, hf, drawFor, ih]
    · have : ¬ i < f.bound := by omega
      simp [List.filter, hf, drawFor, ih, this]

/-- Bytes at and above the bound keep what they hold. -/
theorem Memory.read_forget_ge (m : Memory) (n d i : Nat) (h : n ≤ i) : (m.forget n d).read i = m.read i := by
  unfold Memory.forget
  split
  · rfl
  · have hi : ¬ i < n := by omega
    simp [Memory.read, cellAt_filter_ge _ _ _ h, Memory.freeAt, drawFor, hi, drawFor_filter_gt _ _ _ _ h]

/-- Bytes below the bound are free bytes of the draw given. -/
theorem Memory.read_forget_lt (m : Memory) (n d i : Nat) (h : i < n) :
    (m.forget n d).read i = Config.freeByte d i := by
  have hc : ∀ cs : List Host.Cell, cellAt (cs.filter (fun c => decide (n ≤ c.1))) i = none := by
    intro cs
    induction cs with
    | nil => rfl
    | cons c cs ih =>
      obtain ⟨a, x⟩ := c
      by_cases ha : n ≤ a
      · have : a ≠ i := by omega
        simp [List.filter, ha, cellAt, ih, this]
      · simp [List.filter, ha, ih]
  unfold Memory.forget
  rw [if_neg (by omega)]
  simp [Memory.read, hc, Memory.freeAt, drawFor, h]

/-! ## Words and byte lists -/

@[simp] theorem Memory.bytes_length (m : Memory) (n : Nat) : (m.bytes n).length = n := by simp [Memory.bytes]

@[simp] theorem Memory.bytes_getElem (m : Memory) (n i : Nat) (h : i < (m.bytes n).length) :
    (m.bytes n)[i] = m.read i := by simp [Memory.bytes]

theorem Memory.bytes_getD (m : Memory) (n i : Nat) (b : Byte) (h : i < n) : (m.bytes n).getD i b = m.read i := by
  simp [Memory.bytes, List.getD, h]

/-- The bytes of a range depend on the reads of that range alone. -/
theorem Memory.bytes_congr (m m' : Memory) (n : Nat) (h : ∀ i, i < n → m'.read i = m.read i) :
    m'.bytes n = m.bytes n := by
  simp only [Memory.bytes]
  exact List.map_congr_left (fun i hi => h i (List.mem_range.1 hi))

theorem Memory.bytes_succ (m : Memory) (n : Nat) : m.bytes (n + 1) = m.bytes n ++ [m.read n] := by
  simp [Memory.bytes, List.range_succ]

/-- A lane of four bytes put together is the byte. -/
theorem Memory.readLanes_lane (m : Memory) (i k : Nat) (h : k < 4) :
    (m.readLanes i).extractLsb' (8 * k) 8 = m.read (i + k) := by
  unfold Memory.readLanes
  ext j hj
  rw [BitVec.getElem_extractLsb', ← BitVec.getLsbD_eq_getElem hj]
  simp only [BitVec.getLsbD_append]
  obtain rfl | rfl | rfl | rfl : k = 0 ∨ k = 1 ∨ k = 2 ∨ k = 3 := by omega
  · rw [if_pos (by omega)]; congr 1; omega
  · rw [if_neg (by omega), if_pos (by omega)]; congr 1; omega
  · rw [if_neg (by omega), if_neg (by omega), if_pos (by omega)]; congr 1; omega
  · rw [if_neg (by omega), if_neg (by omega), if_neg (by omega)]; congr 1; omega

/-! ## The canonical form -/

theorem Memory.unknown_wf (d : Nat) : (Memory.unknown d).wf := by simp [Memory.unknown, Memory.wf]

theorem mem_insertCell (cs : List Host.Cell) (i : Nat) (b : Byte) (c : Host.Cell) (h : c ∈ insertCell cs i b) :
    c = (i, b) ∨ c ∈ cs := by
  induction cs with
  | nil => simpa [insertCell] using h
  | cons d cs ih =>
    obtain ⟨a, x⟩ := d
    simp only [insertCell] at h
    split at h
    · simpa using h
    · split at h
      · simp only [List.mem_cons] at h ⊢; tauto
      · simp only [List.mem_cons] at h ⊢
        rcases h with h | h
        · tauto
        · have := ih h; tauto

theorem insertCell_rising (cs : List Host.Cell) (i : Nat) (b : Byte)
    (h : cs.Pairwise (fun a b => a.1 < b.1)) : (insertCell cs i b).Pairwise (fun a b => a.1 < b.1) := by
  induction cs with
  | nil => simp [insertCell]
  | cons d cs ih =>
    obtain ⟨a, x⟩ := d
    rw [List.pairwise_cons] at h
    simp only [insertCell]
    split
    · next hi =>
      rw [List.pairwise_cons, List.pairwise_cons]
      refine ⟨?_, h⟩
      intro c hc
      rcases List.mem_cons.1 hc with rfl | hc
      · exact hi
      · exact lt_trans hi (h.1 c hc)
    · split
      · next hi =>
        subst hi
        exact List.pairwise_cons.2 h
      · next h1 h2 =>
        rw [List.pairwise_cons]
        refine ⟨?_, ih h.2⟩
        intro c hc
        rcases mem_insertCell _ _ _ _ hc with rfl | hc
        · simp only; omega
        · exact h.1 c hc

/-- A write keeps the canonical form. -/
theorem Memory.write_wf (m : Memory) (i : Nat) (b : Byte) (h : m.wf) : (m.write i b).wf :=
  ⟨insertCell_rising _ _ _ h.1, h.2⟩

theorem Memory.writeBytes_wf (bs : List Byte) : ∀ (m : Memory) (i : Nat), m.wf → (m.writeBytes i bs).wf := by
  induction bs with
  | nil => intro m i h; exact h
  | cons b bs ih => intro m i h; exact ih _ _ (m.write_wf i b h)

theorem Memory.writeLanes_wf (m : Memory) (i : Nat) (v : Word) (h : m.wf) : (m.writeLanes i v).wf :=
  m.writeBytes_wf _ i h

/-- Making a range unspecified keeps the canonical form. -/
theorem Memory.forget_wf (m : Memory) (n d : Nat) (h : m.wf) : (m.forget n d).wf := by
  unfold Memory.forget
  split
  · exact h
  · next hn =>
    refine ⟨h.1.filter _, ?_, ?_⟩
    · rw [List.pairwise_cons]
      refine ⟨?_, h.2.1.filter _⟩
      intro f hf
      simpa using (List.mem_filter.1 hf).2
    · intro f hf
      rcases List.mem_cons.1 hf with rfl | hf
      · exact Nat.pos_of_ne_zero hn
      · exact h.2.2 f (List.mem_filter.1 hf).1

/-! ## Bounds of what is listed -/

/-- Every listed address is below `n`. -/
def Memory.below (m : Memory) (n : Nat) : Prop := ∀ c ∈ m.cells, c.1 < n

theorem Memory.unknown_below (d n : Nat) : (Memory.unknown d).below n := by simp [Memory.unknown, Memory.below]

theorem Memory.write_below (m : Memory) (i n : Nat) (b : Byte) (h : m.below n) (hi : i < n) :
    (m.write i b).below n := by
  intro c hc
  rcases mem_insertCell _ _ _ _ hc with rfl | hc
  · exact hi
  · exact h c hc

theorem Memory.writeBytes_below (bs : List Byte) (n : Nat) : ∀ (m : Memory) (i : Nat),
    m.below n → i + bs.length ≤ n → (m.writeBytes i bs).below n := by
  induction bs with
  | nil => intro m i h _; exact h
  | cons b bs ih =>
    intro m i h hi
    simp only [List.length_cons] at hi
    exact ih _ _ (m.write_below i n b h (by omega)) (by omega)

theorem Memory.forget_below (m : Memory) (k d n : Nat) (h : m.below n) : (m.forget k d).below n := by
  unfold Memory.forget
  split
  · exact h
  · intro c hc
    exact h c (List.mem_filter.1 hc).1

@[simp] theorem Memory.write_fills (m : Memory) (i : Nat) (b : Byte) : (m.write i b).fills = m.fills := rfl

@[simp] theorem Memory.writeBytes_fills (bs : List Byte) : ∀ (m : Memory) (i : Nat),
    (m.writeBytes i bs).fills = m.fills := by
  induction bs with
  | nil => intro m i; rfl
  | cons b bs ih => intro m i; rw [Memory.writeBytes, ih]; rfl

theorem Memory.forget_fills (m : Memory) (k d n : Nat) (h : ∀ f ∈ m.fills, f.bound ≤ n) (hk : k ≤ n) :
    ∀ f ∈ (m.forget k d).fills, f.bound ≤ n := by
  unfold Memory.forget
  split
  · exact h
  · intro f hf
    rcases List.mem_cons.1 hf with rfl | hf
    · exact hk
    · exact h f (List.mem_filter.1 hf).1

/-- The reset buffers are in canonical form. -/
theorem State.reset_memory_wf (p : Config.Params) :
    (State.resetWith p).inBuf.wf ∧ (State.resetWith p).outBuf.wf :=
  ⟨Memory.unknown_wf 0, Memory.unknown_wf 1⟩

end Sys2Proof.Machine
end

