-- ==== Sys2Proof/Laws/Bits.lean ====
section
/-! SUPPORT. The laws of bit strings: streams of bytes, packing, values, and the big-endian fields. -/

namespace Sys2Proof.Machine

/-! ## The bits of a byte list -/

/-- The bits of one byte in stream order (20_memory.md R81). -/
def byteBits (b : Byte) : List Bool := (List.range 8).map (fun i => b.getLsbD (7 - i))

@[simp] theorem byteBits_length (b : Byte) : (byteBits b).length = 8 := by simp [byteBits]

@[simp] theorem streamBits_nil : streamBits [] = [] := rfl

@[simp] theorem streamBits_length (l : List Byte) : (streamBits l).length = 8 * l.length := by simp [streamBits]

theorem streamBits_snoc (l : List Byte) (b : Byte) : streamBits (l ++ [b]) = streamBits l ++ byteBits b := by
  simp only [streamBits, byteBits, List.length_append, List.length_singleton, Nat.mul_add, Nat.mul_one,
    List.range_add, List.map_append, List.map_map]
  congr 1
  · apply List.map_congr_left
    intro q hq
    have h : q / 8 < l.length := by have := List.mem_range.1 hq; omega
    simp only [unpackBit, List.getD]
    rw [List.getElem?_append_left h]
  · apply List.map_congr_left
    intro i hi
    have hi := List.mem_range.1 hi
    have h1 : (8 * l.length + i) / 8 = l.length := by omega
    have h2 : (8 * l.length + i) % 8 = i := by omega
    simp [unpackBit, h1, h2]

theorem streamBits_append (l r : List Byte) : streamBits (l ++ r) = streamBits l ++ streamBits r := by
  induction r using List.reverseRecOn with
  | nil => simp
  | append_singleton r b ih => rw [← List.append_assoc, streamBits_snoc, ih, streamBits_snoc, List.append_assoc]

@[simp] theorem streamBits_cons (b : Byte) (l : List Byte) : streamBits (b :: l) = byteBits b ++ streamBits l := by
  rw [show b :: l = [] ++ [b] ++ l by simp, streamBits_append, streamBits_snoc]; simp

theorem byteBits_injective (a b : Byte) (h : byteBits a = byteBits b) : a = b := by
  apply BitVec.eq_of_getLsbD_eq
  intro i hi
  have := congrArg (fun l => l[7 - i]?) h
  simp only [byteBits, List.getElem?_map] at this
  rw [List.getElem?_range (by omega)] at this
  simp only [Option.map_some, Option.some.injEq] at this
  rwa [show 7 - (7 - i) = i by omega] at this

theorem streamBits_injective : ∀ l r : List Byte, streamBits l = streamBits r → l = r
  | [], [], _ => rfl
  | [], b :: r, h => by simp [byteBits] at h
  | b :: l, [], h => by simp [byteBits] at h
  | a :: l, b :: r, h => by
    rw [streamBits_cons, streamBits_cons] at h
    have h' := List.append_inj h (by simp)
    rw [byteBits_injective _ _ h'.1, streamBits_injective l r h'.2]

/-- Stream bit `q` of the first `n` bytes of a buffer (R14, R81). -/
theorem streamBits_bytes_getElem (m : Memory) (n q : Nat) (h : q < (streamBits (m.bytes n)).length) :
    (streamBits (m.bytes n))[q] = unpackBit m.read q := by
  simp only [streamBits_length, Memory.bytes_length] at h
  simp only [streamBits, List.getElem_map, List.getElem_range, unpackBit]
  rw [Memory.bytes_getD m n _ _ (by omega)]

/-! ## Packing -/

@[simp] theorem pack_length (bits : List Bool) : (pack bits).length = (bits.length + 7) / 8 := by simp [pack]

theorem foldl_bits_testBit (f : Nat → Bool) (n i : Nat) (h : i < n) :
    ((List.range n).foldl (fun v k => 2 * v + (f k).toNat) 0).testBit (n - 1 - i) = f i := by
  induction n with
  | zero => omega
  | succ n ih =>
    rw [List.range_succ, List.foldl_append, List.foldl_cons, List.foldl_nil]
    by_cases hi : i = n
    · subst hi
      simp only [show i + 1 - 1 - i = 0 by omega, Nat.testBit_zero]
      cases f i <;> simp [Nat.add_mod]
    · have e : n + 1 - 1 - i = (n - 1 - i) + 1 := by omega
      rw [e, Nat.testBit_succ, ← ih (by omega)]
      congr 1
      cases f n <;> (simp; try omega)

theorem byteBits_packByte (bits : List Bool) (j : Nat) :
    byteBits (packByte bits j) = (List.range 8).map (fun i => bits.getD (8 * j + i) false) := by
  apply List.map_congr_left
  intro i hi
  have hi := List.mem_range.1 hi
  rw [packByte, BitVec.getLsbD_ofNat]
  have := foldl_bits_testBit (fun i => bits.getD (8 * j + i) false) 8 i hi
  rw [show 8 - 1 - i = 7 - i by omega] at this
  rw [this, decide_eq_true (by omega), Bool.true_and]

theorem range_mul_eight {α : Type} (f : Nat → α) (n : Nat) :
    (List.range n).flatMap (fun j => (List.range 8).map (fun i => f (8 * j + i))) = (List.range (8 * n)).map f := by
  induction n with
  | zero => simp
  | succ n ih =>
    rw [show List.range (n + 1) = List.range n ++ [n] from List.range_succ, List.flatMap_append, ih, Nat.mul_add, Nat.mul_one, List.range_add, List.map_append,
      List.map_map]
    simp only [List.flatMap_cons, List.flatMap_nil, List.append_nil]
    rfl

theorem streamBits_eq_flatMap (l : List Byte) : streamBits l = l.flatMap byteBits := by
  induction l with
  | nil => rfl
  | cons b l ih => rw [streamBits_cons, ih, List.flatMap_cons]

theorem map_getD_range (bits : List Bool) (n : Nat) (h : bits.length ≤ n) :
    (List.range n).map (fun i => bits.getD i false) = bits ++ List.replicate (n - bits.length) false := by
  apply List.ext_getElem
  · simp; omega
  · intro i h1 h2
    simp only [List.getElem_map, List.getElem_range, List.getD]
    by_cases hi : i < bits.length
    · rw [List.getElem_append_left hi]; simp [hi]
    · rw [List.getElem_append_right (by omega)]; simp [hi]

/-- Unpacking a packed bit string gives the bits followed by the padding zeros (R14). -/
theorem streamBits_pack (bits : List Bool) :
    streamBits (pack bits) = bits ++ List.replicate (padcount bits) false := by
  rw [streamBits_eq_flatMap, pack, List.flatMap_map]
  simp only [byteBits_packByte]
  rw [range_mul_eight (fun i => bits.getD i false), map_getD_range _ _ (by omega)]
  congr 2
  unfold padcount
  omega

/-- A byte list whose bits are a bit string and its padding is the packed bit string. -/
theorem eq_pack_of_streamBits (l : List Byte) (bits : List Bool)
    (h : streamBits l = bits ++ List.replicate (padcount bits) false) : l = pack bits :=
  streamBits_injective _ _ (h.trans (streamBits_pack bits).symm)

theorem padcount_lt (bits : List Bool) : padcount bits < 8 := Nat.mod_lt _ (by omega)

/-! ## Values of bit strings -/

theorem bitsValue_snoc (l : List Bool) (b : Bool) : bitsValue (l ++ [b]) = 2 * bitsValue l + b.toNat := by
  simp [bitsValue]

theorem bitsValue_lt (l : List Bool) : bitsValue l < 2 ^ l.length := by
  induction l using List.reverseRecOn with
  | nil => simp [bitsValue]
  | append_singleton l b ih =>
    rw [bitsValue_snoc, List.length_append, List.length_singleton, pow_succ]
    cases b <;> (simp; try omega)

/-- Bit `k` of a bit string is the bit of weight `2^(len-1-k)` of its value. -/
theorem bitsValue_testBit (l : List Bool) (k : Nat) (h : k < l.length) :
    (bitsValue l).testBit (l.length - 1 - k) = l[k] := by
  induction l using List.reverseRecOn with
  | nil => simp at h
  | append_singleton l b ih =>
    rw [bitsValue_snoc]
    simp only [List.length_append, List.length_singleton] at h ⊢
    by_cases hk : k = l.length
    · subst hk
      simp only [show l.length + 1 - 1 - l.length = 0 by omega, Nat.testBit_zero]
      cases b <;> simp [Nat.add_mod]
    · rw [show l.length + 1 - 1 - k = (l.length - 1 - k) + 1 by omega, Nat.testBit_succ,
        List.getElem_append_left (by omega), ← ih (by omega)]
      congr 1
      cases b <;> (simp; try omega)

@[simp] theorem msbBits_length (v : Word) (n : Nat) : (msbBits v n).length = n := by
  induction n with
  | zero => rfl
  | succ n ih => simp [msbBits, ih]

theorem msbBits_eq_map (v : Word) (n : Nat) :
    msbBits v n = (List.range n).map (fun i => v.getLsbD (n - 1 - i)) := by
  induction n with
  | zero => rfl
  | succ n ih =>
    rw [msbBits, ih, List.range_succ_eq_map, List.map_cons, List.map_map]
    congr 1
    apply List.map_congr_left
    intro i hi
    have := List.mem_range.1 hi
    simp only [Function.comp]
    congr 1
    omega

/-- The value of the low `n` bits of a word. -/
theorem bitsValue_msbBits (v : Word) (n : Nat) : bitsValue (msbBits v n) = v.toNat % 2 ^ n := by
  apply Nat.eq_of_testBit_eq
  intro j
  rw [Nat.testBit_mod_two_pow]
  by_cases hj : j < n
  · have h := bitsValue_testBit (msbBits v n) (n - 1 - j) (by simp; omega)
    simp only [msbBits_length, show n - 1 - (n - 1 - j) = j by omega] at h
    rw [h]
    simp only [msbBits_eq_map, List.getElem_map, List.getElem_range, show n - 1 - (n - 1 - j) = j by omega, hj,
      decide_true, Bool.true_and, BitVec.testBit_toNat]
  · have h := bitsValue_lt (msbBits v n)
    rw [msbBits_length] at h
    simp only [hj, decide_false, Bool.false_and]
    exact Nat.testBit_lt_two_pow (lt_of_lt_of_le h (Nat.pow_le_pow_right (by omega) (by omega)))

/-! ## Big-endian fields -/

@[simp] theorem be16_length (v : Nat) : (be16 v).length = 2 := rfl
@[simp] theorem be32_length (v : Nat) : (be32 v).length = 4 := rfl

theorem beValue_be16 (v : Nat) (h : v < 2 ^ 16) : beValue (be16 v) = v := by
  simp [beValue, be16]; omega

theorem beValue_be32 (v : Nat) (h : v < 2 ^ 32) : beValue (be32 v) = v := by
  simp [beValue, be32]; omega

end Sys2Proof.Machine
end

