-- ==== Sys2Proof/Laws/State.lean ====
section
/-! SUPPORT. One lemma per field per named update of State, so that no proof unfolds an update. -/

namespace Sys2Proof.Machine

/-! ## `State.completed` -/

@[simp] theorem State.completed_params (s : State) (e : ErrCode) (x : Word) : (s.completed e x).params =
    s.params := rfl
@[simp] theorem State.completed_irqEn (s : State) (e : ErrCode) (x : Word) : (s.completed e x).irqEn = s.irqEn := rfl
@[simp] theorem State.completed_op (s : State) (e : ErrCode) (x : Word) : (s.completed e x).op = s.op := rfl
@[simp] theorem State.completed_status (s : State) (e : ErrCode) (x : Word) : (s.completed e x).status =
    { s.status with busy := false, done := true, errcode := e } := rfl
@[simp] theorem State.completed_errinfo (s : State) (e : ErrCode) (x : Word) : (s.completed e x).errinfo = x := rfl
@[simp] theorem State.completed_srcLen (s : State) (e : ErrCode) (x : Word) : (s.completed e x).srcLen =
    s.srcLen := rfl
@[simp] theorem State.completed_dstCap (s : State) (e : ErrCode) (x : Word) : (s.completed e x).dstCap =
    s.dstCap := rfl
@[simp] theorem State.completed_packer (s : State) (e : ErrCode) (x : Word) : (s.completed e x).packer =
    s.packer := rfl
@[simp] theorem State.completed_pos (s : State) (e : ErrCode) (x : Word) : (s.completed e x).pos = s.pos := rfl
@[simp] theorem State.completed_bpValue (s : State) (e : ErrCode) (x : Word) : (s.completed e x).bpValue =
    s.bpValue := rfl
@[simp] theorem State.completed_bpNbits (s : State) (e : ErrCode) (x : Word) : (s.completed e x).bpNbits =
    s.bpNbits := rfl
@[simp] theorem State.completed_buNbits (s : State) (e : ErrCode) (x : Word) : (s.completed e x).buNbits =
    s.buNbits := rfl
@[simp] theorem State.completed_buValue (s : State) (e : ErrCode) (x : Word) : (s.completed e x).buValue =
    s.buValue := rfl
@[simp] theorem State.completed_buPos (s : State) (e : ErrCode) (x : Word) : (s.completed e x).buPos = s.buPos := rfl
@[simp] theorem State.completed_matchReg (s : State) (e : ErrCode) (x : Word) : (s.completed e x).matchReg =
    s.matchReg := rfl
@[simp] theorem State.completed_runReg (s : State) (e : ErrCode) (x : Word) : (s.completed e x).runReg =
    s.runReg := rfl
@[simp] theorem State.completed_hufNsym (s : State) (e : ErrCode) (x : Word) : (s.completed e x).hufNsym =
    s.hufNsym := rfl
@[simp] theorem State.completed_lzNtok (s : State) (e : ErrCode) (x : Word) : (s.completed e x).lzNtok =
    s.lzNtok := rfl
@[simp] theorem State.completed_freq (s : State) (e : ErrCode) (x : Word) : (s.completed e x).freq = s.freq := rfl
@[simp] theorem State.completed_codeLen (s : State) (e : ErrCode) (x : Word) : (s.completed e x).codeLen =
    s.codeLen := rfl
@[simp] theorem State.completed_code (s : State) (e : ErrCode) (x : Word) : (s.completed e x).code = s.code := rfl
@[simp] theorem State.completed_inBuf (s : State) (e : ErrCode) (x : Word) : (s.completed e x).inBuf = s.inBuf := rfl
@[simp] theorem State.completed_outBuf (s : State) (e : ErrCode) (x : Word) : (s.completed e x).outBuf =
    s.outBuf := rfl
@[simp] theorem State.completed_host (s : State) (e : ErrCode) (x : Word) : (s.completed e x).host = s.host := rfl
@[simp] theorem State.completed_resetIn (s : State) (e : ErrCode) (x : Word) : (s.completed e x).resetIn =
    s.resetIn := rfl
@[simp] theorem State.completed_wait (s : State) (e : ErrCode) (x : Word) : (s.completed e x).wait = s.wait := rfl
@[simp] theorem State.completed_draws (s : State) (e : ErrCode) (x : Word) : (s.completed e x).draws = s.draws := rfl

/-! ## `State.nextDraw` -/

@[simp] theorem State.nextDraw_params (s : State) : s.nextDraw.params = s.params := rfl
@[simp] theorem State.nextDraw_irqEn (s : State) : s.nextDraw.irqEn = s.irqEn := rfl
@[simp] theorem State.nextDraw_op (s : State) : s.nextDraw.op = s.op := rfl
@[simp] theorem State.nextDraw_status (s : State) : s.nextDraw.status = s.status := rfl
@[simp] theorem State.nextDraw_errinfo (s : State) : s.nextDraw.errinfo = s.errinfo := rfl
@[simp] theorem State.nextDraw_srcLen (s : State) : s.nextDraw.srcLen = s.srcLen := rfl
@[simp] theorem State.nextDraw_dstCap (s : State) : s.nextDraw.dstCap = s.dstCap := rfl
@[simp] theorem State.nextDraw_packer (s : State) : s.nextDraw.packer = s.packer := rfl
@[simp] theorem State.nextDraw_pos (s : State) : s.nextDraw.pos = s.pos := rfl
@[simp] theorem State.nextDraw_bpValue (s : State) : s.nextDraw.bpValue = s.bpValue := rfl
@[simp] theorem State.nextDraw_bpNbits (s : State) : s.nextDraw.bpNbits = s.bpNbits := rfl
@[simp] theorem State.nextDraw_buNbits (s : State) : s.nextDraw.buNbits = s.buNbits := rfl
@[simp] theorem State.nextDraw_buValue (s : State) : s.nextDraw.buValue = s.buValue := rfl
@[simp] theorem State.nextDraw_buPos (s : State) : s.nextDraw.buPos = s.buPos := rfl
@[simp] theorem State.nextDraw_matchReg (s : State) : s.nextDraw.matchReg = s.matchReg := rfl
@[simp] theorem State.nextDraw_runReg (s : State) : s.nextDraw.runReg = s.runReg := rfl
@[simp] theorem State.nextDraw_hufNsym (s : State) : s.nextDraw.hufNsym = s.hufNsym := rfl
@[simp] theorem State.nextDraw_lzNtok (s : State) : s.nextDraw.lzNtok = s.lzNtok := rfl
@[simp] theorem State.nextDraw_freq (s : State) : s.nextDraw.freq = s.freq := rfl
@[simp] theorem State.nextDraw_codeLen (s : State) : s.nextDraw.codeLen = s.codeLen := rfl
@[simp] theorem State.nextDraw_code (s : State) : s.nextDraw.code = s.code := rfl
@[simp] theorem State.nextDraw_inBuf (s : State) : s.nextDraw.inBuf = s.inBuf := rfl
@[simp] theorem State.nextDraw_outBuf (s : State) : s.nextDraw.outBuf = s.outBuf := rfl
@[simp] theorem State.nextDraw_host (s : State) : s.nextDraw.host = s.host := rfl
@[simp] theorem State.nextDraw_resetIn (s : State) : s.nextDraw.resetIn = s.resetIn := rfl
@[simp] theorem State.nextDraw_wait (s : State) : s.nextDraw.wait = s.wait := rfl
@[simp] theorem State.nextDraw_draws (s : State) : s.nextDraw.draws = s.draws + 1 := rfl

/-! ## `State.forgetOut` -/

@[simp] theorem State.forgetOut_params (s : State) (c : Nat) : (s.forgetOut c).params = s.params := rfl
@[simp] theorem State.forgetOut_irqEn (s : State) (c : Nat) : (s.forgetOut c).irqEn = s.irqEn := rfl
@[simp] theorem State.forgetOut_op (s : State) (c : Nat) : (s.forgetOut c).op = s.op := rfl
@[simp] theorem State.forgetOut_status (s : State) (c : Nat) : (s.forgetOut c).status = s.status := rfl
@[simp] theorem State.forgetOut_errinfo (s : State) (c : Nat) : (s.forgetOut c).errinfo = s.errinfo := rfl
@[simp] theorem State.forgetOut_srcLen (s : State) (c : Nat) : (s.forgetOut c).srcLen = s.srcLen := rfl
@[simp] theorem State.forgetOut_dstCap (s : State) (c : Nat) : (s.forgetOut c).dstCap = s.dstCap := rfl
@[simp] theorem State.forgetOut_packer (s : State) (c : Nat) : (s.forgetOut c).packer = s.packer := rfl
@[simp] theorem State.forgetOut_pos (s : State) (c : Nat) : (s.forgetOut c).pos = s.pos := rfl
@[simp] theorem State.forgetOut_bpValue (s : State) (c : Nat) : (s.forgetOut c).bpValue = s.bpValue := rfl
@[simp] theorem State.forgetOut_bpNbits (s : State) (c : Nat) : (s.forgetOut c).bpNbits = s.bpNbits := rfl
@[simp] theorem State.forgetOut_buNbits (s : State) (c : Nat) : (s.forgetOut c).buNbits = s.buNbits := rfl
@[simp] theorem State.forgetOut_buValue (s : State) (c : Nat) : (s.forgetOut c).buValue = s.buValue := rfl
@[simp] theorem State.forgetOut_buPos (s : State) (c : Nat) : (s.forgetOut c).buPos = s.buPos := rfl
@[simp] theorem State.forgetOut_matchReg (s : State) (c : Nat) : (s.forgetOut c).matchReg = s.matchReg := rfl
@[simp] theorem State.forgetOut_runReg (s : State) (c : Nat) : (s.forgetOut c).runReg = s.runReg := rfl
@[simp] theorem State.forgetOut_hufNsym (s : State) (c : Nat) : (s.forgetOut c).hufNsym = s.hufNsym := rfl
@[simp] theorem State.forgetOut_lzNtok (s : State) (c : Nat) : (s.forgetOut c).lzNtok = s.lzNtok := rfl
@[simp] theorem State.forgetOut_freq (s : State) (c : Nat) : (s.forgetOut c).freq = s.freq := rfl
@[simp] theorem State.forgetOut_codeLen (s : State) (c : Nat) : (s.forgetOut c).codeLen = s.codeLen := rfl
@[simp] theorem State.forgetOut_code (s : State) (c : Nat) : (s.forgetOut c).code = s.code := rfl
@[simp] theorem State.forgetOut_inBuf (s : State) (c : Nat) : (s.forgetOut c).inBuf = s.inBuf := rfl
@[simp] theorem State.forgetOut_outBuf (s : State) (c : Nat) : (s.forgetOut c).outBuf =
    s.outBuf.forget c s.draws := rfl
@[simp] theorem State.forgetOut_host (s : State) (c : Nat) : (s.forgetOut c).host = s.host := rfl
@[simp] theorem State.forgetOut_resetIn (s : State) (c : Nat) : (s.forgetOut c).resetIn = s.resetIn := rfl
@[simp] theorem State.forgetOut_wait (s : State) (c : Nat) : (s.forgetOut c).wait = s.wait := rfl
@[simp] theorem State.forgetOut_draws (s : State) (c : Nat) : (s.forgetOut c).draws = s.draws + 1 := rfl

/-! ## `State.setPacked` -/

@[simp] theorem State.setPacked_params (s : State) (pm : Packer × Memory) : (s.setPacked pm).params = s.params := rfl
@[simp] theorem State.setPacked_irqEn (s : State) (pm : Packer × Memory) : (s.setPacked pm).irqEn = s.irqEn := rfl
@[simp] theorem State.setPacked_op (s : State) (pm : Packer × Memory) : (s.setPacked pm).op = s.op := rfl
@[simp] theorem State.setPacked_status (s : State) (pm : Packer × Memory) : (s.setPacked pm).status = s.status := rfl
@[simp] theorem State.setPacked_errinfo (s : State) (pm : Packer × Memory) : (s.setPacked pm).errinfo =
    s.errinfo := rfl
@[simp] theorem State.setPacked_srcLen (s : State) (pm : Packer × Memory) : (s.setPacked pm).srcLen = s.srcLen := rfl
@[simp] theorem State.setPacked_dstCap (s : State) (pm : Packer × Memory) : (s.setPacked pm).dstCap = s.dstCap := rfl
@[simp] theorem State.setPacked_packer (s : State) (pm : Packer × Memory) : (s.setPacked pm).packer = pm.1 := rfl
@[simp] theorem State.setPacked_pos (s : State) (pm : Packer × Memory) : (s.setPacked pm).pos = s.pos := rfl
@[simp] theorem State.setPacked_bpValue (s : State) (pm : Packer × Memory) : (s.setPacked pm).bpValue =
    s.bpValue := rfl
@[simp] theorem State.setPacked_bpNbits (s : State) (pm : Packer × Memory) : (s.setPacked pm).bpNbits =
    s.bpNbits := rfl
@[simp] theorem State.setPacked_buNbits (s : State) (pm : Packer × Memory) : (s.setPacked pm).buNbits =
    s.buNbits := rfl
@[simp] theorem State.setPacked_buValue (s : State) (pm : Packer × Memory) : (s.setPacked pm).buValue =
    s.buValue := rfl
@[simp] theorem State.setPacked_buPos (s : State) (pm : Packer × Memory) : (s.setPacked pm).buPos = s.buPos := rfl
@[simp] theorem State.setPacked_matchReg (s : State) (pm : Packer × Memory) : (s.setPacked pm).matchReg =
    s.matchReg := rfl
@[simp] theorem State.setPacked_runReg (s : State) (pm : Packer × Memory) : (s.setPacked pm).runReg = s.runReg := rfl
@[simp] theorem State.setPacked_hufNsym (s : State) (pm : Packer × Memory) : (s.setPacked pm).hufNsym =
    s.hufNsym := rfl
@[simp] theorem State.setPacked_lzNtok (s : State) (pm : Packer × Memory) : (s.setPacked pm).lzNtok = s.lzNtok := rfl
@[simp] theorem State.setPacked_freq (s : State) (pm : Packer × Memory) : (s.setPacked pm).freq = s.freq := rfl
@[simp] theorem State.setPacked_codeLen (s : State) (pm : Packer × Memory) : (s.setPacked pm).codeLen =
    s.codeLen := rfl
@[simp] theorem State.setPacked_code (s : State) (pm : Packer × Memory) : (s.setPacked pm).code = s.code := rfl
@[simp] theorem State.setPacked_inBuf (s : State) (pm : Packer × Memory) : (s.setPacked pm).inBuf = s.inBuf := rfl
@[simp] theorem State.setPacked_outBuf (s : State) (pm : Packer × Memory) : (s.setPacked pm).outBuf = pm.2 := rfl
@[simp] theorem State.setPacked_host (s : State) (pm : Packer × Memory) : (s.setPacked pm).host = s.host := rfl
@[simp] theorem State.setPacked_resetIn (s : State) (pm : Packer × Memory) : (s.setPacked pm).resetIn =
    s.resetIn := rfl
@[simp] theorem State.setPacked_wait (s : State) (pm : Packer × Memory) : (s.setPacked pm).wait = s.wait := rfl
@[simp] theorem State.setPacked_draws (s : State) (pm : Packer × Memory) : (s.setPacked pm).draws = s.draws := rfl

/-! ## `State.setPacker` -/

@[simp] theorem State.setPacker_params (s : State) (p : Packer) : (s.setPacker p).params = s.params := rfl
@[simp] theorem State.setPacker_irqEn (s : State) (p : Packer) : (s.setPacker p).irqEn = s.irqEn := rfl
@[simp] theorem State.setPacker_op (s : State) (p : Packer) : (s.setPacker p).op = s.op := rfl
@[simp] theorem State.setPacker_status (s : State) (p : Packer) : (s.setPacker p).status = s.status := rfl
@[simp] theorem State.setPacker_errinfo (s : State) (p : Packer) : (s.setPacker p).errinfo = s.errinfo := rfl
@[simp] theorem State.setPacker_srcLen (s : State) (p : Packer) : (s.setPacker p).srcLen = s.srcLen := rfl
@[simp] theorem State.setPacker_dstCap (s : State) (p : Packer) : (s.setPacker p).dstCap = s.dstCap := rfl
@[simp] theorem State.setPacker_packer (s : State) (p : Packer) : (s.setPacker p).packer = p := rfl
@[simp] theorem State.setPacker_pos (s : State) (p : Packer) : (s.setPacker p).pos = s.pos := rfl
@[simp] theorem State.setPacker_bpValue (s : State) (p : Packer) : (s.setPacker p).bpValue = s.bpValue := rfl
@[simp] theorem State.setPacker_bpNbits (s : State) (p : Packer) : (s.setPacker p).bpNbits = s.bpNbits := rfl
@[simp] theorem State.setPacker_buNbits (s : State) (p : Packer) : (s.setPacker p).buNbits = s.buNbits := rfl
@[simp] theorem State.setPacker_buValue (s : State) (p : Packer) : (s.setPacker p).buValue = s.buValue := rfl
@[simp] theorem State.setPacker_buPos (s : State) (p : Packer) : (s.setPacker p).buPos = s.buPos := rfl
@[simp] theorem State.setPacker_matchReg (s : State) (p : Packer) : (s.setPacker p).matchReg = s.matchReg := rfl
@[simp] theorem State.setPacker_runReg (s : State) (p : Packer) : (s.setPacker p).runReg = s.runReg := rfl
@[simp] theorem State.setPacker_hufNsym (s : State) (p : Packer) : (s.setPacker p).hufNsym = s.hufNsym := rfl
@[simp] theorem State.setPacker_lzNtok (s : State) (p : Packer) : (s.setPacker p).lzNtok = s.lzNtok := rfl
@[simp] theorem State.setPacker_freq (s : State) (p : Packer) : (s.setPacker p).freq = s.freq := rfl
@[simp] theorem State.setPacker_codeLen (s : State) (p : Packer) : (s.setPacker p).codeLen = s.codeLen := rfl
@[simp] theorem State.setPacker_code (s : State) (p : Packer) : (s.setPacker p).code = s.code := rfl
@[simp] theorem State.setPacker_inBuf (s : State) (p : Packer) : (s.setPacker p).inBuf = s.inBuf := rfl
@[simp] theorem State.setPacker_outBuf (s : State) (p : Packer) : (s.setPacker p).outBuf = s.outBuf := rfl
@[simp] theorem State.setPacker_host (s : State) (p : Packer) : (s.setPacker p).host = s.host := rfl
@[simp] theorem State.setPacker_resetIn (s : State) (p : Packer) : (s.setPacker p).resetIn = s.resetIn := rfl
@[simp] theorem State.setPacker_wait (s : State) (p : Packer) : (s.setPacker p).wait = s.wait := rfl
@[simp] theorem State.setPacker_draws (s : State) (p : Packer) : (s.setPacker p).draws = s.draws := rfl

/-! ## `State.setUnpacked` -/

@[simp] theorem State.setUnpacked_params (s : State) (v q : Word) : (s.setUnpacked v q).params = s.params := rfl
@[simp] theorem State.setUnpacked_irqEn (s : State) (v q : Word) : (s.setUnpacked v q).irqEn = s.irqEn := rfl
@[simp] theorem State.setUnpacked_op (s : State) (v q : Word) : (s.setUnpacked v q).op = s.op := rfl
@[simp] theorem State.setUnpacked_status (s : State) (v q : Word) : (s.setUnpacked v q).status = s.status := rfl
@[simp] theorem State.setUnpacked_errinfo (s : State) (v q : Word) : (s.setUnpacked v q).errinfo = s.errinfo := rfl
@[simp] theorem State.setUnpacked_srcLen (s : State) (v q : Word) : (s.setUnpacked v q).srcLen = s.srcLen := rfl
@[simp] theorem State.setUnpacked_dstCap (s : State) (v q : Word) : (s.setUnpacked v q).dstCap = s.dstCap := rfl
@[simp] theorem State.setUnpacked_packer (s : State) (v q : Word) : (s.setUnpacked v q).packer = s.packer := rfl
@[simp] theorem State.setUnpacked_pos (s : State) (v q : Word) : (s.setUnpacked v q).pos = s.pos := rfl
@[simp] theorem State.setUnpacked_bpValue (s : State) (v q : Word) : (s.setUnpacked v q).bpValue = s.bpValue := rfl
@[simp] theorem State.setUnpacked_bpNbits (s : State) (v q : Word) : (s.setUnpacked v q).bpNbits = s.bpNbits := rfl
@[simp] theorem State.setUnpacked_buNbits (s : State) (v q : Word) : (s.setUnpacked v q).buNbits = s.buNbits := rfl
@[simp] theorem State.setUnpacked_buValue (s : State) (v q : Word) : (s.setUnpacked v q).buValue = v := rfl
@[simp] theorem State.setUnpacked_buPos (s : State) (v q : Word) : (s.setUnpacked v q).buPos = q := rfl
@[simp] theorem State.setUnpacked_matchReg (s : State) (v q : Word) : (s.setUnpacked v q).matchReg = s.matchReg := rfl
@[simp] theorem State.setUnpacked_runReg (s : State) (v q : Word) : (s.setUnpacked v q).runReg = s.runReg := rfl
@[simp] theorem State.setUnpacked_hufNsym (s : State) (v q : Word) : (s.setUnpacked v q).hufNsym = s.hufNsym := rfl
@[simp] theorem State.setUnpacked_lzNtok (s : State) (v q : Word) : (s.setUnpacked v q).lzNtok = s.lzNtok := rfl
@[simp] theorem State.setUnpacked_freq (s : State) (v q : Word) : (s.setUnpacked v q).freq = s.freq := rfl
@[simp] theorem State.setUnpacked_codeLen (s : State) (v q : Word) : (s.setUnpacked v q).codeLen = s.codeLen := rfl
@[simp] theorem State.setUnpacked_code (s : State) (v q : Word) : (s.setUnpacked v q).code = s.code := rfl
@[simp] theorem State.setUnpacked_inBuf (s : State) (v q : Word) : (s.setUnpacked v q).inBuf = s.inBuf := rfl
@[simp] theorem State.setUnpacked_outBuf (s : State) (v q : Word) : (s.setUnpacked v q).outBuf = s.outBuf := rfl
@[simp] theorem State.setUnpacked_host (s : State) (v q : Word) : (s.setUnpacked v q).host = s.host := rfl
@[simp] theorem State.setUnpacked_resetIn (s : State) (v q : Word) : (s.setUnpacked v q).resetIn = s.resetIn := rfl
@[simp] theorem State.setUnpacked_wait (s : State) (v q : Word) : (s.setUnpacked v q).wait = s.wait := rfl
@[simp] theorem State.setUnpacked_draws (s : State) (v q : Word) : (s.setUnpacked v q).draws = s.draws := rfl

/-! ## `State.setTables` -/

@[simp] theorem State.setTables_params (s : State) (l : List Byte) : (s.setTables l).params = s.params := rfl
@[simp] theorem State.setTables_irqEn (s : State) (l : List Byte) : (s.setTables l).irqEn = s.irqEn := rfl
@[simp] theorem State.setTables_op (s : State) (l : List Byte) : (s.setTables l).op = s.op := rfl
@[simp] theorem State.setTables_status (s : State) (l : List Byte) : (s.setTables l).status = s.status := rfl
@[simp] theorem State.setTables_errinfo (s : State) (l : List Byte) : (s.setTables l).errinfo = s.errinfo := rfl
@[simp] theorem State.setTables_srcLen (s : State) (l : List Byte) : (s.setTables l).srcLen = s.srcLen := rfl
@[simp] theorem State.setTables_dstCap (s : State) (l : List Byte) : (s.setTables l).dstCap = s.dstCap := rfl
@[simp] theorem State.setTables_packer (s : State) (l : List Byte) : (s.setTables l).packer = s.packer := rfl
@[simp] theorem State.setTables_pos (s : State) (l : List Byte) : (s.setTables l).pos = s.pos := rfl
@[simp] theorem State.setTables_bpValue (s : State) (l : List Byte) : (s.setTables l).bpValue = s.bpValue := rfl
@[simp] theorem State.setTables_bpNbits (s : State) (l : List Byte) : (s.setTables l).bpNbits = s.bpNbits := rfl
@[simp] theorem State.setTables_buNbits (s : State) (l : List Byte) : (s.setTables l).buNbits = s.buNbits := rfl
@[simp] theorem State.setTables_buValue (s : State) (l : List Byte) : (s.setTables l).buValue = s.buValue := rfl
@[simp] theorem State.setTables_buPos (s : State) (l : List Byte) : (s.setTables l).buPos = s.buPos := rfl
@[simp] theorem State.setTables_matchReg (s : State) (l : List Byte) : (s.setTables l).matchReg = s.matchReg := rfl
@[simp] theorem State.setTables_runReg (s : State) (l : List Byte) : (s.setTables l).runReg = s.runReg := rfl
@[simp] theorem State.setTables_hufNsym (s : State) (l : List Byte) : (s.setTables l).hufNsym =
    BitVec.ofNat 9 (symbols (freqOf l)).length := rfl
@[simp] theorem State.setTables_lzNtok (s : State) (l : List Byte) : (s.setTables l).lzNtok = s.lzNtok := rfl
@[simp] theorem State.setTables_freq (s : State) (l : List Byte) : (s.setTables l).freq =
    tableOf (fun b => BitVec.ofNat 32 (freqOf l b)) := rfl
@[simp] theorem State.setTables_codeLen (s : State) (l : List Byte) : (s.setTables l).codeLen =
    tableOf (fun b => BitVec.ofNat 8 (codeTable (freqOf l) b).length) := rfl
@[simp] theorem State.setTables_code (s : State) (l : List Byte) : (s.setTables l).code =
    tableOf (fun b => BitVec.ofNat 256 (bitsValue (codeTable (freqOf l) b))) := rfl
@[simp] theorem State.setTables_inBuf (s : State) (l : List Byte) : (s.setTables l).inBuf = s.inBuf := rfl
@[simp] theorem State.setTables_outBuf (s : State) (l : List Byte) : (s.setTables l).outBuf = s.outBuf := rfl
@[simp] theorem State.setTables_host (s : State) (l : List Byte) : (s.setTables l).host = s.host := rfl
@[simp] theorem State.setTables_resetIn (s : State) (l : List Byte) : (s.setTables l).resetIn = s.resetIn := rfl
@[simp] theorem State.setTables_wait (s : State) (l : List Byte) : (s.setTables l).wait = s.wait := rfl
@[simp] theorem State.setTables_draws (s : State) (l : List Byte) : (s.setTables l).draws = s.draws := rfl

/-! ## `State.started` -/

@[simp] theorem State.started_params (s : State) : s.started.params = s.params := rfl
@[simp] theorem State.started_irqEn (s : State) : s.started.irqEn = s.irqEn := rfl
@[simp] theorem State.started_op (s : State) : s.started.op = s.op := rfl
@[simp] theorem State.started_status (s : State) : s.started.status = s.status.started := rfl
@[simp] theorem State.started_errinfo (s : State) : s.started.errinfo = s.errinfo := rfl
@[simp] theorem State.started_srcLen (s : State) : s.started.srcLen = s.srcLen := rfl
@[simp] theorem State.started_dstCap (s : State) : s.started.dstCap = s.dstCap := rfl
@[simp] theorem State.started_packer (s : State) : s.started.packer = s.packer := rfl
@[simp] theorem State.started_pos (s : State) : s.started.pos = s.pos := rfl
@[simp] theorem State.started_bpValue (s : State) : s.started.bpValue = s.bpValue := rfl
@[simp] theorem State.started_bpNbits (s : State) : s.started.bpNbits = s.bpNbits := rfl
@[simp] theorem State.started_buNbits (s : State) : s.started.buNbits = s.buNbits := rfl
@[simp] theorem State.started_buValue (s : State) : s.started.buValue = s.buValue := rfl
@[simp] theorem State.started_buPos (s : State) : s.started.buPos = s.buPos := rfl
@[simp] theorem State.started_matchReg (s : State) : s.started.matchReg = s.matchReg := rfl
@[simp] theorem State.started_runReg (s : State) : s.started.runReg = s.runReg := rfl
@[simp] theorem State.started_hufNsym (s : State) : s.started.hufNsym = s.hufNsym := rfl
@[simp] theorem State.started_lzNtok (s : State) : s.started.lzNtok = s.lzNtok := rfl
@[simp] theorem State.started_freq (s : State) : s.started.freq = s.freq := rfl
@[simp] theorem State.started_codeLen (s : State) : s.started.codeLen = s.codeLen := rfl
@[simp] theorem State.started_code (s : State) : s.started.code = s.code := rfl
@[simp] theorem State.started_inBuf (s : State) : s.started.inBuf = s.inBuf := rfl
@[simp] theorem State.started_outBuf (s : State) : s.started.outBuf = s.outBuf := rfl
@[simp] theorem State.started_host (s : State) : s.started.host = s.host := rfl
@[simp] theorem State.started_resetIn (s : State) : s.started.resetIn = s.resetIn := rfl
@[simp] theorem State.started_wait (s : State) : s.started.wait = Config.freeWait s.draws := rfl
@[simp] theorem State.started_draws (s : State) : s.started.draws = s.draws + 1 := rfl

/-! ## `State.dropWrite` -/

@[simp] theorem State.dropWrite_params (s : State) : s.dropWrite.params = s.params := rfl
@[simp] theorem State.dropWrite_irqEn (s : State) : s.dropWrite.irqEn = s.irqEn := rfl
@[simp] theorem State.dropWrite_op (s : State) : s.dropWrite.op = s.op := rfl
@[simp] theorem State.dropWrite_status (s : State) : s.dropWrite.status = { s.status with wbusy := true } := rfl
@[simp] theorem State.dropWrite_errinfo (s : State) : s.dropWrite.errinfo = s.errinfo := rfl
@[simp] theorem State.dropWrite_srcLen (s : State) : s.dropWrite.srcLen = s.srcLen := rfl
@[simp] theorem State.dropWrite_dstCap (s : State) : s.dropWrite.dstCap = s.dstCap := rfl
@[simp] theorem State.dropWrite_packer (s : State) : s.dropWrite.packer = s.packer := rfl
@[simp] theorem State.dropWrite_pos (s : State) : s.dropWrite.pos = s.pos := rfl
@[simp] theorem State.dropWrite_bpValue (s : State) : s.dropWrite.bpValue = s.bpValue := rfl
@[simp] theorem State.dropWrite_bpNbits (s : State) : s.dropWrite.bpNbits = s.bpNbits := rfl
@[simp] theorem State.dropWrite_buNbits (s : State) : s.dropWrite.buNbits = s.buNbits := rfl
@[simp] theorem State.dropWrite_buValue (s : State) : s.dropWrite.buValue = s.buValue := rfl
@[simp] theorem State.dropWrite_buPos (s : State) : s.dropWrite.buPos = s.buPos := rfl
@[simp] theorem State.dropWrite_matchReg (s : State) : s.dropWrite.matchReg = s.matchReg := rfl
@[simp] theorem State.dropWrite_runReg (s : State) : s.dropWrite.runReg = s.runReg := rfl
@[simp] theorem State.dropWrite_hufNsym (s : State) : s.dropWrite.hufNsym = s.hufNsym := rfl
@[simp] theorem State.dropWrite_lzNtok (s : State) : s.dropWrite.lzNtok = s.lzNtok := rfl
@[simp] theorem State.dropWrite_freq (s : State) : s.dropWrite.freq = s.freq := rfl
@[simp] theorem State.dropWrite_codeLen (s : State) : s.dropWrite.codeLen = s.codeLen := rfl
@[simp] theorem State.dropWrite_code (s : State) : s.dropWrite.code = s.code := rfl
@[simp] theorem State.dropWrite_inBuf (s : State) : s.dropWrite.inBuf = s.inBuf := rfl
@[simp] theorem State.dropWrite_outBuf (s : State) : s.dropWrite.outBuf = s.outBuf := rfl
@[simp] theorem State.dropWrite_host (s : State) : s.dropWrite.host = s.host := rfl
@[simp] theorem State.dropWrite_resetIn (s : State) : s.dropWrite.resetIn = s.resetIn := rfl
@[simp] theorem State.dropWrite_wait (s : State) : s.dropWrite.wait = s.wait := rfl
@[simp] theorem State.dropWrite_draws (s : State) : s.dropWrite.draws = s.draws := rfl

/-! ## `State.tick` -/

@[simp] theorem State.tick_params (s : State) : s.tick.params = s.params := rfl
@[simp] theorem State.tick_irqEn (s : State) : s.tick.irqEn = s.irqEn := rfl
@[simp] theorem State.tick_op (s : State) : s.tick.op = s.op := rfl
@[simp] theorem State.tick_status (s : State) : s.tick.status = s.status := rfl
@[simp] theorem State.tick_errinfo (s : State) : s.tick.errinfo = s.errinfo := rfl
@[simp] theorem State.tick_srcLen (s : State) : s.tick.srcLen = s.srcLen := rfl
@[simp] theorem State.tick_dstCap (s : State) : s.tick.dstCap = s.dstCap := rfl
@[simp] theorem State.tick_packer (s : State) : s.tick.packer = s.packer := rfl
@[simp] theorem State.tick_pos (s : State) : s.tick.pos = s.pos := rfl
@[simp] theorem State.tick_bpValue (s : State) : s.tick.bpValue = s.bpValue := rfl
@[simp] theorem State.tick_bpNbits (s : State) : s.tick.bpNbits = s.bpNbits := rfl
@[simp] theorem State.tick_buNbits (s : State) : s.tick.buNbits = s.buNbits := rfl
@[simp] theorem State.tick_buValue (s : State) : s.tick.buValue = s.buValue := rfl
@[simp] theorem State.tick_buPos (s : State) : s.tick.buPos = s.buPos := rfl
@[simp] theorem State.tick_matchReg (s : State) : s.tick.matchReg = s.matchReg := rfl
@[simp] theorem State.tick_runReg (s : State) : s.tick.runReg = s.runReg := rfl
@[simp] theorem State.tick_hufNsym (s : State) : s.tick.hufNsym = s.hufNsym := rfl
@[simp] theorem State.tick_lzNtok (s : State) : s.tick.lzNtok = s.lzNtok := rfl
@[simp] theorem State.tick_freq (s : State) : s.tick.freq = s.freq := rfl
@[simp] theorem State.tick_codeLen (s : State) : s.tick.codeLen = s.codeLen := rfl
@[simp] theorem State.tick_code (s : State) : s.tick.code = s.code := rfl
@[simp] theorem State.tick_inBuf (s : State) : s.tick.inBuf = s.inBuf := rfl
@[simp] theorem State.tick_outBuf (s : State) : s.tick.outBuf = s.outBuf := rfl
@[simp] theorem State.tick_host (s : State) : s.tick.host = s.host := rfl
@[simp] theorem State.tick_resetIn (s : State) : s.tick.resetIn = s.resetIn := rfl
@[simp] theorem State.tick_wait (s : State) : s.tick.wait = s.wait - 1 := rfl
@[simp] theorem State.tick_draws (s : State) : s.tick.draws = s.draws := rfl

/-! ## `State.setHost` -/

@[simp] theorem State.setHost_params (s : State) (h : HostAgent) : (s.setHost h).params = s.params := rfl
@[simp] theorem State.setHost_irqEn (s : State) (h : HostAgent) : (s.setHost h).irqEn = s.irqEn := rfl
@[simp] theorem State.setHost_op (s : State) (h : HostAgent) : (s.setHost h).op = s.op := rfl
@[simp] theorem State.setHost_status (s : State) (h : HostAgent) : (s.setHost h).status = s.status := rfl
@[simp] theorem State.setHost_errinfo (s : State) (h : HostAgent) : (s.setHost h).errinfo = s.errinfo := rfl
@[simp] theorem State.setHost_srcLen (s : State) (h : HostAgent) : (s.setHost h).srcLen = s.srcLen := rfl
@[simp] theorem State.setHost_dstCap (s : State) (h : HostAgent) : (s.setHost h).dstCap = s.dstCap := rfl
@[simp] theorem State.setHost_packer (s : State) (h : HostAgent) : (s.setHost h).packer = s.packer := rfl
@[simp] theorem State.setHost_pos (s : State) (h : HostAgent) : (s.setHost h).pos = s.pos := rfl
@[simp] theorem State.setHost_bpValue (s : State) (h : HostAgent) : (s.setHost h).bpValue = s.bpValue := rfl
@[simp] theorem State.setHost_bpNbits (s : State) (h : HostAgent) : (s.setHost h).bpNbits = s.bpNbits := rfl
@[simp] theorem State.setHost_buNbits (s : State) (h : HostAgent) : (s.setHost h).buNbits = s.buNbits := rfl
@[simp] theorem State.setHost_buValue (s : State) (h : HostAgent) : (s.setHost h).buValue = s.buValue := rfl
@[simp] theorem State.setHost_buPos (s : State) (h : HostAgent) : (s.setHost h).buPos = s.buPos := rfl
@[simp] theorem State.setHost_matchReg (s : State) (h : HostAgent) : (s.setHost h).matchReg = s.matchReg := rfl
@[simp] theorem State.setHost_runReg (s : State) (h : HostAgent) : (s.setHost h).runReg = s.runReg := rfl
@[simp] theorem State.setHost_hufNsym (s : State) (h : HostAgent) : (s.setHost h).hufNsym = s.hufNsym := rfl
@[simp] theorem State.setHost_lzNtok (s : State) (h : HostAgent) : (s.setHost h).lzNtok = s.lzNtok := rfl
@[simp] theorem State.setHost_freq (s : State) (h : HostAgent) : (s.setHost h).freq = s.freq := rfl
@[simp] theorem State.setHost_codeLen (s : State) (h : HostAgent) : (s.setHost h).codeLen = s.codeLen := rfl
@[simp] theorem State.setHost_code (s : State) (h : HostAgent) : (s.setHost h).code = s.code := rfl
@[simp] theorem State.setHost_inBuf (s : State) (h : HostAgent) : (s.setHost h).inBuf = s.inBuf := rfl
@[simp] theorem State.setHost_outBuf (s : State) (h : HostAgent) : (s.setHost h).outBuf = s.outBuf := rfl
@[simp] theorem State.setHost_host (s : State) (h : HostAgent) : (s.setHost h).host = h := rfl
@[simp] theorem State.setHost_resetIn (s : State) (h : HostAgent) : (s.setHost h).resetIn = s.resetIn := rfl
@[simp] theorem State.setHost_wait (s : State) (h : HostAgent) : (s.setHost h).wait = s.wait := rfl
@[simp] theorem State.setHost_draws (s : State) (h : HostAgent) : (s.setHost h).draws = s.draws := rfl

/-! ## `State.sampled` -/

@[simp] theorem State.sampled_params (s : State) : s.sampled.params = s.params := rfl
@[simp] theorem State.sampled_irqEn (s : State) : s.sampled.irqEn = s.irqEn := rfl
@[simp] theorem State.sampled_op (s : State) : s.sampled.op = s.op := rfl
@[simp] theorem State.sampled_status (s : State) : s.sampled.status = s.status := rfl
@[simp] theorem State.sampled_errinfo (s : State) : s.sampled.errinfo = s.errinfo := rfl
@[simp] theorem State.sampled_srcLen (s : State) : s.sampled.srcLen = s.srcLen := rfl
@[simp] theorem State.sampled_dstCap (s : State) : s.sampled.dstCap = s.dstCap := rfl
@[simp] theorem State.sampled_packer (s : State) : s.sampled.packer = s.packer := rfl
@[simp] theorem State.sampled_pos (s : State) : s.sampled.pos = s.pos := rfl
@[simp] theorem State.sampled_bpValue (s : State) : s.sampled.bpValue = s.bpValue := rfl
@[simp] theorem State.sampled_bpNbits (s : State) : s.sampled.bpNbits = s.bpNbits := rfl
@[simp] theorem State.sampled_buNbits (s : State) : s.sampled.buNbits = s.buNbits := rfl
@[simp] theorem State.sampled_buValue (s : State) : s.sampled.buValue = s.buValue := rfl
@[simp] theorem State.sampled_buPos (s : State) : s.sampled.buPos = s.buPos := rfl
@[simp] theorem State.sampled_matchReg (s : State) : s.sampled.matchReg = s.matchReg := rfl
@[simp] theorem State.sampled_runReg (s : State) : s.sampled.runReg = s.runReg := rfl
@[simp] theorem State.sampled_hufNsym (s : State) : s.sampled.hufNsym = s.hufNsym := rfl
@[simp] theorem State.sampled_lzNtok (s : State) : s.sampled.lzNtok = s.lzNtok := rfl
@[simp] theorem State.sampled_freq (s : State) : s.sampled.freq = s.freq := rfl
@[simp] theorem State.sampled_codeLen (s : State) : s.sampled.codeLen = s.codeLen := rfl
@[simp] theorem State.sampled_code (s : State) : s.sampled.code = s.code := rfl
@[simp] theorem State.sampled_inBuf (s : State) : s.sampled.inBuf = s.inBuf := rfl
@[simp] theorem State.sampled_outBuf (s : State) : s.sampled.outBuf = s.outBuf := rfl
@[simp] theorem State.sampled_host (s : State) : s.sampled.host = s.host := rfl
@[simp] theorem State.sampled_resetIn (s : State) : s.sampled.resetIn = s.resetIn.tail := rfl
@[simp] theorem State.sampled_wait (s : State) : s.sampled.wait = s.wait := rfl
@[simp] theorem State.sampled_draws (s : State) : s.sampled.draws = s.draws := rfl

/-! ## `State.resetRegs` -/

@[simp] theorem State.resetRegs_params (s : State) : s.resetRegs.params = s.params := rfl
@[simp] theorem State.resetRegs_irqEn (s : State) : s.resetRegs.irqEn = false := rfl
@[simp] theorem State.resetRegs_op (s : State) : s.resetRegs.op = 0x0#4 := rfl
@[simp] theorem State.resetRegs_status (s : State) : s.resetRegs.status =
    { busy := false, done := false, wbusy := false, errcode := .noError } := rfl
@[simp] theorem State.resetRegs_errinfo (s : State) : s.resetRegs.errinfo = 0#32 := rfl
@[simp] theorem State.resetRegs_srcLen (s : State) : s.resetRegs.srcLen = 0#32 := rfl
@[simp] theorem State.resetRegs_dstCap (s : State) : s.resetRegs.dstCap = BitVec.ofNat 32 s.params.outCap := rfl
@[simp] theorem State.resetRegs_packer (s : State) : s.resetRegs.packer =
    { dstLen := 0#32, pend := 0#3, pad := 0#3, acc := 0#8 } := rfl
@[simp] theorem State.resetRegs_pos (s : State) : s.resetRegs.pos = 0#32 := rfl
@[simp] theorem State.resetRegs_bpValue (s : State) : s.resetRegs.bpValue = 0#32 := rfl
@[simp] theorem State.resetRegs_bpNbits (s : State) : s.resetRegs.bpNbits = 0#6 := rfl
@[simp] theorem State.resetRegs_buNbits (s : State) : s.resetRegs.buNbits = 0#6 := rfl
@[simp] theorem State.resetRegs_buValue (s : State) : s.resetRegs.buValue = 0#32 := rfl
@[simp] theorem State.resetRegs_buPos (s : State) : s.resetRegs.buPos = 0#32 := rfl
@[simp] theorem State.resetRegs_matchReg (s : State) : s.resetRegs.matchReg =
    { dist := 0#16, len := 0#8, lit := 0#8 } := rfl
@[simp] theorem State.resetRegs_runReg (s : State) : s.resetRegs.runReg = { count := 0#8, value := 0#8 } := rfl
@[simp] theorem State.resetRegs_hufNsym (s : State) : s.resetRegs.hufNsym = 0#9 := rfl
@[simp] theorem State.resetRegs_lzNtok (s : State) : s.resetRegs.lzNtok = 0#32 := rfl
@[simp] theorem State.resetRegs_freq (s : State) : s.resetRegs.freq = Vector.replicate 256 0#32 := rfl
@[simp] theorem State.resetRegs_codeLen (s : State) : s.resetRegs.codeLen = Vector.replicate 256 0#8 := rfl
@[simp] theorem State.resetRegs_code (s : State) : s.resetRegs.code = Vector.replicate 256 0#256 := rfl
@[simp] theorem State.resetRegs_inBuf (s : State) : s.resetRegs.inBuf = s.inBuf := rfl
@[simp] theorem State.resetRegs_outBuf (s : State) : s.resetRegs.outBuf = s.outBuf := rfl
@[simp] theorem State.resetRegs_host (s : State) : s.resetRegs.host = s.host := rfl
@[simp] theorem State.resetRegs_resetIn (s : State) : s.resetRegs.resetIn = s.resetIn := rfl
@[simp] theorem State.resetRegs_wait (s : State) : s.resetRegs.wait = 0 := rfl
@[simp] theorem State.resetRegs_draws (s : State) : s.resetRegs.draws = s.draws := rfl

/-! ## `State.hardReset` -/

@[simp] theorem State.hardReset_params (s : State) : s.hardReset.params = s.params := rfl
@[simp] theorem State.hardReset_irqEn (s : State) : s.hardReset.irqEn = false := rfl
@[simp] theorem State.hardReset_op (s : State) : s.hardReset.op = 0x0#4 := rfl
@[simp] theorem State.hardReset_status (s : State) : s.hardReset.status =
    { busy := false, done := false, wbusy := false, errcode := .noError } := rfl
@[simp] theorem State.hardReset_errinfo (s : State) : s.hardReset.errinfo = 0#32 := rfl
@[simp] theorem State.hardReset_srcLen (s : State) : s.hardReset.srcLen = 0#32 := rfl
@[simp] theorem State.hardReset_dstCap (s : State) : s.hardReset.dstCap = BitVec.ofNat 32 s.params.outCap := rfl
@[simp] theorem State.hardReset_packer (s : State) : s.hardReset.packer =
    { dstLen := 0#32, pend := 0#3, pad := 0#3, acc := 0#8 } := rfl
@[simp] theorem State.hardReset_pos (s : State) : s.hardReset.pos = 0#32 := rfl
@[simp] theorem State.hardReset_bpValue (s : State) : s.hardReset.bpValue = 0#32 := rfl
@[simp] theorem State.hardReset_bpNbits (s : State) : s.hardReset.bpNbits = 0#6 := rfl
@[simp] theorem State.hardReset_buNbits (s : State) : s.hardReset.buNbits = 0#6 := rfl
@[simp] theorem State.hardReset_buValue (s : State) : s.hardReset.buValue = 0#32 := rfl
@[simp] theorem State.hardReset_buPos (s : State) : s.hardReset.buPos = 0#32 := rfl
@[simp] theorem State.hardReset_matchReg (s : State) : s.hardReset.matchReg =
    { dist := 0#16, len := 0#8, lit := 0#8 } := rfl
@[simp] theorem State.hardReset_runReg (s : State) : s.hardReset.runReg = { count := 0#8, value := 0#8 } := rfl
@[simp] theorem State.hardReset_hufNsym (s : State) : s.hardReset.hufNsym = 0#9 := rfl
@[simp] theorem State.hardReset_lzNtok (s : State) : s.hardReset.lzNtok = 0#32 := rfl
@[simp] theorem State.hardReset_freq (s : State) : s.hardReset.freq = Vector.replicate 256 0#32 := rfl
@[simp] theorem State.hardReset_codeLen (s : State) : s.hardReset.codeLen = Vector.replicate 256 0#8 := rfl
@[simp] theorem State.hardReset_code (s : State) : s.hardReset.code = Vector.replicate 256 0#256 := rfl
@[simp] theorem State.hardReset_inBuf (s : State) : s.hardReset.inBuf = Memory.unknown s.draws := rfl
@[simp] theorem State.hardReset_outBuf (s : State) : s.hardReset.outBuf = Memory.unknown (s.draws + 1) := rfl
@[simp] theorem State.hardReset_host (s : State) : s.hardReset.host = s.host := rfl
@[simp] theorem State.hardReset_resetIn (s : State) : s.hardReset.resetIn = s.resetIn := rfl
@[simp] theorem State.hardReset_wait (s : State) : s.hardReset.wait = 0 := rfl
@[simp] theorem State.hardReset_draws (s : State) : s.hardReset.draws = s.draws + 2 := rfl

/-! ## `State.softReset`: the registers of `resetRegs`; only OUT_BUF and the draw counter depend on BUSY -/

@[simp] theorem State.softReset_params (s : State) : s.softReset.params =
    s.params := by
  unfold State.softReset; split <;> rfl
@[simp] theorem State.softReset_irqEn (s : State) : s.softReset.irqEn =
    false := by
  unfold State.softReset; split <;> rfl
@[simp] theorem State.softReset_op (s : State) : s.softReset.op =
    0x0#4 := by
  unfold State.softReset; split <;> rfl
@[simp] theorem State.softReset_status (s : State) : s.softReset.status =
    { busy := false, done := false, wbusy := false, errcode := .noError } := by
  unfold State.softReset; split <;> rfl
@[simp] theorem State.softReset_errinfo (s : State) : s.softReset.errinfo =
    0#32 := by
  unfold State.softReset; split <;> rfl
@[simp] theorem State.softReset_srcLen (s : State) : s.softReset.srcLen =
    0#32 := by
  unfold State.softReset; split <;> rfl
@[simp] theorem State.softReset_dstCap (s : State) : s.softReset.dstCap =
    BitVec.ofNat 32 s.params.outCap := by
  unfold State.softReset; split <;> rfl
@[simp] theorem State.softReset_packer (s : State) : s.softReset.packer =
    { dstLen := 0#32, pend := 0#3, pad := 0#3, acc := 0#8 } := by
  unfold State.softReset; split <;> rfl
@[simp] theorem State.softReset_pos (s : State) : s.softReset.pos =
    0#32 := by
  unfold State.softReset; split <;> rfl
@[simp] theorem State.softReset_bpValue (s : State) : s.softReset.bpValue =
    0#32 := by
  unfold State.softReset; split <;> rfl
@[simp] theorem State.softReset_bpNbits (s : State) : s.softReset.bpNbits =
    0#6 := by
  unfold State.softReset; split <;> rfl
@[simp] theorem State.softReset_buNbits (s : State) : s.softReset.buNbits =
    0#6 := by
  unfold State.softReset; split <;> rfl
@[simp] theorem State.softReset_buValue (s : State) : s.softReset.buValue =
    0#32 := by
  unfold State.softReset; split <;> rfl
@[simp] theorem State.softReset_buPos (s : State) : s.softReset.buPos =
    0#32 := by
  unfold State.softReset; split <;> rfl
@[simp] theorem State.softReset_matchReg (s : State) : s.softReset.matchReg =
    { dist := 0#16, len := 0#8, lit := 0#8 } := by
  unfold State.softReset; split <;> rfl
@[simp] theorem State.softReset_runReg (s : State) : s.softReset.runReg =
    { count := 0#8, value := 0#8 } := by
  unfold State.softReset; split <;> rfl
@[simp] theorem State.softReset_hufNsym (s : State) : s.softReset.hufNsym =
    0#9 := by
  unfold State.softReset; split <;> rfl
@[simp] theorem State.softReset_lzNtok (s : State) : s.softReset.lzNtok =
    0#32 := by
  unfold State.softReset; split <;> rfl
@[simp] theorem State.softReset_freq (s : State) : s.softReset.freq =
    Vector.replicate 256 0#32 := by
  unfold State.softReset; split <;> rfl
@[simp] theorem State.softReset_codeLen (s : State) : s.softReset.codeLen =
    Vector.replicate 256 0#8 := by
  unfold State.softReset; split <;> rfl
@[simp] theorem State.softReset_code (s : State) : s.softReset.code =
    Vector.replicate 256 0#256 := by
  unfold State.softReset; split <;> rfl
@[simp] theorem State.softReset_inBuf (s : State) : s.softReset.inBuf =
    s.inBuf := by
  unfold State.softReset; split <;> rfl
@[simp] theorem State.softReset_host (s : State) : s.softReset.host =
    s.host := by
  unfold State.softReset; split <;> rfl
@[simp] theorem State.softReset_resetIn (s : State) : s.softReset.resetIn =
    s.resetIn := by
  unfold State.softReset; split <;> rfl
@[simp] theorem State.softReset_wait (s : State) : s.softReset.wait =
    0 := by
  unfold State.softReset; split <;> rfl
theorem State.softReset_outBuf (s : State) :
    s.softReset.outBuf = if s.status.busy then s.outBuf.forget s.cap s.draws else s.outBuf := by
  unfold State.softReset; split <;> rfl
theorem State.softReset_draws (s : State) :
    s.softReset.draws = if s.status.busy then s.draws + 1 else s.draws := by
  unfold State.softReset; split <;> rfl

/-! ## `State.inFlight` -/

@[simp] theorem State.inFlight_params (s : State) (w : Word) : (s.inFlight w).params = s.params := rfl
@[simp] theorem State.inFlight_irqEn (s : State) (w : Word) : (s.inFlight w).irqEn = s.irqEn := rfl
@[simp] theorem State.inFlight_op (s : State) (w : Word) : (s.inFlight w).op = opField w := rfl
@[simp] theorem State.inFlight_status (s : State) (w : Word) : (s.inFlight w).status = s.status.started := rfl
@[simp] theorem State.inFlight_errinfo (s : State) (w : Word) : (s.inFlight w).errinfo = s.errinfo := rfl
@[simp] theorem State.inFlight_srcLen (s : State) (w : Word) : (s.inFlight w).srcLen = s.srcLen := rfl
@[simp] theorem State.inFlight_dstCap (s : State) (w : Word) : (s.inFlight w).dstCap = s.dstCap := rfl
@[simp] theorem State.inFlight_packer (s : State) (w : Word) : (s.inFlight w).packer = s.packer := rfl
@[simp] theorem State.inFlight_pos (s : State) (w : Word) : (s.inFlight w).pos = s.pos := rfl
@[simp] theorem State.inFlight_bpValue (s : State) (w : Word) : (s.inFlight w).bpValue = s.bpValue := rfl
@[simp] theorem State.inFlight_bpNbits (s : State) (w : Word) : (s.inFlight w).bpNbits = s.bpNbits := rfl
@[simp] theorem State.inFlight_buNbits (s : State) (w : Word) : (s.inFlight w).buNbits = s.buNbits := rfl
@[simp] theorem State.inFlight_buValue (s : State) (w : Word) : (s.inFlight w).buValue = s.buValue := rfl
@[simp] theorem State.inFlight_buPos (s : State) (w : Word) : (s.inFlight w).buPos = s.buPos := rfl
@[simp] theorem State.inFlight_matchReg (s : State) (w : Word) : (s.inFlight w).matchReg = s.matchReg := rfl
@[simp] theorem State.inFlight_runReg (s : State) (w : Word) : (s.inFlight w).runReg = s.runReg := rfl
@[simp] theorem State.inFlight_hufNsym (s : State) (w : Word) : (s.inFlight w).hufNsym = s.hufNsym := rfl
@[simp] theorem State.inFlight_lzNtok (s : State) (w : Word) : (s.inFlight w).lzNtok = s.lzNtok := rfl
@[simp] theorem State.inFlight_freq (s : State) (w : Word) : (s.inFlight w).freq = s.freq := rfl
@[simp] theorem State.inFlight_codeLen (s : State) (w : Word) : (s.inFlight w).codeLen = s.codeLen := rfl
@[simp] theorem State.inFlight_code (s : State) (w : Word) : (s.inFlight w).code = s.code := rfl
@[simp] theorem State.inFlight_inBuf (s : State) (w : Word) : (s.inFlight w).inBuf = s.inBuf := rfl
@[simp] theorem State.inFlight_outBuf (s : State) (w : Word) : (s.inFlight w).outBuf = s.outBuf := rfl
@[simp] theorem State.inFlight_host (s : State) (w : Word) : (s.inFlight w).host = s.host := rfl
@[simp] theorem State.inFlight_wait (s : State) (w : Word) : (s.inFlight w).wait = 0 := rfl
@[simp] theorem State.inFlight_draws (s : State) (w : Word) : (s.inFlight w).draws = s.draws := rfl
@[simp] theorem State.inFlight_resetIn_tail (s : State) (w : Word) : (s.inFlight w).resetIn.tail = s.resetIn.tail := by
  unfold State.inFlight; cases s.resetIn <;> rfl
@[simp] theorem State.inFlight_resetAsserted (s : State) (w : Word) : (s.inFlight w).resetAsserted = false := by
  unfold State.inFlight State.resetAsserted; cases s.resetIn <;> rfl

/-! ## The status word and the packer -/

@[simp] theorem Status.started_busy (st : Status) : st.started.busy = true := rfl
@[simp] theorem Status.started_done (st : Status) : st.started.done = false := rfl
@[simp] theorem Status.started_wbusy (st : Status) : st.started.wbusy = st.wbusy := rfl
@[simp] theorem Status.started_errcode (st : Status) : st.started.errcode = .noError := rfl
@[simp] theorem Status.w1c_busy (st : Status) (v : Word) : (st.w1c v).busy = st.busy := rfl
@[simp] theorem Status.w1c_errcode (st : Status) (v : Word) : (st.w1c v).errcode = st.errcode := rfl
@[simp] theorem Packer.at_pend (n p : Nat) : (Packer.at n p).pend = 0#3 := rfl
@[simp] theorem Packer.at_acc (n p : Nat) : (Packer.at n p).acc = 0#8 := rfl

end Sys2Proof.Machine
end

