-- ==== Sys2Proof/Laws/Commands.lean ====
section
/-! SUPPORT. What the shared operations of the commands can do, said once each. -/

namespace Sys2Proof.Machine

/-- The pseudocode of each command, before the completion update. -/
def runOf : Instr → State → CmdResult
  | .nop, s => .ok s
  | .bpPut, s => runBpPut s
  | .bpFlush, s => runBpFlush s
  | .bpClear, s => runBpClear s
  | .buGet, s => runBuGet s
  | .buClear, s => runBuClear s
  | .rleRun, s => runRleRun s
  | .rleEnc, s => runRleEnc s
  | .hufEnc, s => runHufEnc s
  | .lzFind, s => runLzFind s
  | .lzEnc, s => runLzEnc s

/-- Every command is its pseudocode and then the completion update (44_system.md R261, R263). -/
theorem exec_eq (i : Instr) (s : State) :
    exec i s = .next ((runOf i s).st.completed (runOf i s).code (runOf i s).info) := by
  cases i <;> rfl

/-- The next state of a command is the completion of what its pseudocode left. -/
theorem exec_next {i : Instr} {s t : State} (h : exec i s = .next t) :
    t = (runOf i s).st.completed (runOf i s).code (runOf i s).info := by
  rw [exec_eq] at h
  exact (Host.Outcome.next.inj h).symm

@[simp] theorem CmdResult.ok_st (s : State) : (CmdResult.ok s).st = s := rfl
@[simp] theorem CmdResult.ok_code (s : State) : (CmdResult.ok s).code = .noError := rfl
@[simp] theorem CmdResult.ok_info (s : State) : (CmdResult.ok s).info = 0#32 := rfl
@[simp] theorem CmdResult.raise_st (s : State) (e : ErrCode) (x : Word) : (CmdResult.raise s e x).st = s := rfl
@[simp] theorem CmdResult.raise_code (s : State) (e : ErrCode) (x : Word) : (CmdResult.raise s e x).code = e := rfl
@[simp] theorem CmdResult.raise_info (s : State) (e : ErrCode) (x : Word) : (CmdResult.raise s e x).info = x := rfl

/-! ## Operand checks -/

theorem withLen_ok {s : State} {r : CmdResult} (h : s.srcLen.toNat ≤ s.params.inCap) : withLen s r = r := by
  simp [withLen, State.lenOk, State.len, h]

theorem withLen_bad {s : State} {r : CmdResult} (h : s.params.inCap < s.srcLen.toNat) :
    withLen s r = .raise s .badLen s.srcLen := by
  simp [withLen, State.lenOk, State.len, Nat.not_le.2 h]

theorem withNbits_ok {s : State} {n : BitVec 6} {r : CmdResult} (h1 : 1 ≤ n.toNat) (h2 : n.toNat ≤ 32) :
    withNbits s n r = r := by
  simp [withNbits, nbitsOk, Config.bpMaxNbits, h1, h2]

theorem withNbits_bad {s : State} {n : BitVec 6} {r : CmdResult} (h : n.toNat = 0 ∨ 32 < n.toNat) :
    withNbits s n r = .raise s .badNbits (n.setWidth 32) := by
  have : nbitsOk n.toNat = false := by unfold nbitsOk Config.bpMaxNbits; exact decide_eq_false (by omega)
  simp [withNbits, this]

theorem withPos_ok {s : State} {r : CmdResult} (h : s.pos.toNat < s.srcLen.toNat) : withPos s r = r := by
  simp [withPos, State.posOk, State.posArg, State.len, h]

theorem withPos_bad {s : State} {r : CmdResult} (h : s.srcLen.toNat ≤ s.pos.toNat) :
    withPos s r = .raise s .badPos s.pos := by
  simp [withPos, State.posOk, State.posArg, State.len, Nat.not_lt.2 h]

/-! ## Emission -/

theorem emit_fits {s : State} {o : List Byte} {pad : Nat} (h : o.length ≤ s.cap) :
    emit s o pad = .ok (s.setPacked (Packer.at o.length pad, s.outBuf.writeBytes 0 o)) := by
  simp [emit, Nat.not_lt.2 h]

theorem emit_overflows {s : State} {o : List Byte} {pad : Nat} (h : s.cap < o.length) :
    emit s o pad = .raise ((s.forgetOut s.cap).setPacker (Packer.at 0 0)) .outOverflow s.capWord := by
  simp [emit, h]

theorem State.cap_lt (s : State) : s.cap < 2 ^ 32 := by
  unfold State.cap
  have := s.dstCap.isLt
  omega

theorem State.cap_le_outCap (s : State) : s.cap ≤ s.params.outCap := by unfold State.cap; omega

@[simp] theorem State.capWord_toNat (s : State) : s.capWord.toNat = s.cap := by
  rw [State.capWord, BitVec.toNat_ofNat, Nat.mod_eq_of_lt s.cap_lt]

/-- What emission leaves, in either case: the commands' frame (40_bitpacker.md R148). -/
theorem emit_frame (s : State) (o : List Byte) (pad : Nat) :
    (emit s o pad).st = { s with
      packer := (emit s o pad).st.packer
      outBuf := (emit s o pad).st.outBuf
      draws := (emit s o pad).st.draws } := by
  unfold emit
  split <;> rfl

/-- The bytes of OUT_BUF after a successful emission (40_bitpacker.md R148). -/
theorem writeBytes_zero_read (m : Memory) (o : List Byte) (a : Nat) :
    (m.writeBytes 0 o).read a = if h : a < o.length then o[a] else m.read a := by
  simp [Memory.read_writeBytes]

/-- A command's completion keeps the host's operands and everything outside the block (10_state.md R58). -/
theorem runOf_frame (i : Instr) (s : State) :
    (runOf i s).st = { s with
      packer := (runOf i s).st.packer, outBuf := (runOf i s).st.outBuf, draws := (runOf i s).st.draws
      buValue := (runOf i s).st.buValue, buPos := (runOf i s).st.buPos
      matchReg := (runOf i s).st.matchReg, runReg := (runOf i s).st.runReg
      hufNsym := (runOf i s).st.hufNsym, lzNtok := (runOf i s).st.lzNtok
      freq := (runOf i s).st.freq, codeLen := (runOf i s).st.codeLen, code := (runOf i s).st.code } := by
  cases i <;>
    simp only [runOf, runBpPut, runBpFlush, runBpClear, runBuGet, runBuClear, runRleRun, runRleEnc, runHufEnc,
      runLzFind, runLzEnc, withLen, withNbits, withPos, emit, CmdResult.countTokens] <;>
    (repeat' split) <;> rfl

end Sys2Proof.Machine
end

