-- ==== Sys2Proof/Laws/Decode.lean ====
section
/-! SUPPORT. Decoding by the opcode field alone (30_encoding.md R113). -/

namespace Sys2Proof

theorem and_mask_eq (w : Word) : w &&& 0xF#32 = cmdWord (opField w) := by
  apply BitVec.eq_of_toNat_eq
  have : w.toNat &&& 15 = w.toNat % 16 := Nat.and_two_pow_sub_one_eq_mod w.toNat 4
  simp [cmdWord, opField, this]
  omega

@[simp] theorem opField_cmdWord (op : Opcode) : opField (cmdWord op) = op := by
  revert op; decide

theorem matchesWord_cmdWord {r : OpRow} (h : r ∈ opTable) (w : Word) :
    r.matchesWord w = r.matchesWord (cmdWord (opField w)) := by
  have hm : r.mask = 0xF#32 := by revert h; revert r; decide
  simp only [OpRow.matchesWord, hm, and_mask_eq, opField_cmdWord]

/-- Bits 31 to 4 never affect decoding. -/
theorem decode_cmdWord (w : Word) : decode (cmdWord (opField w)) = decode w := by
  have : (opTable.find? fun r => r.matchesWord w) = opTable.find? fun r => r.matchesWord (cmdWord (opField w)) := by
    have : ∀ l : List OpRow, (∀ r ∈ l, r ∈ opTable) →
        (l.find? fun r => r.matchesWord w) = l.find? fun r => r.matchesWord (cmdWord (opField w)) := by
      intro l hl
      induction l with
      | nil => rfl
      | cons r l ih =>
        simp only [List.find?_cons, matchesWord_cmdWord (hl r (by simp)) w]
        rw [ih (fun q hq => hl q (by simp [hq]))]
    exact this opTable (fun _ h => h)
  unfold decode
  rw [opField_cmdWord, this]

/-- The command with an opcode of the map. -/
theorem decode_ok_iff (w : Word) (i : Instr) : decode w = .ok i ↔ opField w = opcodeOf i := by
  rw [← decode_cmdWord]
  generalize opField w = op
  revert op
  cases i <;> decide

theorem decode_of_le {w : Word} (h : (opField w).toNat ≤ 10) : ∃ i, decode w = .ok i ∧ opcodeOf i = opField w := by
  have : ∀ op : Opcode, op.toNat ≤ 10 → ∃ i, opcodeOf i = op := by
    have : ∀ op : Opcode, op.toNat ≤ 10 → op ∈ [Instr.nop, .bpPut, .bpFlush, .bpClear, .buGet, .buClear, .rleRun,
      .rleEnc, .hufEnc, .lzFind, .lzEnc].map opcodeOf := by decide
    intro op h
    obtain ⟨i, -, hi⟩ := List.mem_map.1 (this op h)
    exact ⟨i, hi⟩
  obtain ⟨i, hi⟩ := this _ h
  exact ⟨i, (decode_ok_iff w i).2 hi.symm, hi⟩

/-- The opcodes above 10 are reserved. -/
theorem decode_of_gt {w : Word} (h : 10 < (opField w).toNat) : decode w = .error (.reservedOpcode (opField w)) := by
  rw [← decode_cmdWord]
  revert h
  generalize opField w = op
  revert op
  decide

theorem decode_cmdWord_of_gt {op : Opcode} (h : 10 < op.toNat) :
    decode (cmdWord op) = .error (.reservedOpcode op) := by
  have := decode_of_gt (w := cmdWord op) (by simpa using h)
  simpa using this

end Sys2Proof
end

