-- ==== Sys2Proof/Laws/Huffman.lean ====
section
/-! SUPPORT. The laws of the Huffman construction: symbols, the pool and its merges, paths, and the depth of every node
of the pool in the final tree (42_huffman.md R191 to R197). -/

namespace Sys2Proof.Machine

/-! ## Symbols -/

theorem allBytes_nodup : allBytes.Nodup := by
  rw [allBytes, List.nodup_map_iff_inj_on List.nodup_range]
  intro x hx y hy h
  have hx := List.mem_range.1 hx
  have hy := List.mem_range.1 hy
  simp only [Config.hufMaxSymbols] at hx hy
  have := congrArg BitVec.toNat h
  simp only [BitVec.toNat_ofNat] at this
  omega

theorem mem_allBytes (b : Byte) : b ∈ allBytes :=
  List.mem_map.2 ⟨b.toNat, List.mem_range.2 b.isLt, by simp⟩

@[simp] theorem mem_symbols {F : Byte → Nat} {s : Byte} : s ∈ symbols F ↔ 0 < F s := by
  simp [symbols, mem_allBytes]

theorem symbols_nodup (F : Byte → Nat) : (symbols F).Nodup := allBytes_nodup.filter _

theorem symbols_length_le (F : Byte → Nat) : (symbols F).length ≤ 256 := by
  refine (List.length_filter_le _ _).trans ?_
  simp [allBytes, Config.hufMaxSymbols]

/-- The symbols stand in ascending order (R192). -/
theorem symbols_ascending (F : Byte → Nat) : (symbols F).Pairwise (fun a b => a.toNat < b.toNat) := by
  refine List.Pairwise.filter _ (List.pairwise_map.2 ?_)
  refine (List.pairwise_lt_range (n := Config.hufMaxSymbols)).imp_of_mem fun {a b} ha hb h => ?_
  have ha := List.mem_range.1 ha
  have hb := List.mem_range.1 hb
  simp only [Config.hufMaxSymbols] at ha hb
  simp
  omega

@[simp] theorem freqOf_pos {inp : List Byte} {s : Byte} : 0 < freqOf inp s ↔ s ∈ inp := by
  simp [freqOf, List.count_pos_iff]

theorem symbols_freqOf_perm (inp : List Byte) : (symbols (freqOf inp)).Perm inp.dedup :=
  (List.perm_ext_iff_of_nodup (symbols_nodup _) (List.nodup_dedup _)).2 fun s => by simp

theorem symbols_freqOf_length (inp : List Byte) : (symbols (freqOf inp)).length = inp.dedup.length :=
  (symbols_freqOf_perm inp).length_eq

/-! ## Trees -/

/-- The symbols at the leaves of a tree, from left to right. -/
def HufTree.leaves : HufTree → List Byte
  | .leaf s => [s]
  | .node l r => l.leaves ++ r.leaves

theorem HufTree.leaves_pos : ∀ t : HufTree, 1 ≤ t.leaves.length
  | .leaf _ => by simp [leaves]
  | .node l r => by
    have := l.leaves_pos
    simp [leaves]
    omega

/-- A tree has a path to a byte value exactly when the value is at one of its leaves. -/
theorem HufTree.path_isSome : ∀ (t : HufTree) (s : Byte), (t.path s).isSome = true ↔ s ∈ t.leaves
  | .leaf x, s => by
    unfold path leaves
    split <;> simp_all [eq_comm]
  | .node l r, s => by
    have hl := l.path_isSome s
    have hr := r.path_isSome s
    unfold path leaves
    rw [List.mem_append, ← hl, ← hr]
    cases l.path s <;> simp

theorem HufTree.path_eq_none {t : HufTree} {s : Byte} : t.path s = none ↔ s ∉ t.leaves := by
  rw [← t.path_isSome s]
  cases t.path s <;> simp

/-- Walking a path from the root ends at its leaf with nothing used beyond it (45_reference_decoders.md R285). -/
theorem walkSymbol_path : ∀ (t : HufTree) (s : Byte) (c rest : List Bool), t.path s = some c →
    walkSymbol t (c ++ rest) = some (s, rest)
  | .leaf x, s, c, rest, h => by
    unfold HufTree.path at h
    split at h
    · next hx => cases h; subst hx; rfl
    · cases h
  | .node l r, s, c, rest, h => by
    unfold HufTree.path at h
    split at h
    · next cl hl => cases h; exact walkSymbol_path l s cl rest hl
    · rw [Option.map_eq_some_iff] at h
      obtain ⟨cr, hr, rfl⟩ := h
      exact walkSymbol_path r s cr rest hr

/-- A path is shorter than the number of leaves (R197). -/
theorem HufTree.path_length_lt : ∀ (t : HufTree) (s : Byte) (c : List Bool), t.path s = some c →
    c.length < t.leaves.length
  | .leaf x, s, c, h => by
    unfold path at h
    split at h
    · cases h; simp [leaves]
    · cases h
  | .node l r, s, c, h => by
    have pl := l.leaves_pos
    have pr := r.leaves_pos
    unfold path at h
    split at h
    · next cl hl =>
      have := l.path_length_lt s cl hl
      cases h
      simp [leaves]
      omega
    · rw [Option.map_eq_some_iff] at h
      obtain ⟨cr, hr, rfl⟩ := h
      have := r.path_length_lt s cr hr
      simp [leaves]
      omega

/-! ## The pool -/

theorem PoolNode.before_iff {a b : PoolNode} :
    a.before b = true ↔ a.weight < b.weight ∨ a.weight = b.weight ∧ a.key < b.key := by simp [PoolNode.before]

/-- Taking the least node out rearranges the pool. -/
theorem takeLeast_perm : ∀ (pool : List PoolNode) (x : PoolNode),
    ((takeLeast x pool).1 :: (takeLeast x pool).2).Perm (x :: pool)
  | [], x => List.Perm.refl _
  | y :: ys, x => by
    have ih := takeLeast_perm ys y
    unfold takeLeast
    split
    · exact List.Perm.refl _
    · exact (List.Perm.swap _ _ _).trans (ih.cons x)

/-- No node of the rest precedes the least one. -/
theorem takeLeast_least : ∀ (pool : List PoolNode) (x : PoolNode), ∀ y ∈ (takeLeast x pool).2,
    y.before (takeLeast x pool).1 = false
  | [], x => by simp [takeLeast]
  | z :: zs, x => by
    have ih := takeLeast_least zs z
    have hp := takeLeast_perm zs z
    intro y hy
    unfold takeLeast at hy ⊢
    split at hy
    · next hb =>
      rw [if_pos hb]
      have hyz : y ∈ (takeLeast z zs).1 :: (takeLeast z zs).2 := hp.mem_iff.2 hy
      rw [PoolNode.before_iff] at hb
      rw [Bool.eq_false_iff, Ne, PoolNode.before_iff]
      dsimp only
      rcases List.mem_cons.1 hyz with h | h
      · rw [h]; omega
      · have := ih y h
        rw [Bool.eq_false_iff, Ne, PoolNode.before_iff] at this
        omega
    · next hb =>
      rw [if_neg hb]
      rcases List.mem_cons.1 hy with h | h
      · rw [h]; simpa using hb
      · exact ih y h

theorem takeLeast_length (x : PoolNode) (pool : List PoolNode) : (takeLeast x pool).2.length = pool.length := by
  have := (takeLeast_perm pool x).length_eq
  simpa using this

/-- One merge of a pool of at least two nodes: its least node `a`, the least `b` of the others, and their parent. -/
theorem mergeOnce_spec (m : Nat) (pool : List PoolNode) (h : 2 ≤ pool.length) : ∃ a b rest,
    mergeOnce m pool = mergeNode m a b :: rest ∧ (a :: b :: rest).Perm pool ∧ b.before a = false ∧
    ∀ y ∈ rest, y.before a = false ∧ y.before b = false := by
  match pool, h with
  | x :: y :: ys, _ =>
    have hp := takeLeast_perm (y :: ys) x
    have hm := takeLeast_least (y :: ys) x
    have hlen := takeLeast_length x (y :: ys)
    simp only [mergeOnce]
    split
    · next a heq => rw [heq] at hlen; simp at hlen
    · next a z zs heq =>
      rw [heq] at hp hm
      have hp2 := takeLeast_perm zs z
      have hm2 := takeLeast_least zs z
      have hmem : ∀ w, w ∈ (takeLeast z zs).1 :: (takeLeast z zs).2 → w.before a = false :=
        fun w hw => hm w (hp2.mem_iff.1 hw)
      exact ⟨a, _, _, rfl, (hp2.cons a).trans hp, hmem _ (by simp), fun w hw => ⟨hmem w (by simp [hw]), hm2 w hw⟩⟩

/-- `k` merges of a pool of `k + 1` nodes with distinct keys leave one tree with the same leaves. Every node `x` of the
pool is in it at one depth `D x.key`: a path inside `x` is the end of the path in the tree. Nodes that come first lie
at least as deep; and a node not heavier than any two others together lies at most one level above each of them. -/
theorem mergeLoop_spec : ∀ (k m : Nat) (pool : List PoolNode), pool.length = k + 1 →
    (pool.map (fun x => x.key)).Nodup → (∀ x ∈ pool, x.key < 256 + m) →
    (pool.flatMap (fun x => x.tree.leaves)).Nodup →
    ∃ (root : PoolNode) (D : Nat → Nat), mergeLoop k m pool = [root] ∧
      root.tree.leaves.Perm (pool.flatMap (fun x => x.tree.leaves)) ∧
      (∀ x ∈ pool, ∀ s c, x.tree.path s = some c → ∃ c', root.tree.path s = some (c' ++ c) ∧ c'.length = D x.key) ∧
      (∀ x ∈ pool, ∀ y ∈ pool, x.before y = true → D y.key ≤ D x.key) ∧
      (∀ n ∈ pool, (∀ y ∈ pool, ∀ z ∈ pool, y.key ≠ n.key → z.key ≠ n.key → y.key ≠ z.key →
          n.weight ≤ y.weight + z.weight) →
        ∀ y ∈ pool, D y.key ≤ D n.key + 1)
  | 0, m, pool, hlen, _, _, _ => by
    obtain ⟨x, rfl⟩ := List.length_eq_one_iff.1 hlen
    refine ⟨x, fun _ => 0, rfl, by simp, ?_, by simp, by simp⟩
    intro y hy s c hc
    rw [List.mem_singleton.1 hy] at hc
    exact ⟨[], hc, rfl⟩
  | k + 1, m, pool, hlen, hkeys, hlt, hleaves => by
    obtain ⟨a, b, rest, hmo, hperm, hba, hrest⟩ := mergeOnce_spec m pool (by omega)
    have hk : ((a :: b :: rest).map (fun x => x.key)).Nodup := (hperm.map _).nodup_iff.2 hkeys
    have hl : ((a :: b :: rest).flatMap (fun x => x.tree.leaves)).Nodup := (hperm.flatMap_right _).nodup_iff.2 hleaves
    have hmem : ∀ x, x ∈ pool ↔ x = a ∨ x = b ∨ x ∈ rest := fun x => by rw [← hperm.mem_iff]; simp
    simp only [List.map_cons, List.nodup_cons, List.mem_cons, List.mem_map, not_or, not_exists, not_and] at hk
    obtain ⟨⟨hab, har⟩, hbr, hrn⟩ := hk
    have hltr : ∀ x ∈ rest, x.key < 256 + m := fun x hx => hlt x ((hmem x).2 (.inr (.inr hx)))
    have hla := hlt a ((hmem a).2 (.inl rfl))
    have hlb := hlt b ((hmem b).2 (.inr (.inl rfl)))
    have hlen' : (mergeNode m a b :: rest).length = k + 1 := by
      have := hperm.length_eq
      simp only [List.length_cons] at this ⊢
      omega
    obtain ⟨root, D, h1, h2, h3, h4, h5⟩ := mergeLoop_spec k (m + 1) (mergeNode m a b :: rest) hlen'
      (by
        simp only [List.map_cons, List.nodup_cons]
        refine ⟨fun h => ?_, hrn⟩
        obtain ⟨x, hx, hxk⟩ := List.mem_map.1 h
        have := hltr x hx
        simp only [mergeNode] at hxk
        omega)
      (by
        intro x hx
        rcases List.mem_cons.1 hx with rfl | hx
        · simp only [mergeNode]; omega
        · have := hltr x hx; omega)
      (by simpa [mergeNode, HufTree.leaves, List.flatMap_cons] using hl)
    -- the order and the weights of the nodes of the pool
    have wab : a.weight ≤ b.weight := by
      rw [Bool.eq_false_iff, Ne, PoolNode.before_iff] at hba
      omega
    have wbr : ∀ y ∈ rest, b.weight ≤ y.weight := fun y hy => by
      have := (hrest y hy).2
      rw [Bool.eq_false_iff, Ne, PoolNode.before_iff] at this
      omega
    have hn : mergeNode m a b ∈ mergeNode m a b :: rest := by simp
    have hin : ∀ y, y ∈ rest → y ∈ mergeNode m a b :: rest := fun y hy => by simp [hy]
    have keyn : (mergeNode m a b).key = 256 + m := rfl
    have weightn : (mergeNode m a b).weight = a.weight + b.weight := rfl
    -- the depths: those of the smaller pool, and one more than their parent's for the two merged nodes
    let D' : Nat → Nat := fun q => if q = a.key ∨ q = b.key then D (256 + m) + 1 else D q
    have Da : D' a.key = D (256 + m) + 1 := by simp [D']
    have Db : D' b.key = D (256 + m) + 1 := by simp [D']
    have Dr : ∀ y ∈ rest, D' y.key = D y.key := fun y hy => by
      have h1 := har y hy
      have h2 := hbr y hy
      simp [D', h1, h2]
    -- the parent is not heavier than any two others together
    have parent : ∀ y ∈ rest, D y.key ≤ D (256 + m) + 1 := fun y hy => by
      refine h5 _ hn (fun u hu v hv hun hvn _ => ?_) y (hin y hy)
      rcases List.mem_cons.1 hu with rfl | hu
      · exact absurd rfl hun
      rcases List.mem_cons.1 hv with rfl | hv
      · exact absurd rfl hvn
      have := wbr u hu
      have := wbr v hv
      omega
    have mono : ∀ x ∈ pool, ∀ y ∈ pool, x.before y = true → D' y.key ≤ D' x.key := by
      intro x hx y hy hxy
      rcases (hmem x).1 hx with rfl | rfl | hx
      · rw [Da]
        rcases (hmem y).1 hy with rfl | rfl | hy
        · omega
        · omega
        · rw [Dr y hy]; exact parent y hy
      · rw [Db]
        rcases (hmem y).1 hy with rfl | rfl | hy
        · omega
        · omega
        · rw [Dr y hy]; exact parent y hy
      · rcases (hmem y).1 hy with rfl | rfl | hy
        · rw [(hrest x hx).1] at hxy; cases hxy
        · rw [(hrest x hx).2] at hxy; cases hxy
        · rw [Dr x hx, Dr y hy]
          exact h4 x (hin x hx) y (hin y hy) hxy
    refine ⟨root, D', ?_, ?_, ?_, mono, ?_⟩
    · rw [mergeLoop, hmo, h1]
    · refine h2.trans ?_
      refine List.Perm.trans ?_ (hperm.flatMap_right _)
      simp [mergeNode, HufTree.leaves, List.flatMap_cons]
    · intro x hx s c hc
      rcases (hmem x).1 hx with rfl | rfl | hx
      · obtain ⟨c', e1, e2⟩ := h3 _ hn s (false :: c) (by simp [mergeNode, HufTree.path, hc])
        have e2 : c'.length = D (256 + m) := e2
        exact ⟨c' ++ [false], by simpa using e1, by simp [Da, e2]⟩
      · have hs : s ∈ x.tree.leaves := (HufTree.path_isSome _ _).1 (by simp [hc])
        have hna : a.tree.path s = none := by
          rw [HufTree.path_eq_none]
          simp only [List.flatMap_cons] at hl
          rw [List.nodup_append] at hl
          intro h
          exact hl.2.2 s h s (by simp [hs]) rfl
        obtain ⟨c', e1, e2⟩ := h3 _ hn s (true :: c) (by simp [mergeNode, HufTree.path, hna, hc])
        have e2 : c'.length = D (256 + m) := e2
        exact ⟨c' ++ [true], by simpa using e1, by simp [Db, e2]⟩
      · obtain ⟨c', e1, e2⟩ := h3 x (hin x hx) s c hc
        exact ⟨c', e1, by rw [Dr x hx]; exact e2⟩
    · intro n hnp hpair y hy
      rcases (hmem n).1 hnp with rfl | rfl | hnr
      · rw [Da]
        rcases (hmem y).1 hy with rfl | rfl | hy
        · omega
        · omega
        · rw [Dr y hy]; have := parent y hy; omega
      · rw [Db]
        rcases (hmem y).1 hy with rfl | rfl | hy
        · omega
        · omega
        · rw [Dr y hy]; have := parent y hy; omega
      · have hna := har n hnr
        have hnb := hbr n hnr
        have hw : n.weight ≤ a.weight + b.weight :=
          hpair a ((hmem a).2 (.inl rfl)) b ((hmem b).2 (.inr (.inl rfl))) (fun h => hna h.symm) (fun h => hnb h.symm)
            hab
        have hnlt := hltr n hnr
        have hnn : D (256 + m) ≤ D n.key := h4 n (hin n hnr) _ hn (by
          rw [PoolNode.before_iff, keyn, weightn]
          omega)
        rw [Dr n hnr]
        rcases (hmem y).1 hy with rfl | rfl | hy
        · rw [Da]; omega
        · rw [Db]; omega
        · rw [Dr y hy]
          refine h5 n (hin n hnr) (fun u hu v hv hun hvn huv => ?_) y (hin y hy)
          rcases List.mem_cons.1 hu with rfl | hu
          · rw [weightn]; omega
          rcases List.mem_cons.1 hv with rfl | hv
          · rw [weightn]; omega
          exact hpair u ((hmem u).2 (.inr (.inr hu))) v ((hmem v).2 (.inr (.inr hv))) hun hvn huv

/-! ## The tree and the codes -/

theorem mem_leavesOf {F : Byte → Nat} {x : PoolNode} :
    x ∈ leavesOf F ↔ ∃ s ∈ symbols F, x = ⟨F s, s.toNat, .leaf s⟩ := by simp [leavesOf, eq_comm]

/-- For two or more symbols: the tree has a leaf for each symbol, the codes are its paths, and lighter symbols lie at
least as deep (R194, R197). -/
theorem buildTree_spec (F : Byte → Nat) (h : 2 ≤ (symbols F).length) : ∃ t, buildTree F = some t ∧
    t.leaves.Perm (symbols F) ∧ (∀ s ∈ symbols F, t.path s = some (codeTable F s)) ∧
    (∀ s, s ∉ symbols F → codeTable F s = []) ∧
    (∀ a ∈ symbols F, ∀ b ∈ symbols F, F b < F a → (codeTable F a).length ≤ (codeTable F b).length) := by
  have hlen : (leavesOf F).length = (symbols F).length - 1 + 1 := by simp [leavesOf]; omega
  have hfl : ∀ l : List Byte, (l.map fun s => (⟨F s, s.toNat, .leaf s⟩ : PoolNode)).flatMap (fun x => x.tree.leaves) = l := by
    intro l
    induction l with
    | nil => rfl
    | cons s l ih => simp [HufTree.leaves, ih]
  have hkeys : ((leavesOf F).map (fun x => x.key)).Nodup := by
    have : (leavesOf F).map (fun x => x.key) = (symbols F).map BitVec.toNat := by simp [leavesOf]
    rw [this]
    exact (symbols_nodup F).map (fun _ _ h => BitVec.eq_of_toNat_eq h)
  obtain ⟨root, D, h1, h2, h3, h4, -⟩ := mergeLoop_spec _ 0 (leavesOf F) hlen hkeys
    (by
      intro x hx
      obtain ⟨s, -, rfl⟩ := mem_leavesOf.1 hx
      have := s.isLt
      simp only
      omega)
    (by rw [leavesOf, hfl]; exact symbols_nodup F)
  rw [leavesOf, hfl] at h2
  have hb : buildTree F = some root.tree := by simp [buildTree, h1]
  have hc : ∀ s, codeTable F s = (root.tree.path s).getD [] := by
    intro s
    rcases hs : symbols F with _ | ⟨x, _ | ⟨y, l⟩⟩
    · rw [hs] at h; simp at h
    · rw [hs] at h; simp at h
    · simp only [codeTable, hs, hb]
  have hpath : ∀ s ∈ symbols F, root.tree.path s = some (codeTable F s) ∧ (codeTable F s).length = D s.toNat := by
    intro s hs
    obtain ⟨c', e1, e2⟩ := h3 ⟨F s, s.toNat, .leaf s⟩ (mem_leavesOf.2 ⟨s, hs, rfl⟩) s [] (by simp [HufTree.path])
    rw [List.append_nil] at e1
    rw [hc, e1]
    exact ⟨rfl, e2⟩
  refine ⟨root.tree, hb, h2, fun s hs => (hpath s hs).1, fun s hs => ?_, fun a ha b hbm hab => ?_⟩
  · rw [hc, HufTree.path_eq_none.2 (fun hl => hs (h2.mem_iff.1 hl))]
    rfl
  · rw [(hpath a ha).2, (hpath b hbm).2]
    exact h4 ⟨F b, b.toNat, .leaf b⟩ (mem_leavesOf.2 ⟨b, hbm, rfl⟩) ⟨F a, a.toNat, .leaf a⟩ (mem_leavesOf.2 ⟨a, ha, rfl⟩)
      (by rw [PoolNode.before_iff]; exact .inl hab)

/-- No symbol, no code. -/
theorem codeTable_of_not_mem {F : Byte → Nat} {s : Byte} (h : s ∉ symbols F) : codeTable F s = [] := by
  rcases hs : symbols F with _ | ⟨a, _ | ⟨b, l⟩⟩
  · unfold codeTable; rw [hs]
  · unfold codeTable
    rw [hs] at h ⊢
    simp only [List.mem_singleton] at h
    simp [h]
  · obtain ⟨t, -, -, -, h4, -⟩ := buildTree_spec F (by rw [hs]; simp)
    exact h4 s h

/-- One symbol has the code `0` (R196). -/
theorem codeTable_of_one {F : Byte → Nat} {s0 : Byte} (h : symbols F = [s0]) (s : Byte) :
    codeTable F s = if s = s0 then [false] else [] := by
  unfold codeTable
  rw [h]

/-- The bits of the body number what the code lengths sum to over the input (R201). -/
theorem hufBits_length (inp : List Byte) :
    (hufBits inp).length = (inp.map (fun b => (codeTable (freqOf inp) b).length)).sum := by
  simp [hufBits, List.length_flatMap]

@[simp] theorem hufHeader_length (n : Nat) (F : Byte → Nat) :
    (hufHeader n F).length = 6 + 5 * (symbols F).length := by
  have : (fun s : Byte => (s :: be32 (F s)).length) = fun _ => 5 := by funext s; rfl
  simp only [hufHeader, List.length_append, be32_length, be16_length, List.length_flatMap, this]
  simp
  omega

/-- A sum over the input is a sum over the symbols, each as often as it occurs. -/
theorem sum_map_eq_symbols (inp : List Byte) (g : Byte → Nat) :
    (inp.map g).sum = ((symbols (freqOf inp)).map (fun s => freqOf inp s * g s)).sum := by
  rw [← Finset.sum_list_map_count inp g |>.symm, ← List.sum_toFinset _ (symbols_nodup _)]
  refine (Finset.sum_congr ?_ fun x _ => by simp [freqOf]).symm
  ext s
  simp

end Sys2Proof.Machine
end

