-- ==== Sys2Proof/Laws/Lz.lean ====
section
/-! SUPPORT. The laws of the match search and of the token loop (43_lz77.md R231, R232, R236). -/

namespace Sys2Proof.Machine

/-! ## Match length -/

/-- The common beginning of two lists, at most `k` long: how far they agree, and why it ends. -/
theorem commonLen_spec : ∀ (k : Nat) (a b : List Byte),
    commonLen k a b ≤ k ∧ commonLen k a b ≤ a.length ∧ commonLen k a b ≤ b.length ∧
    (∀ i, i < commonLen k a b → a[i]? = b[i]?) ∧
    (commonLen k a b = k ∨ commonLen k a b = a.length ∨ commonLen k a b = b.length ∨
      a[commonLen k a b]? ≠ b[commonLen k a b]?)
  | 0, a, b => by simp [commonLen]
  | k + 1, [], b => by simp [commonLen]
  | k + 1, x :: a, [] => by simp [commonLen]
  | k + 1, x :: a, y :: b => by
    obtain ⟨h1, h2, h3, h4, h5⟩ := commonLen_spec k a b
    unfold commonLen
    split
    · next hxy =>
      subst hxy
      refine ⟨by omega, by simp; omega, by simp; omega, fun i hi => ?_, ?_⟩
      · cases i with
        | zero => rfl
        | succ i => simpa using h4 i (by omega)
      · simp only [List.length_cons]
        rcases h5 with h5 | h5 | h5 | h5
        · exact .inl (by omega)
        · exact .inr (.inl (by omega))
        · exact .inr (.inr (.inl (by omega)))
        · exact .inr (.inr (.inr (by simpa using h5)))
    · next hxy => simp [hxy]

/-- A match never goes past the limit, and its bytes equal those `d` before them. -/
theorem matchLen_le (inp : List Byte) (p d lmax : Nat) : matchLen inp p d lmax ≤ lmax :=
  (commonLen_spec lmax (inp.drop p) (inp.drop (p - d))).1

theorem matchLen_agree (inp : List Byte) (p d lmax i : Nat) (h : i < matchLen inp p d lmax) :
    inp[p + i]? = inp[p - d + i]? := by
  have := (commonLen_spec lmax (inp.drop p) (inp.drop (p - d))).2.2.2.1 i h
  simpa [List.getElem?_drop] using this

/-- A match that ends within the limit ends at a difference. -/
theorem matchLen_stop {inp : List Byte} {p d lmax : Nat} (hl : p + lmax < inp.length)
    (h : matchLen inp p d lmax ≠ lmax) :
    inp[p + matchLen inp p d lmax]? ≠ inp[p - d + matchLen inp p d lmax]? := by
  obtain ⟨h1, -, -, -, h5⟩ := commonLen_spec lmax (inp.drop p) (inp.drop (p - d))
  change matchLen inp p d lmax ≤ lmax at h1
  change matchLen inp p d lmax = lmax ∨ matchLen inp p d lmax = _ ∨ matchLen inp p d lmax = _ ∨ _ at h5
  simp only [List.length_drop] at h5
  rcases h5 with h5 | h5 | h5 | h5
  · exact absurd h5 h
  · omega
  · omega
  · rw [List.getElem?_drop, List.getElem?_drop] at h5
    exact h5

/-- Bytes that agree make the match at least that long. -/
theorem le_matchLen {inp : List Byte} {p d lmax k : Nat} (hl : p + lmax < inp.length) (hk : k ≤ lmax)
    (h : ∀ i, i < k → inp[p + i]? = inp[p - d + i]?) : k ≤ matchLen inp p d lmax := by
  by_contra hc
  exact matchLen_stop hl (d := d) (by omega) (h _ (by omega))

/-! ## The best match -/

/-- The best pair of a scan over a list of distances: none of them matches a byte and it is (0, 0), or it is one of
them, as good as every other and better than every earlier one. -/
theorem lzBest_fold (inp : List Byte) (p : Nat) (ds : List Nat) :
    (ds.foldl (lzBetter inp p) (0, 0) = (0, 0) ∧ ∀ d ∈ ds, matchLen inp p d (lzLimit inp p) = 0) ∨
    (∃ pre d post, ds = pre ++ d :: post ∧
      ds.foldl (lzBetter inp p) (0, 0) = (d, matchLen inp p d (lzLimit inp p)) ∧
      0 < matchLen inp p d (lzLimit inp p) ∧
      (∀ d' ∈ ds, matchLen inp p d' (lzLimit inp p) ≤ matchLen inp p d (lzLimit inp p)) ∧
      ∀ d' ∈ pre, matchLen inp p d' (lzLimit inp p) < matchLen inp p d (lzLimit inp p)) := by
  induction ds using List.reverseRecOn with
  | nil => simp
  | append_singleton ds e ih =>
    rw [List.foldl_append, List.foldl_cons, List.foldl_nil]
    rcases ih with ⟨h1, h2⟩ | ⟨pre, d, post, h1, h2, h3, h4, h5⟩
    · rw [h1]
      by_cases he : matchLen inp p e (lzLimit inp p) = 0
      · refine .inl ⟨by simp [lzBetter, he], fun d hd => ?_⟩
        rcases List.mem_append.1 hd with hd | hd
        · exact h2 d hd
        · rw [List.mem_singleton.1 hd]; exact he
      · refine .inr ⟨ds, e, [], rfl, by simp [lzBetter, Nat.pos_of_ne_zero he], by omega, fun d hd => ?_, fun d hd => ?_⟩
        · rcases List.mem_append.1 hd with hd | hd
          · rw [h2 d hd]; omega
          · rw [List.mem_singleton.1 hd]
        · rw [h2 d hd]; omega
    · rw [h2]
      by_cases he : matchLen inp p d (lzLimit inp p) < matchLen inp p e (lzLimit inp p)
      · refine .inr ⟨ds, e, [], rfl, by simp [lzBetter, he], by omega, fun d' hd => ?_, fun d' hd => ?_⟩
        · rcases List.mem_append.1 hd with hd | hd
          · have := h4 d' hd; omega
          · rw [List.mem_singleton.1 hd]
        · have := h4 d' hd; omega
      · refine .inr ⟨pre, d, post ++ [e], by simp [h1], by simp [lzBetter, he], h3, fun d' hd => ?_, h5⟩
        rcases List.mem_append.1 hd with hd | hd
        · exact h4 d' hd
        · rw [List.mem_singleton.1 hd]; omega

/-- The best match of R232: nothing matches, or the longest match at the nearest distance. -/
theorem lzBest_spec (window : Nat) (inp : List Byte) (p : Nat) :
    (lzBest window inp p = (0, 0) ∧ ∀ d, 1 ≤ d → d ≤ min p window → matchLen inp p d (lzLimit inp p) = 0) ∨
    (∃ d, 1 ≤ d ∧ d ≤ min p window ∧ lzBest window inp p = (d, matchLen inp p d (lzLimit inp p)) ∧
      0 < matchLen inp p d (lzLimit inp p) ∧
      (∀ d', 1 ≤ d' → d' ≤ min p window → matchLen inp p d' (lzLimit inp p) ≤ matchLen inp p d (lzLimit inp p)) ∧
      ∀ d', 1 ≤ d' → d' < d → matchLen inp p d' (lzLimit inp p) < matchLen inp p d (lzLimit inp p)) := by
  have hm : ∀ d, d ∈ List.range' 1 (min p window) ↔ 1 ≤ d ∧ d ≤ min p window := by
    intro d; rw [List.mem_range'_1]; omega
  rcases lzBest_fold inp p (List.range' 1 (min p window)) with ⟨h1, h2⟩ | ⟨pre, d, post, h1, h2, h3, h4, h5⟩
  · exact .inl ⟨h1, fun d hd hd' => h2 d ((hm d).2 ⟨hd, hd'⟩)⟩
  · have hd := (hm d).1 (by rw [h1]; simp)
    refine .inr ⟨d, hd.1, hd.2, h2, h3, fun d' a b => h4 d' ((hm d').2 ⟨a, b⟩), fun d' a b => h5 d' ?_⟩
    have hmem : d' ∈ pre ++ d :: post := by rw [← h1]; exact (hm d').2 ⟨a, by omega⟩
    have hs : (pre ++ d :: post).Pairwise (· < ·) := h1 ▸ List.pairwise_lt_range'
    rw [List.pairwise_append, List.pairwise_cons] at hs
    rcases List.mem_append.1 hmem with h | h
    · exact h
    · rcases List.mem_cons.1 h with h | h
      · omega
      · have := hs.2.1.1 d' h; omega

theorem lzBest_len_le (window : Nat) (inp : List Byte) (p : Nat) : (lzBest window inp p).2 ≤ lzLimit inp p := by
  rcases lzBest_spec window inp p with ⟨h, -⟩ | ⟨d, -, -, h, -⟩ <;> rw [h]
  · omega
  · exact matchLen_le _ _ _ _

/-! ## Tokens -/

/-- The token at a position leaves one byte for its literal (R231, R236). -/
theorem lzFind_len_lt (window minMatch : Nat) {inp : List Byte} {p : Nat} (h : p < inp.length) :
    p + (lzFind window minMatch inp p).2 < inp.length := by
  have h1 := lzBest_len_le window inp p
  unfold lzLimit at h1
  unfold lzFind
  split
  · simpa using h
  · omega

theorem lzFind_len_le (window minMatch : Nat) (inp : List Byte) (p : Nat) : (lzFind window minMatch inp p).2 ≤ 255 := by
  have h1 := lzBest_len_le window inp p
  unfold lzLimit Config.lzMaxLen at h1
  unfold lzFind
  split
  · simp
  · omega

/-- What find returns is a literal or a back-reference within the limits, whose bytes repeat (R232, R234). -/
theorem lzFind_form {window minMatch : Nat} {inp : List Byte} {p : Nat} (hm : 1 ≤ minMatch) :
    lzFind window minMatch inp p = (0, 0) ∨
    (1 ≤ (lzFind window minMatch inp p).1 ∧ (lzFind window minMatch inp p).1 ≤ p ∧
      (lzFind window minMatch inp p).1 ≤ window ∧ minMatch ≤ (lzFind window minMatch inp p).2 ∧
      ∀ i, i < (lzFind window minMatch inp p).2 → inp[p + i]? = inp[p - (lzFind window minMatch inp p).1 + i]?) := by
  unfold lzFind
  split
  · exact .inl rfl
  · next h =>
    rcases lzBest_spec window inp p with ⟨h1, -⟩ | ⟨d, h1, h2, h3, -⟩
    · rw [h1] at h; simp at h; omega
    · rw [h3] at h ⊢
      simp only at h ⊢
      exact .inr ⟨h1, by omega, by omega, by omega, fun i hi => matchLen_agree _ _ _ _ _ hi⟩

/-- The literal of a token is the byte after its match. -/
theorem tokenAt_lit (window minMatch : Nat) {inp : List Byte} {p : Nat} (h : p < inp.length) :
    inp[p + (tokenAt window minMatch inp p).len]? = some (tokenAt window minMatch inp p).lit := by
  have := lzFind_len_lt window minMatch h
  simp [tokenAt, this]

theorem tokenAt_end (window minMatch : Nat) {inp : List Byte} {p : Nat} (h : p < inp.length) :
    p + (tokenAt window minMatch inp p).len + 1 ≤ inp.length := lzFind_len_lt window minMatch h

/-- More fuel than bytes left changes nothing. -/
theorem tokensFrom_fuel (window minMatch : Nat) (inp : List Byte) : ∀ (n m p : Nat), inp.length - p ≤ n →
    inp.length - p ≤ m → tokensFrom window minMatch inp n p = tokensFrom window minMatch inp m p
  | 0, 0, _, _, _ => rfl
  | 0, m + 1, p, hn, _ => by simp only [tokensFrom]; rw [if_neg (by omega)]
  | n + 1, 0, p, _, hm => by simp only [tokensFrom]; rw [if_neg (by omega)]
  | n + 1, m + 1, p, hn, hm => by
    simp only [tokensFrom]
    split
    · next h => rw [tokensFrom_fuel window minMatch inp n m _ (by omega) (by omega)]
    · rfl

/-- The tokens from a position on (R236). -/
def tokensAt (window minMatch : Nat) (inp : List Byte) (p : Nat) : List Token :=
  tokensFrom window minMatch inp (inp.length - p) p

theorem tokens_eq (window minMatch : Nat) (inp : List Byte) :
    tokens window minMatch inp = tokensAt window minMatch inp 0 := rfl

theorem tokensAt_end (window minMatch : Nat) {inp : List Byte} {p : Nat} (h : inp.length ≤ p) :
    tokensAt window minMatch inp p = [] := by
  unfold tokensAt
  rw [show inp.length - p = 0 by omega]
  rfl

/-- The loop of R236, one turn. -/
theorem tokensAt_step (window minMatch : Nat) {inp : List Byte} {p : Nat} (h : p < inp.length) :
    tokensAt window minMatch inp p = tokenAt window minMatch inp p ::
      tokensAt window minMatch inp (p + (tokenAt window minMatch inp p).len + 1) := by
  unfold tokensAt
  obtain ⟨k, hk⟩ : ∃ k, inp.length - p = k + 1 := ⟨inp.length - p - 1, by omega⟩
  rw [hk]
  simp only [tokensFrom, if_pos h]
  rw [tokensFrom_fuel window minMatch inp k _ _ (by omega) (le_refl _)]

/-- What holds at the input's end, and at a position whenever it holds where its token ends, holds at every position
up to the end. -/
theorem tokens_induction {window minMatch : Nat} {inp : List Byte} {P : Nat → Prop} (atEnd : P inp.length)
    (token : ∀ p, p < inp.length → P (p + (tokenAt window minMatch inp p).len + 1) → P p) :
    ∀ p, p ≤ inp.length → P p := by
  intro p
  induction hk : inp.length - p using Nat.strong_induction_on generalizing p with
  | _ k ih =>
    intro hp
    by_cases h : p < inp.length
    · have := tokenAt_end window minMatch h
      exact token p h (ih _ (by omega) _ rfl this)
    · rw [show p = inp.length by omega]
      exact atEnd

/-! ## Copying back -/

/-- Copying a match from the output so far gives the input up to the match's end (45_reference_decoders.md R287). -/
theorem copyBack_spec (inp : List Byte) (d : Nat) (hd : 1 ≤ d) : ∀ (l p : Nat), d ≤ p → p + l ≤ inp.length →
    (∀ i, i < l → inp[p + i]? = inp[p - d + i]?) → copyBack d l (inp.take p) = inp.take (p + l)
  | 0, p, _, _, _ => rfl
  | l + 1, p, hp, hl, h => by
    have h0 : inp[p]? = inp[p - d]? := h 0 (by omega)
    have hlen : (inp.take p).length = p := by simp; omega
    have hb : inp.take p ++ [(inp.take p).getD ((inp.take p).length - d) 0#8] = inp.take (p + 1) := by
      rw [hlen, List.take_add_one, h0, List.getD, List.getElem?_take_of_lt (by omega),
        List.getElem?_eq_getElem (show p - d < inp.length by omega)]
      rfl
    rw [copyBack, hb, copyBack_spec inp d hd l (p + 1) (by omega) (by omega) (fun i hi => ?_),
      show p + 1 + l = p + (l + 1) by omega]
    have := h (i + 1) (by omega)
    rwa [show p + 1 + i = p + (i + 1) by omega, show p + 1 - d + i = p - d + (i + 1) by omega]

end Sys2Proof.Machine
end

