-- ==== Sys2Proof/Laws/Packer.lean ====
section
/-! SUPPORT. What pushing bits does to the packer, to the buffer it writes, and to the packed stream
(40_bitpacker.md R140, R141). -/

namespace Sys2Proof.Machine

/-- The packed stream of a packer and its buffer (R140). -/
def packedOf (pm : Packer × Memory) : List Bool := streamBits (pm.2.bytes pm.1.dstLen.toNat) ++ pm.1.pendingBits

theorem packedStream_eq (s : State) : s.packedStream = packedOf (s.packer, s.outBuf) := rfl

/-- How many bits the packer holds, written or pending. -/
def Packer.total (p : Packer) : Nat := 8 * p.dstLen.toNat + p.pend.toNat

@[simp] theorem pendingBits_length (p : Packer) : p.pendingBits.length = p.pend.toNat := by
  simp [Packer.pendingBits]

@[simp] theorem packedOf_length (pm : Packer × Memory) : (packedOf pm).length = pm.1.total := by
  simp [packedOf, Packer.total]

/-- The bits of ACC with one more at the place of the first free bit. -/
theorem acc_or_getLsbD (acc : Byte) (b : Bool) (k j : Nat) (hk : k < 8) (hj : j < 8) :
    (acc ||| ((BitVec.ofBool b).setWidth 8 <<< (7 - k))).getLsbD j = (acc.getLsbD j || (decide (j = 7 - k) && b)) := by
  rw [BitVec.getLsbD_or, BitVec.getLsbD_shiftLeft, BitVec.getLsbD_setWidth, BitVec.getLsbD_ofBool]
  congr 1
  by_cases h : j = 7 - k
  · subst h; simp [show 7 - k < 8 by omega]
  · by_cases h2 : j < 7 - k
    · simp [h, h2]
    · simp [h, show ¬ j - (7 - k) = 0 by omega]

/-- ACC with one more bit holds the pending bits and that bit. -/
theorem pendingBits_or (p : Packer) (b : Bool) (hc : p.clean) :
    (List.range (p.pend.toNat + 1)).map
      (fun i => (p.acc ||| ((BitVec.ofBool b).setWidth 8 <<< (7 - p.pend.toNat))).getLsbD (7 - i)) =
      p.pendingBits ++ [b] := by
  have hp := p.pend.isLt
  rw [show List.range (p.pend.toNat + 1) = List.range p.pend.toNat ++ [p.pend.toNat] from List.range_succ,
    List.map_append]
  congr 1
  · apply List.map_congr_left
    intro i hi
    have := List.mem_range.1 hi
    simp only [acc_or_getLsbD p.acc b _ (7 - i) (show p.pend.toNat < 8 by omega) (by omega),
      show ¬ 7 - i = 7 - p.pend.toNat by omega, decide_false, Bool.false_and, Bool.or_false]
  · simp only [List.map_cons, List.map_nil,
      acc_or_getLsbD p.acc b _ (7 - p.pend.toNat) (show p.pend.toNat < 8 by omega) (by omega),
      hc (7 - p.pend.toNat) (by omega), decide_true, Bool.true_and, Bool.false_or]

theorem total_eq_of_packedOf {pm pm' : Packer × Memory} {bits : List Bool} (h : packedOf pm' = packedOf pm ++ bits) :
    pm'.1.total = pm.1.total + bits.length := by
  have := congrArg List.length h
  simpa using this

/-- Everything one pushed bit does. -/
theorem pushBit_spec (p : Packer) (m : Memory) (b : Bool) (hc : p.clean) (hd : (p.total + 1) / 8 < 2 ^ 32) :
    packedOf (pushBit (p, m) b) = packedOf (p, m) ++ [b] ∧ (pushBit (p, m) b).1.clean ∧
    (pushBit (p, m) b).1.pad = p.pad ∧
    (∀ a, a < p.dstLen.toNat ∨ (pushBit (p, m) b).1.dstLen.toNat ≤ a → (pushBit (p, m) b).2.read a = m.read a) := by
  have hp := p.pend.isLt
  have hb := pendingBits_or p b hc
  unfold pushBit
  by_cases h7 : p.pend = 7#3
  · have h7' : p.pend.toNat = 7 := by rw [h7]; rfl
    rw [h7'] at hb
    simp only [if_pos h7]
    have hd' : (p.dstLen + 1).toNat = p.dstLen.toNat + 1 := by
      unfold Packer.total at hd
      rw [BitVec.toNat_add]; simp; omega
    refine ⟨?_, ?_, trivial, fun a ha => Memory.read_write_other _ _ _ _ (by rw [hd'] at ha; omega)⟩
    · have hp0 : Packer.pendingBits { dstLen := p.dstLen + 1, pend := 0#3, pad := p.pad, acc := 0#8 } = [] := rfl
      simp only [packedOf, hd', Memory.bytes_succ, streamBits_snoc, Memory.read_write_same, hp0, List.append_nil,
        byteBits, h7']
      rw [Memory.bytes_congr m _ _ (fun i hi => Memory.read_write_other _ _ _ _ (by omega)), List.append_assoc, ← hb]
    · intro j _; simp
  · simp only [if_neg h7]
    have hlt : p.pend.toNat < 7 := by
      have : p.pend.toNat ≠ 7 := fun h => h7 (BitVec.eq_of_toNat_eq h)
      omega
    have hp' : (p.pend + 1).toNat = p.pend.toNat + 1 := by
      rw [BitVec.toNat_add]; simp; omega
    refine ⟨?_, ?_, trivial, fun a _ => trivial⟩
    · simp only [packedOf, Packer.pendingBits, hp', List.append_assoc]
      rw [hb, Packer.pendingBits]
    · intro j hj
      simp only [hp'] at hj
      simp only [acc_or_getLsbD p.acc b _ j (show p.pend.toNat < 8 by omega) (by omega), hc j (by omega),
        show ¬ j = 7 - p.pend.toNat by omega, decide_false, Bool.false_and, Bool.or_self]

/-- The whole bytes and the pending bits of a packer are the quotient and the remainder of its bits. -/
theorem Packer.dstLen_eq (p : Packer) : p.dstLen.toNat = p.total / 8 := by
  have := p.pend.isLt
  unfold Packer.total
  omega

theorem Packer.pend_eq (p : Packer) : p.pend.toNat = p.total % 8 := by
  have := p.pend.isLt
  unfold Packer.total
  omega

theorem pushBits_cons (pm : Packer × Memory) (b : Bool) (bits : List Bool) :
    pushBits pm (b :: bits) = pushBits (pushBit pm b) bits := rfl

/-- Everything a pushed bit string does: it is appended, and only the bytes it completes are written. -/
theorem pushBits_spec : ∀ (bits : List Bool) (p : Packer) (m : Memory), p.clean →
    (p.total + bits.length) / 8 < 2 ^ 32 →
    packedOf (pushBits (p, m) bits) = packedOf (p, m) ++ bits ∧ (pushBits (p, m) bits).1.clean ∧
    (pushBits (p, m) bits).1.pad = p.pad ∧
    (∀ a, a < p.dstLen.toNat ∨ (pushBits (p, m) bits).1.dstLen.toNat ≤ a →
      (pushBits (p, m) bits).2.read a = m.read a)
  | [], p, m, hc, _ => ⟨by simp [pushBits], hc, rfl, fun _ _ => rfl⟩
  | b :: bits, p, m, hc, hl => by
    rw [List.length_cons] at hl
    have h1 := pushBit_spec p m b hc (by omega)
    have ht : (pushBit (p, m) b).1.total = p.total + 1 := total_eq_of_packedOf h1.1
    have h2 := pushBits_spec bits (pushBit (p, m) b).1 (pushBit (p, m) b).2 h1.2.1 (by omega)
    have ht2 : (pushBits (pushBit (p, m) b) bits).1.total = (pushBit (p, m) b).1.total + bits.length :=
      total_eq_of_packedOf h2.1
    rw [pushBits_cons]
    refine ⟨?_, h2.2.1, h2.2.2.1.trans h1.2.2.1, fun a ha => ?_⟩
    · rw [h2.1, h1.1, List.append_assoc]; rfl
    · have e0 := p.dstLen_eq
      have e1 := (pushBit (p, m) b).1.dstLen_eq
      have e2 := (pushBits (pushBit (p, m) b) bits).1.dstLen_eq
      have h3 : (pushBits (pushBit (p, m) b) bits).2.read a = (pushBit (p, m) b).2.read a :=
        h2.2.2.2 a (show a < _ ∨ (pushBits (pushBit (p, m) b) bits).1.dstLen.toNat ≤ a by omega)
      exact h3.trans (h1.2.2.2 a (by omega))

end Sys2Proof.Machine
end

