-- ==== Sys2Proof/Laws/PerInstr.lean ====
section
/-! SUPPORT. Statements about every command as syntax, one lemma per constructor. -/

namespace Sys2Proof.Laws.EncodingShape

/-- A command's own word is well formed, holds its opcode in the opcode field and nothing above it, and is the pattern
of exactly one row of the opcode map (30_encoding.md R110 to R112). -/
def Statement (i : Instr) : Prop :=
  i.wf ∧ opField (encode i) = opcodeOf i ∧ encode i >>> 4 = 0#32 ∧
  (opTable.filter (fun r => r.matchesWord (encode i))).map (fun r => r.instr) = [i]

theorem nop : Statement .nop := by unfold Statement; decide
theorem bpPut : Statement .bpPut := by unfold Statement; decide
theorem bpFlush : Statement .bpFlush := by unfold Statement; decide
theorem bpClear : Statement .bpClear := by unfold Statement; decide
theorem buGet : Statement .buGet := by unfold Statement; decide
theorem buClear : Statement .buClear := by unfold Statement; decide
theorem rleRun : Statement .rleRun := by unfold Statement; decide
theorem rleEnc : Statement .rleEnc := by unfold Statement; decide
theorem hufEnc : Statement .hufEnc := by unfold Statement; decide
theorem lzFind : Statement .lzFind := by unfold Statement; decide
theorem lzEnc : Statement .lzEnc := by unfold Statement; decide

end Sys2Proof.Laws.EncodingShape
end

