-- ==== Sys2Proof/Laws/Rle.lean ====
section
/-! SUPPORT. The laws of the run detector and of the RLE encoder (41_rle.md R171 to R174). -/

namespace Sys2Proof.Machine

/-- What the run count of a list is: as long as the bytes equal `v`, at most `k` of them. -/
theorem sameCount_spec (v : Byte) : ∀ (k : Nat) (l : List Byte),
    sameCount v k l ≤ k ∧ sameCount v k l ≤ l.length ∧ l.take (sameCount v k l) = List.replicate (sameCount v k l) v ∧
    (sameCount v k l = k ∨ (l.drop (sameCount v k l)).head? ≠ some v)
  | 0, l => by simp [sameCount]
  | k + 1, [] => by simp [sameCount]
  | k + 1, b :: bs => by
    obtain ⟨h1, h2, h3, h4⟩ := sameCount_spec v k bs
    unfold sameCount
    split
    · next hb =>
      subst hb
      refine ⟨by omega, by simp; omega, by simp [List.replicate_succ, h3], ?_⟩
      rcases h4 with h4 | h4
      · exact .inl (by omega)
      · exact .inr (by simpa using h4)
    · next hb => simp [hb]

/-- A list split at its first run (R171): the count, the run and what follows it. -/
theorem runCount_spec (v : Byte) (rest : List Byte) :
    1 ≤ runCount v rest ∧ runCount v rest ≤ 255 ∧
    v :: rest = List.replicate (runCount v rest) v ++ rest.drop (runCount v rest - 1) ∧
    (runCount v rest = 255 ∨ (rest.drop (runCount v rest - 1)).head? ≠ some v) := by
  obtain ⟨h1, h2, h3, h4⟩ := sameCount_spec v (Config.rleMaxRun - 1) rest
  unfold runCount
  generalize sameCount v (Config.rleMaxRun - 1) rest = c at *
  simp only [Config.rleMaxRun] at h1 h4
  refine ⟨by omega, by omega, ?_, ?_⟩
  · rw [show 1 + c - 1 = c by omega, show 1 + c = c + 1 by omega, List.replicate_succ, List.cons_append, ← h3,
      List.take_append_drop]
  · rw [show 1 + c - 1 = c by omega]
    rcases h4 with h4 | h4
    · exact .inl (by omega)
    · exact .inr h4

theorem runCount_le (v : Byte) (rest : List Byte) : runCount v rest ≤ rest.length + 1 := by
  have := (sameCount_spec v (Config.rleMaxRun - 1) rest).2.1
  unfold runCount
  omega

/-- More fuel than bytes changes nothing. -/
theorem rleRecords_fuel : ∀ (n m : Nat) (l : List Byte), l.length ≤ n → l.length ≤ m → rleRecords n l = rleRecords m l
  | 0, m, l, hn, _ => by
    have : l = [] := List.length_eq_zero_iff.1 (by omega)
    subst this
    cases m <;> rfl
  | n + 1, 0, l, _, hm => by
    have : l = [] := List.length_eq_zero_iff.1 (by omega)
    subst this
    rfl
  | n + 1, m + 1, [], _, _ => rfl
  | n + 1, m + 1, v :: rest, hn, hm => by
    simp only [List.length_cons] at hn hm
    simp only [rleRecords]
    rw [rleRecords_fuel n m _ (by simp; omega) (by simp; omega)]

@[simp] theorem rleEncode_nil : rleEncode [] = [] := rfl

/-- The loop of R174, one turn. -/
theorem rleEncode_cons (v : Byte) (rest : List Byte) :
    rleEncode (v :: rest) =
      BitVec.ofNat 8 (runCount v rest) :: v :: rleEncode (rest.drop (runCount v rest - 1)) := by
  unfold rleEncode
  simp only [List.length_cons, rleRecords]
  rw [rleRecords_fuel rest.length _ _ (by simp) (le_refl _)]

/-- The count byte of a record is the count. -/
theorem runCount_byte (v : Byte) (rest : List Byte) : (BitVec.ofNat 8 (runCount v rest)).toNat = runCount v rest := by
  have := (runCount_spec v rest).2.1
  simp
  omega

/-- What holds of the empty input, and of an input whenever it holds of what follows its first run, holds always. -/
theorem rle_induction {P : List Byte → Prop} (nil : P [])
    (run : ∀ v rest, P (rest.drop (runCount v rest - 1)) → P (v :: rest)) : ∀ l, P l := by
  intro l
  induction hn : l.length using Nat.strong_induction_on generalizing l with
  | _ n ih =>
    cases l with
    | nil => exact nil
    | cons v rest =>
      simp only [List.length_cons] at hn
      exact run v rest (ih _ (by simp; omega) _ rfl)

/-- The first value of a stream is the first byte of the input. -/
theorem rleRecordsOf_head (l : List Byte) : ((rleRecordsOf (rleEncode l)).head?).map (fun r => r.2) = l.head? := by
  cases l with
  | nil => rfl
  | cons v rest => rw [rleEncode_cons]; rfl

/-- The run the detector reports (R173). -/
theorem runAt_eq {inp : List Byte} {p : Nat} (h : p < inp.length) :
    runAt inp p = { count := BitVec.ofNat 8 (runCount inp[p] (inp.drop (p + 1))), value := inp[p] } := by
  unfold runAt
  rw [List.drop_eq_getElem_cons h]

end Sys2Proof.Machine
end

