-- ==== Sys2Proof/Laws/Step.lean ====
section
/-! SUPPORT. What a bus access, a host turn and a step can do, said once each. -/

namespace Sys2Proof.Machine

/-! ## Accesses -/

/-- An access that does not err, by its direction. -/
theorem access_read {s : State} {a : Access} (hd : a.dir = .read) (ho : a.ok s.params = true) :
    s.access a = .ok ((s.busRead a).1, some (s.busRead a).2) := by simp [State.access, hd, ho]

theorem access_write {s : State} {a : Access} (hd : a.dir = .write) (ho : a.ok s.params = true) :
    s.access a = .ok (s.busWrite a, none) := by simp [State.access, hd, ho]

/-- A refused access is a bus error, and there is no other. -/
theorem access_error {s : State} {a : Access} (ho : a.ok s.params = false) :
    s.access a = .error (.busError a.offset a.width a.dir) := by simp [State.access, ho]

theorem access_isOk {s : State} {a : Access} : (∃ r, s.access a = .ok r) ↔ a.ok s.params = true := by
  cases h : a.ok s.params
  · simp [access_error h]
  · cases hd : a.dir
    · simp [access_read hd h]
    · simp [access_write hd h]

/-- Everything an access can do: a read changes at most the draw counter, a write is `busWrite`. -/
theorem access_cases {s : State} {a : Access} {r : State × Option Word} (h : s.access a = .ok r) :
    a.ok s.params = true ∧
    ((a.dir = .read ∧ r = ((s.busRead a).1, some (s.busRead a).2)) ∨ (a.dir = .write ∧ r = (s.busWrite a, none))) := by
  have ho := access_isOk.1 ⟨r, h⟩
  refine ⟨ho, ?_⟩
  cases hd : a.dir
  · exact .inl ⟨rfl, (Except.ok.inj ((access_read hd ho).symm.trans h)).symm⟩
  · exact .inr ⟨rfl, (Except.ok.inj ((access_write hd ho).symm.trans h)).symm⟩

/-- A read changes nothing of the block; while busy it may take a draw. -/
theorem busRead_state (s : State) (a : Access) : (s.busRead a).1 = { s with draws := (s.busRead a).1.draws } := by
  unfold State.busRead
  split <;> rfl

theorem busRead_idle {s : State} (hb : s.status.busy = false) (a : Access) : s.busRead a = (s, s.exactRead a) := by
  simp [State.busRead, hb]

theorem busRead_exact {s : State} {a : Access} (h : (targetOf a.offset).exactWhileBusy = true) :
    s.busRead a = (s, s.exactRead a) := by
  simp [State.busRead, h]

theorem busRead_busy {s : State} {a : Access} (hb : s.status.busy = true)
    (h : (targetOf a.offset).exactWhileBusy = false) : s.busRead a = (s.nextDraw, a.freeRead s.draws) := by
  simp [State.busRead, h, hb]

/-- The three cases of a write (44_system.md R260, R265). -/
theorem busWrite_softReset {s : State} {a : Access} (h : a.isSoftReset = true) : s.busWrite a = s.softReset := by
  simp [State.busWrite, h]

theorem busWrite_busy {s : State} {a : Access} (h : a.isSoftReset = false) (hb : s.status.busy = true) :
    s.busWrite a = s.dropWrite := by
  simp [State.busWrite, h, hb]

theorem busWrite_idle {s : State} {a : Access} (h : a.isSoftReset = false) (hb : s.status.busy = false) :
    s.busWrite a = s.idleWrite a := by
  simp [State.busWrite, h, hb]

/-- An aligned 32-bit access below the buffer windows never errs (20_memory.md R85). -/
theorem ok_word_regs (p : Config.Params) {off : Offset} (d : Dir) (v : Word) (h : off.toNat < 0x100000)
    (ha : off.toNat % 4 = 0) : Access.ok p { dir := d, offset := off, width := 32, data := v } = true := by
  simp [Access.ok, windowOf, h, Access.isWord, ha]

/-- An aligned 32-bit access in the unassigned range at the top never errs (20_memory.md R89). -/
theorem ok_word_top (p : Config.Params) {off : Offset} (d : Dir) (v : Word) (h : 0x300000 ≤ off.toNat)
    (ha : off.toNat % 4 = 0) : Access.ok p { dir := d, offset := off, width := 32, data := v } = true := by
  simp [Access.ok, windowOf, Access.isWord, ha, show ¬ off.toNat < 0x100000 by omega,
    show ¬ off.toNat < 0x200000 by omega, show ¬ off.toNat < 0x300000 by omega]

theorem inOffset_toNat {i : Nat} (h : i < 0x100000) : (inOffset i).toNat = 0x100000 + i := by
  simp [inOffset]; omega

theorem outOffset_toNat {i : Nat} (h : i < 0x100000) : (outOffset i).toNat = 0x200000 + i := by
  simp [outOffset]; omega

theorem targetOf_inOffset {i : Nat} (h : i < 0x100000) : targetOf (inOffset i) = .inByte i := by
  simp [targetOf, windowOf, inOffset_toNat h, show 0x100000 + i < 0x200000 by omega]

theorem targetOf_outOffset {i : Nat} (h : i < 0x100000) : targetOf (outOffset i) = .outByte i := by
  simp [targetOf, windowOf, outOffset_toNat h, show ¬ 0x200000 + i < 0x100000 by omega,
    show 0x200000 + i < 0x300000 by omega]

/-- The accesses that do not err, in numbers (20_memory.md R85, R87, R88; log 9, log 10). -/
theorem ok_iff (p : Config.Params) (a : Access) : a.ok p = true ↔
    (a.width = 32 ∧ a.offset.toNat % 4 = 0 ∨ a.width = 8 ∧ 0x100000 ≤ a.offset.toNat ∧ a.offset.toNat < 0x300000) ∧
    (0x100000 ≤ a.offset.toNat → a.offset.toNat < 0x200000 → a.offset.toNat + a.width / 8 ≤ 0x100000 + p.inCap) ∧
    (0x200000 ≤ a.offset.toNat → a.offset.toNat < 0x300000 →
      a.dir = .read ∧ a.offset.toNat + a.width / 8 ≤ 0x200000 + p.outCap) := by
  have hlt := a.offset.isLt
  obtain ⟨d, off, w, v⟩ := a
  simp only [Access.ok, windowOf, Access.isWord, Access.isByte] at hlt ⊢
  generalize off.toNat = o at hlt ⊢
  by_cases h1 : o < 0x100000
  · simp [h1, show ¬ 0x100000 ≤ o by omega, show ¬ 0x200000 ≤ o by omega]
  · by_cases h2 : o < 0x200000
    · simp [h1, h2, show 0x100000 ≤ o by omega, show ¬ 0x200000 ≤ o by omega, show o < 0x300000 by omega]
      omega
    · by_cases h3 : o < 0x300000
      · simp [h1, h2, h3, show 0x100000 ≤ o by omega, show 0x200000 ≤ o by omega]
        cases d <;> (simp; try omega)
      · simp [h1, h2, h3, show 0x100000 ≤ o by omega]

/-- The registers lie at their offsets and nowhere else (20_memory.md R86). -/
theorem regTarget_of_lt {o : Nat} (h : o < 0x058) (ha : o % 4 = 0) :
    ∃ r : RegName, regTarget o = .reg r ∧ r.offset.toNat = o := by
  have : ∀ k, k < 22 → ∃ r : RegName, regTarget (4 * k) = .reg r ∧ r.offset.toNat = 4 * k := by
    intro k hk
    exact ⟨RegName.all[k]'hk, by revert k; decide, by revert k; decide⟩
  obtain ⟨r, h1, h2⟩ := this (o / 4) (by omega)
  rw [show 4 * (o / 4) = o by omega] at h1 h2
  exact ⟨r, h1, h2⟩

theorem regTarget_of_ge {o : Nat} (h : 0x058 ≤ o) (r : RegName) : regTarget o ≠ .reg r := by
  unfold regTarget
  rw [if_neg (by omega)]
  (repeat' split) <;> simp

theorem targetOf_offset (r : RegName) : targetOf r.offset = .reg r := by cases r <;> rfl

/-- An aligned offset reaches a register exactly when it is the register's offset. -/
theorem targetOf_reg_iff {o : Offset} (ha : o.toNat % 4 = 0) (r : RegName) : targetOf o = .reg r ↔ o = r.offset := by
  refine ⟨fun h => ?_, fun h => h ▸ targetOf_offset r⟩
  unfold targetOf at h
  split at h
  · by_cases hlt : o.toNat < 0x058
    · obtain ⟨q, h1, h2⟩ := regTarget_of_lt hlt ha
      rw [h1] at h
      cases h
      exact BitVec.eq_of_toNat_eq h2.symm
    · exact absurd h (regTarget_of_ge (Nat.not_lt.1 hlt) r)
  all_goals cases h

/-- An access below the buffer windows that does not err is aligned. -/
theorem aligned_of_ok {p : Config.Params} {a : Access} (ho : a.ok p = true) (h : a.offset.toNat < 0x100000) :
    a.offset.toNat % 4 = 0 := by
  have := ((ok_iff p a).1 ho).1
  omega

theorem windowOf_regs {o : Offset} : windowOf o = .regs ↔ o.toNat < 0x100000 := by
  unfold windowOf
  (repeat' split) <;> simp_all

/-- A register target lies below the buffer windows. -/
theorem lt_of_targetOf_reg {o : Offset} {r : RegName} (h : targetOf o = .reg r) : o.toNat < 0x100000 := by
  unfold targetOf at h
  split at h
  · next hw => exact windowOf_regs.1 hw
  all_goals cases h

/-- A write that does not err is the soft reset exactly when it goes to CTRL with bit 1 set. -/
theorem isSoftReset_iff {p : Config.Params} {a : Access} (ho : a.ok p = true) :
    a.isSoftReset = true ↔ a.offset = 0x004#22 ∧ a.data.getLsbD 1 = true := by
  simp only [Access.isSoftReset, Bool.and_eq_true, beq_iff_eq]
  refine and_congr_left fun _ => ⟨fun h => ?_, fun h => h ▸ rfl⟩
  exact (targetOf_reg_iff (aligned_of_ok ho (lt_of_targetOf_reg h)) .ctrl).1 h

@[simp] theorem isSoftReset_ctrl (v : Word) : (Access.w32 0x004#22 v).isSoftReset = v.getLsbD 1 := by
  simp only [Access.isSoftReset, Access.w32, show targetOf 0x004#22 = .reg .ctrl from rfl, beq_self_eq_true,
    Bool.true_and]

/-- What is exact while busy, by offset (44_system.md R266). -/
theorem exactWhileBusy_iff {p : Config.Params} {a : Access} (ho : a.ok p = true) :
    (targetOf a.offset).exactWhileBusy = true ↔ targetOf a.offset = .unassigned ∨
      a.offset ∈ [0x000#22, 0x004#22, 0x008#22, 0x00C#22, 0x04C#22, 0x050#22, 0x054#22] := by
  constructor
  · intro h
    cases ht : targetOf a.offset with
    | reg r =>
      have := (targetOf_reg_iff (aligned_of_ok ho (lt_of_targetOf_reg ht)) r).1 ht
      rw [ht] at h
      rw [this]
      cases r <;> first | exact .inr (by decide) | (simp [Target.exactWhileBusy] at h)
    | unassigned => exact .inl rfl
    | _ => rw [ht] at h; simp [Target.exactWhileBusy] at h
  · rintro (h | h)
    · rw [h]; rfl
    · simp only [List.mem_cons, List.mem_nil_iff, or_false] at h
      rcases h with h | h | h | h | h | h | h <;> rw [h] <;> rfl

/-- An access to IN_BUF of a legal width errs exactly past the capacity (20_memory.md R87). -/
theorem ok_inOffset {p : Config.Params} {i w : Nat} (hi : i < 0x100000) (d : Dir) (v : Word)
    (hw : w = 8 ∨ w = 32 ∧ i % 4 = 0) :
    Access.ok p { dir := d, offset := inOffset i, width := w, data := v } = decide (i + w / 8 ≤ p.inCap) := by
  rcases hw with rfl | ⟨rfl, ha⟩
  · simp [Access.ok, windowOf, inOffset_toNat hi, show 0x100000 + i < 0x200000 by omega, Access.isByte]
  · simp [Access.ok, windowOf, inOffset_toNat hi, show 0x100000 + i < 0x200000 by omega, Access.isByte, Access.isWord,
      show (0x100000 + i) % 4 = 0 by omega]

/-! ## The host's turn and the step -/

/-- What one host step can do. -/
theorem runHost_cases {s t : State} {st : HostStep} (h : s.runHost st = .next t) :
    (st.access = none ∧ t = s.tick.setHost s.host.advance) ∨
    (∃ a r, st.access = some a ∧ s.tick.access a = .ok r ∧ t = r.1.setHost (s.host.after st r.2)) := by
  unfold State.runHost at h
  split at h
  · next hn => exact .inl ⟨hn, (Host.Outcome.next.inj h).symm⟩
  · next a ha =>
    split at h
    · cases h
    · next r hr => exact .inr ⟨a, r, ha, hr, (Host.Outcome.next.inj h).symm⟩

/-- The completion step: a command's effect, or the BAD_OPCODE completion. It always answers a next state. -/
theorem complete_cases (s : State) :
    (∃ i, decode (cmdWord s.op) = .ok i ∧ s.complete exec = exec i s) ∨
    (10 < s.op.toNat ∧ s.complete exec = .next (s.badOpcode s.op)) := by
  by_cases h : s.op.toNat ≤ 10
  · obtain ⟨i, hi, -⟩ := decode_of_le (w := cmdWord s.op) (by simpa using h)
    exact .inl ⟨i, hi, by simp [State.complete, hi]⟩
  · have h := Nat.not_le.1 h
    exact .inr ⟨h, by simp [State.complete, decode_cmdWord_of_gt h]⟩

/-- Everything one step can do: the hard reset, the completion step, an idle stutter, or one host step. -/
theorem step_cases {s t : State} (h : step s = .next t) :
    (s.resetAsserted = true ∧ t = s.sampled.hardReset) ∨
    (s.resetAsserted = false ∧ s.completesNow = true ∧ s.sampled.complete exec = .next t) ∨
    (s.resetAsserted = false ∧ s.completesNow = false ∧ s.host.current = none ∧ t = s.sampled) ∨
    (s.resetAsserted = false ∧ s.completesNow = false ∧
      ∃ st, s.host.current = some st ∧ s.sampled.runHost st = .next t) := by
  unfold step at h
  split at h
  · next h1 => exact .inl ⟨h1, (Host.Outcome.next.inj h).symm⟩
  · next h1 =>
    have h1 : s.resetAsserted = false := by simpa using h1
    split at h
    · next h2 => exact .inr (.inl ⟨h1, h2, h⟩)
    · next h2 =>
      have h2 : s.completesNow = false := by simpa using h2
      unfold State.hostTurn at h
      split at h
      · next hc => exact .inr (.inr (.inl ⟨h1, h2, hc, (Host.Outcome.next.inj h).symm⟩))
      · next st hc => exact .inr (.inr (.inr ⟨h1, h2, st, hc, h⟩))

theorem resetAsserted_iff (s : State) : s.resetAsserted = true ↔ s.resetIn.head? = some true := by
  unfold State.resetAsserted
  cases s.resetIn <;> simp

theorem resetAsserted_false_iff (s : State) : s.resetAsserted = false ↔ s.resetIn.head? ≠ some true := by
  rw [Ne, ← resetAsserted_iff, Bool.not_eq_true]

/-- With no reset, no completion due and a step of its program to make, the step is the host's. -/
theorem step_runHost {s : State} {st : HostStep} (hr : s.resetIn.head? ≠ some true)
    (hw : s.status.busy = true → s.wait ≠ 0) (hc : s.host.current = some st) : step s = s.sampled.runHost st := by
  have hlt : s.host.pc < s.host.prog.length := by
    by_contra h
    rw [HostAgent.current, List.getElem?_eq_none (Nat.not_lt.1 h)] at hc
    cases hc
  have hn : s.completesNow = false := by
    cases hb : s.status.busy <;> simp [State.completesNow, hb, HostAgent.finished]
    exact ⟨hlt, hw hb⟩
  simp [step, (resetAsserted_false_iff s).2 hr, hn, State.hostTurn, State.sampled, hc]

/-- An access leaves the host as it is; the host's own step moves it. -/
theorem access_host {s : State} {a : Access} {r : State × Option Word} (h : s.access a = .ok r) :
    r.1.host = s.host := by
  obtain ⟨-, ⟨-, rfl⟩ | ⟨-, rfl⟩⟩ := access_cases h
  · rw [busRead_state]
  · show (s.busWrite a).host = s.host
    unfold State.busWrite State.softReset State.idleWrite State.writeReg State.writeCtrl
    (repeat' split) <;> rfl

/-- An idle 32-bit read of a register returns its value and changes nothing. -/
theorem access_readReg {s : State} (hb : s.status.busy = false) (r : RegName) :
    s.access (.r32 r.offset) = .ok (s, some (s.readReg r)) := by
  have hok : (Access.r32 r.offset).ok s.params = true := by cases r <;> rfl
  rw [access_read rfl hok, busRead_idle hb]
  simp [State.exactRead, Access.r32, targetOf_offset]

/-- The register reads of several fields, field by field (10_state.md R43, R47, R48). -/
theorem Packer.word_eq (p : Packer) :
    p.word = p.pend.setWidth 32 ||| p.pad.setWidth 32 <<< 4 ||| p.acc.setWidth 32 <<< 8 := by
  unfold Packer.word
  apply BitVec.eq_of_getLsbD_eq
  intro i hi
  simp only [BitVec.getLsbD_append, BitVec.getLsbD_or, BitVec.getLsbD_shiftLeft, BitVec.getLsbD_setWidth]
  interval_cases i <;> simp

theorem MatchReg.word_eq (m : MatchReg) :
    m.word = m.dist.setWidth 32 ||| m.len.setWidth 32 <<< 16 ||| m.lit.setWidth 32 <<< 24 := by
  unfold MatchReg.word
  apply BitVec.eq_of_getLsbD_eq
  intro i hi
  simp only [BitVec.getLsbD_append, BitVec.getLsbD_or, BitVec.getLsbD_shiftLeft, BitVec.getLsbD_setWidth]
  interval_cases i <;> simp

theorem RunReg.word_eq (r : RunReg) : r.word = r.count.setWidth 32 ||| r.value.setWidth 32 <<< 8 := by
  unfold RunReg.word
  apply BitVec.eq_of_getLsbD_eq
  intro i hi
  simp only [BitVec.getLsbD_append, BitVec.getLsbD_or, BitVec.getLsbD_shiftLeft, BitVec.getLsbD_setWidth]
  interval_cases i <;> simp

/-- A busy machine whose completion step does not come next has a host step to make. -/
theorem current_of_busy {s : State} (hb : s.status.busy = true) (hc : s.completesNow = false) :
    ∃ st, s.host.current = some st := by
  simp [State.completesNow, hb, HostAgent.finished] at hc
  exact ⟨s.host.prog[s.host.pc], by simp [HostAgent.current, hc.1]⟩

end Sys2Proof.Machine
end

