-- ==== Sys2Proof/Tests/Slice0.lean ====
section
/-! SUPPORT. Tests of the model. Expected results are from the spec's encodings and the vectors of
95_test_vectors.md (cited by table and row), never from the model; and a witness for the hypotheses of every statement. -/

namespace Sys2Proof.Tests

open Machine

/-! ## Helpers -/

/-- A small block: IN_CAP 8, OUT_CAP 16, LZ_WINDOW 4, LZ_MIN_MATCH 3. -/
def tiny : Config.Params := { inCap := 8, outCap := 16, lzWindow := 4, lzMinMatch := 3 }

/-- A small block right after reset, with an input loaded and SRC_LEN set. -/
def small (inp : List Byte) : State :=
  { State.resetWith tiny with
    inBuf := { cells := (List.range inp.length).zip inp, fills := [], base := 0 }
    srcLen := BitVec.ofNat 32 inp.length }

/-- The same with a command in flight and a wait. -/
def busyState (op : Opcode) (wait : Nat) : State :=
  { small [] with op := op, status := { busy := true, done := false, wbusy := false, errcode := .noError }, wait := wait }

/-- A state with a host program. -/
def withProg (s : State) (prog : List HostStep) : State := { s with host := { s.host with prog := prog } }

/-- The state after a command. -/
def after (i : Instr) (s : State) : State :=
  match exec i s with
  | .next t => t
  | .fault _ => s
  | .refused _ => s

/-- The state after a step. -/
def stepped (s : State) : State :=
  match step s with
  | .next t => t
  | .fault _ => s
  | .refused _ => s

/-- The state after a host access, and what it read. -/
def answer (s : State) (a : Access) : Option (State × Option Word) :=
  match s.access a with
  | .ok r => some r
  | .error _ => none

/-- What a host read returns, none for a bus error. -/
def readOf (s : State) (a : Access) : Option Word := (answer s a).bind (fun r => r.2)

/-- A state whose packer is set. -/
def packed (dstLen : Word) (pend pad : BitVec 3) (acc : Byte) : State :=
  { small [] with packer := { dstLen := dstLen, pend := pend, pad := pad, acc := acc } }

/-- A put of the low `n` bits of `v`. -/
def putOf (v : Word) (n : BitVec 6) (s : State) : State := { s with bpValue := v, bpNbits := n }

/-- "abcabc", and "aab". -/
def abcabc : List Byte := [0x61#8, 0x62#8, 0x63#8, 0x61#8, 0x62#8, 0x63#8]
def aab : List Byte := [0x61#8, 0x61#8, 0x62#8]

/-! ## Decoding: one word per command, written from 30_encoding.md R112 -/

theorem test_decode_nop : decode 0b00000000000000000000000000000000#32 = .ok .nop := by decide
theorem test_decode_bpPut : decode 0b00000000000000000000000000000001#32 = .ok .bpPut := by decide
theorem test_decode_bpFlush : decode 0b00000000000000000000000000000010#32 = .ok .bpFlush := by decide
theorem test_decode_bpClear : decode 0b00000000000000000000000000000011#32 = .ok .bpClear := by decide
theorem test_decode_buGet : decode 0b00000000000000000000000000000100#32 = .ok .buGet := by decide
theorem test_decode_buClear : decode 0b00000000000000000000000000000101#32 = .ok .buClear := by decide
theorem test_decode_rleRun : decode 0b00000000000000000000000000000110#32 = .ok .rleRun := by decide
theorem test_decode_rleEnc : decode 0b00000000000000000000000000000111#32 = .ok .rleEnc := by decide
theorem test_decode_hufEnc : decode 0b00000000000000000000000000001000#32 = .ok .hufEnc := by decide
theorem test_decode_lzFind : decode 0b00000000000000000000000000001001#32 = .ok .lzFind := by decide
theorem test_decode_lzEnc : decode 0b00000000000000000000000000001010#32 = .ok .lzEnc := by decide

/-- Reserved bits do not matter (R113). -/
theorem test_decode_reserved_bits : decode 0xFFFFFFF7#32 = .ok .rleEnc := by decide

/-- The reserved opcodes are refused by name (R115). -/
theorem test_decode_reserved :
    [0xB#32, 0xC#32, 0xD#32, 0xE#32, 0xF#32].map decode =
      [.error (.reservedOpcode 0xB#4), .error (.reservedOpcode 0xC#4), .error (.reservedOpcode 0xD#4),
       .error (.reservedOpcode 0xE#4), .error (.reservedOpcode 0xF#4)] := by decide

/-- The opcode table has the opcodes 0 to 10, and no two rows overlap. -/
theorem test_table_rows_disjoint :
    opTable.Pairwise (fun r q => r.pattern &&& (r.mask &&& q.mask) ≠ q.pattern &&& (r.mask &&& q.mask)) := by decide

/-! ## Well-formedness: each check refuses an ill-formed term -/

/-- The default and the test parameters are legal (00_scope.md R8). -/
theorem smoke_params_legal : Config.Params.default.legal ∧ tiny.legal := by decide

/-- Illegal parameters, each bound of 00_scope.md R8 broken once. -/
theorem smoke_params_illegal : ∀ p ∈ ([⟨0, 16, 4, 3⟩, ⟨1048577, 16, 4, 3⟩, ⟨8, 0, 4, 3⟩, ⟨8, 1048577, 4, 3⟩,
    ⟨8, 16, 0, 3⟩, ⟨8, 16, 65536, 3⟩, ⟨8, 16, 4, 0⟩, ⟨8, 16, 4, 256⟩] : List Config.Params), ¬ p.legal := by decide

theorem smoke_branch_without_label : programWf [.beq Field.busy 0#32 1] = false := by decide
theorem smoke_branch_with_label : programWf [.label 1, .bne Field.busy 0#32 1] = true := by decide
theorem smoke_duplicate_label : programWf [.label 1, .label 1] = false := by decide
theorem smoke_field_outside_register : programWf [.poll { offset := 0x00C#22, lo := 30, len := 3 } 0#32] = false := by
  decide
theorem smoke_empty_field : programWf [.poll { offset := 0x00C#22, lo := 3, len := 0 } 0#32] = false := by decide
theorem smoke_byte_write_to_register : programWf [.w8 0x00C#22 1#8] = false := by decide
theorem smoke_byte_read_of_register : programWf [.r8 0x00C#22 1#8] = false := by decide

/-- A word with a reserved bit set is not the word of a well-formed command. -/
theorem smoke_instr_wf : Instr.wf .lzEnc ∧ ∀ i : Instr, encode i ≠ 0x17#32 := by
  constructor
  · decide
  · intro i; cases i <;> decide

/-- An out-of-order buffer, and one with an empty unspecified range, are not in canonical form. -/
theorem smoke_memory_wf : ¬ Memory.wf { cells := [(3, 1#8), (2, 1#8)], fills := [], base := 0 } ∧
    ¬ Memory.wf { cells := [(3, 1#8), (3, 1#8)], fills := [], base := 0 } ∧
    ¬ Memory.wf { cells := [], fills := [⟨0, 2⟩], base := 0 } ∧
    ¬ Memory.wf { cells := [], fills := [⟨4, 2⟩, ⟨4, 3⟩], base := 0 } := by decide

/-! ## Commands, from 95_test_vectors.md part 2 -/

/-- NOP completes from a state with every operand illegal (44_system.md R262). -/
theorem test_nop : (after .nop { small [] with srcLen := 0xFFFFFFFF#32 }).status.word = 0x02#32 := by decide

/-- Table 2.1 row 1. -/
theorem test_bpPut_pends : (after .bpPut (putOf 0x5#32 3#6 (small []))).readReg .bpState = 0xA003#32 := by decide

/-- Table 2.1 row 8. -/
theorem test_bpPut_crosses_bytes :
    let t := after .bpPut (putOf 0xDEADBEEF#32 32#6 (packed 0#32 7#3 0#3 0xFE#8))
    t.outBuf.bytes 4 = [0xFF#8, 0xBD#8, 0x5B#8, 0x7D#8] ∧ t.readReg .bpState = 0xDE07#32 := by decide +kernel

/-- Table 2.1 row 9. -/
theorem test_bpFlush :
    let t := after .bpFlush (packed 4#32 7#3 0#3 0xDE#8)
    t.outBuf.read 4 = 0xDE#8 ∧ t.packer.dstLen = 5#32 ∧ t.readReg .bpState = 0x10#32 := by decide +kernel

/-- Table 2.1 row 18. -/
theorem test_bpFlush_overflow :
    let t := after .bpFlush { packed 1#32 3#3 0#3 0xA0#8 with dstCap := 1#32 }
    t.status.word = 0x56#32 ∧ t.errinfo = 1#32 ∧ t.readReg .bpState = 0xA003#32 := by decide

/-- Table 2.1 row 20. -/
theorem test_bpClear :
    let t := after .bpClear (packed 5#32 3#3 2#3 0xA0#8)
    t.packer.dstLen = 0#32 ∧ t.readReg .bpState = 0#32 ∧ t.status.word = 0x02#32 := by decide

/-- Table 2.2 row 10. -/
theorem test_buGet :
    let t := after .buGet { small [0xDE#8, 0xAD#8, 0xBE#8, 0xEF#8, 0x01#8] with buPos := 4#32, buNbits := 32#6 }
    t.buValue = 0xEADBEEF0#32 ∧ t.buPos = 36#32 := by decide +kernel

/-- Table 2.2 row 5: exhausted, with nothing changed. -/
theorem test_buGet_exhausted :
    let t := after .buGet { small [0xBF#8, 0x40#8] with buPos := 10#32, buNbits := 8#6, buValue := 1#32 }
    t.buValue = 1#32 ∧ t.buPos = 10#32 ∧ t.status.word = 0x66#32 ∧ t.errinfo = 0xA#32 := by decide

/-- 40_bitpacker.md R147. -/
theorem test_buClear :
    let t := after .buClear { small [] with buPos := 10#32, buValue := 1#32 }
    t.buValue = 0#32 ∧ t.buPos = 0#32 := by decide

/-- Table 2.3 row 2. -/
theorem test_rleRun :
    (after .rleRun { small [0x41#8, 0x41#8, 0x41#8] with pos := 1#32 }).readReg .runReg = 0x4102#32 := by decide +kernel

/-- Table 2.3 row 4. -/
theorem test_rleRun_bad_pos :
    let t := after .rleRun { small [0x41#8, 0x41#8, 0x41#8] with pos := 3#32 }
    t.status.word = 0x46#32 ∧ t.errinfo = 3#32 := by decide

/-- Table 2.3 row 12. -/
theorem test_rleEnc :
    let t := after .rleEnc (small [1#8, 2#8, 2#8, 3#8, 3#8, 3#8])
    t.outBuf.bytes 6 = [1#8, 1#8, 2#8, 2#8, 3#8, 3#8] ∧ t.packer.dstLen = 6#32 := by decide +kernel

/-- Table 2.3 row 16: the run is capped at 255. -/
theorem test_rleEncode_caps_runs :
    rleEncode (List.replicate 511 7#8) = [0xFF#8, 7#8, 0xFF#8, 7#8, 1#8, 7#8] := by decide +kernel

/-- Table 2.4 row 7, the stream and the codes of a = 10, b = 11, c = 0. -/
theorem test_hufEnc :
    let t := after .hufEnc { small [0x61#8, 0x62#8, 0x63#8] with params := { tiny with outCap := 22 }, dstCap := 22#32 }
    t.outBuf.bytes 22 = [0#8, 0#8, 0#8, 3#8, 0#8, 3#8, 0x61#8, 0#8, 0#8, 0#8, 1#8, 0x62#8, 0#8, 0#8, 0#8, 1#8,
      0x63#8, 0#8, 0#8, 0#8, 1#8, 0xB0#8] ∧ t.packer.pad = 3#3 ∧ t.hufNsym = 3#9 ∧ t.codeAt 0x62#8 = 3#256 := by
  decide +kernel

/-- Table 2.4 row 13: "abracadabra", the body and the padding. -/
theorem test_huffEncode_body :
    (huffEncode [0x61#8, 0x62#8, 0x72#8, 0x61#8, 0x63#8, 0x61#8, 0x64#8, 0x61#8, 0x62#8, 0x72#8, 0x61#8]).drop 31 =
      [0x6E#8, 0x8A#8, 0xDC#8] := by decide +kernel

/-- S13 of part 1, at the defaults: "abcXabcYabcZ" at 8, the nearest of two equal matches. -/
theorem test_lzFind_nearest :
    (after .lzFind { small [0x61#8, 0x62#8, 0x63#8, 0x58#8, 0x61#8, 0x62#8, 0x63#8, 0x59#8, 0x61#8, 0x62#8, 0x63#8,
      0x5A#8] with pos := 8#32, params := Config.Params.default }).readReg .matchReg = 0x5A030004#32 := by decide +kernel

/-- S8 of part 1: "ababababab", an overlapping match. -/
theorem test_lzEnc_overlap :
    let t := after .lzEnc { small [0x61#8, 0x62#8, 0x61#8, 0x62#8, 0x61#8, 0x62#8, 0x61#8, 0x62#8, 0x61#8, 0x62#8] with
      params := { tiny with inCap := 10 } }
    t.outBuf.bytes 16 = [0#8, 0#8, 0#8, 0xA#8, 0#8, 0#8, 0#8, 0x61#8, 0#8, 0#8, 0#8, 0x62#8, 0#8, 2#8, 7#8, 0x62#8] ∧
      t.lzNtok = 3#32 := by decide +kernel

/-- Table 2.8: decoders refuse corrupt streams. -/
theorem test_decoders_refuse : rleDec [3#8] = .error .oddLength ∧ rleDec [0#8, 0x41#8] = .error .zeroCount ∧
    hufDec [0#8, 0#8, 0#8] = .error .truncatedHeader ∧ lzDec [0#8, 0#8, 0#8] = .error .truncatedHeader := by
  decide +kernel

/-- 45_reference_decoders.md R289 on "aab" and on the empty input. -/
theorem test_roundTripLaws : roundTripLaws tiny aab ∧ roundTripLaws tiny [] := by decide +kernel

/-! ## The bus and steps -/

/-- The command that withFetchWord puts in flight from reset is what the next step runs. -/
theorem test_fetch_from_reset : (stepped (State.reset.withFetchWord 32 0x5)).status.word = 0x02#32 := by decide +kernel

/-- A reserved opcode from reset: BAD_OPCODE, ERRINFO = OP (95_test_vectors.md program P5). -/
theorem test_reserved_from_reset :
    (stepped (State.reset.withFetchWord 32 0xFB)).status.word = 0x16#32 ∧
      (stepped (State.reset.withFetchWord 32 0xFB)).errinfo = 0xB#32 := by decide +kernel

/-- 20_memory.md R83, R84: byte `IN+0` is the least significant lane. -/
theorem test_lanes : readOf (small [0x11#8, 0x22#8, 0x33#8, 0x44#8]) (.r32 0x100000#22) = some 0x44332211#32 := by
  decide +kernel

/-- The bus errors at the edges of IN_BUF of 8 bytes, OUT_BUF of 16 and the register window (20_memory.md R85 to R88). -/
theorem test_bus_edges :
    (Access.w8 0x100007#22 0#8).ok tiny = true ∧ (Access.w8 0x100008#22 0#8).ok tiny = false ∧
    (Access.w32 0x100004#22 0#32).ok tiny = true ∧ (Access.w32 0x100008#22 0#32).ok tiny = false ∧
    (Access.r8 0x20000F#22).ok tiny = true ∧ (Access.r8 0x200010#22).ok tiny = false ∧
    (Access.w8 0x200000#22 0#8).ok tiny = false ∧ (Access.r8 0x00C#22).ok tiny = false ∧
    (Access.r32 0x00E#22).ok tiny = false ∧ (Access.r32 0x3FFFFC#22).ok tiny = true ∧
    Access.ok tiny { dir := .read, offset := 0x100000#22, width := 16, data := 0#32 } = false := by decide

/-! ## Witnesses: states and operands that meet the hypotheses of the statements, each clause at a boundary value -/

theorem witness_DecodeReadsOpcodeFieldOnly :
    (0xFFFFFFFA#32).extractLsb' 0 4 = (0xA#32).extractLsb' 0 4 ∧ ((0xA#32).extractLsb' 0 4).toNat ≤ 10 ∧
    10 < ((0xB#32).extractLsb' 0 4).toNat := by decide

theorem witness_DecodeEncodeAgree : 4 ≤ 4 ∧ decode 0xFFFFFFFA#32 = .ok .lzEnc ∧
    decodeTableWord 4 0xA = some .lzEnc ∧ decodeTableWord 32 0xA = some .lzEnc := by decide

/-- Both ways a completion step comes next: the wait is over with host steps left, or no host step is left; and both
kinds of opcode, at the bounds of the map and of the reserved range. -/
theorem witness_StepRunsDecodedCommand :
    (∃ s : State, s.resetIn.head? ≠ some true ∧ s.status.busy = true ∧ s.wait = 0 ∧ s.host.pc < s.host.prog.length ∧
      decode (s.op.setWidth 32) = .ok .lzEnc) ∧
    (∃ s : State, s.resetIn.head? ≠ some true ∧ s.status.busy = true ∧ s.wait = 5 ∧ s.host.prog.length ≤ s.host.pc ∧
      decode (s.op.setWidth 32) = .ok .nop) ∧
    (∃ s : State, s.resetIn.head? ≠ some true ∧ s.status.busy = true ∧ s.wait = 0 ∧ s.host.pc < s.host.prog.length ∧
      10 < s.op.toNat) ∧
    (∃ s : State, s.resetIn.head? ≠ some true ∧ s.status.busy = true ∧ s.wait = 5 ∧ s.host.prog.length ≤ s.host.pc ∧
      10 < s.op.toNat) :=
  ⟨⟨withProg (busyState 0xA#4 0) [.label 0], by decide⟩, ⟨busyState 0x0#4 5, by decide⟩,
    ⟨withProg (busyState 0xB#4 0) [.label 0], by decide⟩, ⟨busyState 0xF#4 5, by decide⟩⟩

theorem witness_FetchedWordRunsNext :
    decodeTableWord 4 0x7 = some .rleEnc ∧ decodeTableWord 32 0xFFFFFFF7 = some .rleEnc := by decide

theorem witness_ReservedOpcodeReportsBadOpcode :
    10 < (busyState 0xB#4 0).op.toNat ∧ 10 < (busyState 0xF#4 0).op.toNat ∧ Instr.bpPut ≠ .nop := by decide

/-- A CTRL value for each clause: SRESET with START, a START while busy, IRQ_EN alone and START while idle. -/
theorem witness_CtrlWriteFollowsRule :
    (0x3#32).getLsbD 1 = true ∧ (0x1#32).getLsbD 1 = false ∧ (busyState 0#4 1).status.busy = true ∧
    (small []).status.busy = false ∧ (0x4#32).getLsbD 0 = false ∧ (0x4#32).getLsbD 1 = false ∧
    (0x5#32).getLsbD 0 = true ∧ (0x5#32).getLsbD 1 = false := by decide

/-- Idle and busy, and the first address at `cap`. -/
theorem witness_SoftResetResetsRegisters :
    (0x2#32).getLsbD 1 = true ∧ (small []).status.busy = false ∧
    min (small []).dstCap.toNat (small []).params.outCap ≤ 16 := by decide

theorem witness_HardResetResetsRegisters :
    { busyState 0xA#4 3 with resetIn := [true, false] }.resetIn = true :: [false] := by decide

theorem witness_ResetReadsResetValues :
    Config.Params.legal ⟨1, 1, 1, 1⟩ ∧ Config.Params.legal ⟨1048576, 1048576, 65535, 255⟩ := by decide

/-- A dropped write, and the soft reset, both while busy. -/
theorem witness_BusyWritesAreDropped :
    (busyState 0#4 1).status.busy = true ∧ (Access.w32 0x004#22 0x2#32).ok tiny = true ∧
    (Access.w32 0x004#22 0x2#32).data.getLsbD 1 = true ∧ (Access.w8 0x100007#22 1#8).ok tiny = true ∧
    (Access.w8 0x100007#22 1#8).dir = .write ∧ (Access.w8 0x100007#22 1#8).offset ≠ 0x004#22 := by decide

/-- Two busy states that hold different things but have the same draw number, and a read of DST_LEN. -/
theorem witness_BusyReadsTellNothing :
    (busyState 0x1#4 0).draws = (busyState 0x2#4 0).draws ∧ (busyState 0x1#4 0).op ≠ (busyState 0x2#4 0).op ∧
    (Access.r32 0x01C#22).dir = .read ∧ (Access.r32 0x01C#22).ok tiny = true ∧
    targetOf 0x01C#22 ≠ .unassigned := by decide

/-- A host step that gets a bus error, idle and busy: a byte write just past IN_BUF. -/
theorem witness_BusErrorsExactly :
    (withProg (small []) [.w8 0x100008#22 0#8]).resetIn.head? ≠ some true ∧
    (withProg (small []) [.w8 0x100008#22 0#8]).status.busy = false ∧
    (withProg (small []) [.w8 0x100008#22 0#8]).host.current = some (.w8 0x100008#22 0#8) ∧
    answer (withProg (small []) [.w8 0x100008#22 0#8]) (.w8 0x100008#22 0#8) = none ∧
    (withProg (busyState 0x1#4 1) [.w8 0x100008#22 0#8]).status.busy = true ∧
    (withProg (busyState 0x1#4 1) [.w8 0x100008#22 0#8]).wait ≠ 0 ∧
    answer (withProg (busyState 0x1#4 1) [.w8 0x100008#22 0#8]) (.w8 0x100008#22 0#8) = none ∧
    (answer (small []) (.w8 0x100007#22 0#8)).isSome = true := by decide +kernel

/-- The last byte and the last word of an IN_BUF of 8 bytes and of an OUT_BUF of 16. -/
theorem witness_WordReadSeesByteLanes :
    (small []).params.legal ∧ (small []).status.busy = false ∧ 4 % 4 = 0 ∧ 4 + 4 ≤ (small []).params.inCap ∧
    7 < (small []).params.inCap ∧ 12 % 4 = 0 ∧ 12 + 4 ≤ (small []).params.outCap ∧ 15 < (small []).params.outCap := by
  decide

theorem witness_HostWritesToInBuf : (small []).params.legal ∧ (small []).status.busy = false ∧
    7 < (small []).params.inCap ∧ 4 % 4 = 0 ∧ 4 + 4 ≤ (small []).params.inCap := by decide

theorem witness_OperandRegistersReadBack : (small []).status.busy = false ∧
    (answer (small []) (.w32 0x028#22 0xFFFFFFFF#32)).isSome = true ∧
    ((answer (small []) (.w32 0x028#22 0xFFFFFFFF#32)).bind (fun r => readOf r.1 (.r32 0x028#22))) = some 0x3F#32 := by
  decide +kernel

/-- 10_state.md R43, R47: fields of BP_STATE and MATCH, written out from their bit positions. -/
theorem test_register_fields :
    readOf (packed 0#32 3#3 5#3 0xA0#8) (.r32 0x02C#22) = some 0xA053#32 ∧
    readOf { small [] with matchReg := { dist := 0x1234#16, len := 0x56#8, lit := 0x78#8 } } (.r32 0x03C#22) =
      some 0x78561234#32 := by decide +kernel

/-- A table entry, and the first and last offsets of the unassigned ranges. -/
theorem witness_OtherOffsetsIgnoreWrites : (small []).status.busy = false ∧
    ([0x058#22, 0x3FC#22, 0x400#22, 0xC00#22, 0xFFC#22, 0x1000#22, 0x3000#22, 0xFFFFC#22, 0x300000#22, 0x3FFFFC#22].all
      (fun off => decide (off.toNat % 4 = 0 ∧ (off.toNat < 0x100000 ∨ 0x300000 ≤ off.toNat) ∧
        off ∉ [0x004#22, 0x008#22, 0x00C#22, 0x014#22, 0x018#22, 0x020#22, 0x024#22, 0x028#22, 0x030#22]))) = true := by
  decide +kernel

theorem witness_StatusBitsAndW1C : (small []).status.busy = false ∧
    Status.word { busy := false, done := true, wbusy := true, errcode := .outOverflow } = 0x5E#32 := by decide

theorem witness_TableReadsAtTheirOffsets : (small []).status.busy = false ∧ 7 < 8 ∧
    targetOf (BitVec.ofNat 22 (0x1000 + 32 * 255 + 4 * 7)) = .code 255#8 7 := by decide

/-- A state with IRQ_EN and DONE set: its line is high, and a write of DONE lowers it. -/
theorem witness_IrqLevelFollowsDoneAndEnable :
    State.irq { small [] with irqEn := true, status := { (small []).status with done := true } } = true ∧
    ((answer { small [] with irqEn := true, status := { (small []).status with done := true } }
      (.w32 0x00C#22 0x2#32)).map (fun r => r.1.irq)) = some false ∧
    ({ small [] with resetIn := [true] } : State).resetIn.head? = some true := by decide +kernel

theorem witness_CompletionsKeepOperands :
    (busyState 0x1#4 0).complete exec = .next (after .bpPut (busyState 0x1#4 0)) := rfl

theorem witness_CommandsWriteOnlyTheirResults : exec .nop (small []) = .next (after .nop (small [])) := rfl

/-- An error of each kind: BAD_NBITS, OUT_OVERFLOW of the packer, OUT_OVERFLOW of an encoder. -/
theorem witness_ErrorsLeaveState :
    (after .bpPut (small [])).status.errcode = .badNbits ∧
    (after .bpFlush { packed 0#32 1#3 0#3 0x80#8 with dstCap := 0#32 }).status.errcode = .outOverflow ∧
    (after .rleEnc { small [1#8] with dstCap := 1#32 }).status.errcode = .outOverflow ∧
    isEncoder .rleEnc = true := by decide +kernel

/-- A state that has several errors at once, and states that have the first of each kind only. -/
theorem witness_FirstApplicableErrorIsReported :
    10 < (busyState 0xB#4 0).op.toNat ∧ readsInput .buGet = true ∧
    (small []).params.inCap < ({ small [] with srcLen := 9#32, buNbits := 0#6 } : State).srcLen.toNat ∧
    (small [1#8]).srcLen.toNat ≤ (small [1#8]).params.inCap ∧ (small [1#8]).bpNbits.toNat = 0 ∧
    (small [1#8]).buNbits.toNat = 0 ∧ (small [1#8]).srcLen.toNat ≤ ({ small [1#8] with pos := 1#32 } : State).pos.toNat ∧
    (small [1#8]).pos.toNat < (small [1#8]).srcLen.toNat := by decide

/-- Widths 0, 33, 1 and 32; a put that just fits and one that just does not; a clean packer. -/
theorem witness_BpPutAppendsBits :
    (putOf 0#32 0#6 (small [])).bpNbits.toNat = 0 ∧ 32 < (putOf 0#32 33#6 (small [])).bpNbits.toNat ∧
    1 ≤ (putOf 0#32 32#6 (packed 12#32 7#3 0#3 0xFE#8)).bpNbits.toNat ∧
    (putOf 0#32 32#6 (packed 12#32 7#3 0#3 0xFE#8)).bpNbits.toNat ≤ 32 ∧
    12 + (7 + 32) / 8 ≤ min (small []).dstCap.toNat (small []).params.outCap ∧
    (packed 12#32 7#3 0#3 0xFE#8).packer.clean ∧
    min (small []).dstCap.toNat (small []).params.outCap < 13 + (7 + 32) / 8 := by
  refine ⟨by decide, by decide, by decide, by decide, by decide, ?_, by decide⟩
  unfold Packer.clean
  decide

theorem witness_BpFlushPadsPendingByte :
    (packed 0#32 0#3 3#3 0#8).packer.pend = 0#3 ∧ (packed 16#32 1#3 0#3 0x80#8).packer.pend ≠ 0#3 ∧
    min (small []).dstCap.toNat (small []).params.outCap < 16 + 1 ∧ (packed 15#32 7#3 0#3 0xFE#8).packer.pend ≠ 0#3 ∧
    15 + 1 ≤ min (small []).dstCap.toNat (small []).params.outCap := by decide

/-- Each case of BU_GET: too long, no width, one bit too many, and exactly the last bit. -/
theorem witness_BuGetReadsStreamBits :
    (small []).params.legal ∧ (small []).params.inCap < ({ small [] with srcLen := 9#32 } : State).srcLen.toNat ∧
    (small [1#8]).buNbits.toNat = 0 ∧ 8 * (small [1#8]).srcLen.toNat < 0 + 9 ∧
    0 + 8 ≤ 8 * (small [1#8]).srcLen.toNat ∧ (small [1#8]).srcLen.toNat ≤ (small [1#8]).params.inCap := by decide

/-- The puts of 95_test_vectors.md tables 2.1 and 2.2: (5, 3), (0x1F, 5), (1, 2), then a flush: BF 40 with PAD 6. -/
theorem witness_PackedValuesUnpack :
    ∃ s' : State, putAll [(5#32, 3#6), (0x1F#32, 5#6), (1#32, 2#6)] (small []) = some s' ∧
      exec .bpFlush s' = .next (after .bpFlush s') ∧ (after .bpFlush s').status.errcode = .noError ∧
      (after .bpFlush s').outBuf.bytes 2 = [0xBF#8, 0x40#8] ∧ (after .bpFlush s').packer.dstLen = 2#32 ∧
      (after .bpFlush s').packer.pad = 6#3 ∧ (small [0xBF#8, 0x40#8]).inBuf.bytes 2 = [0xBF#8, 0x40#8] ∧
      (small [0xBF#8, 0x40#8]).srcLen = 2#32 ∧ (small [0xBF#8, 0x40#8]).buPos = 0#32 :=
  ⟨_, rfl, rfl, by decide +kernel⟩

/-- A position just inside, a position just outside, and a length just too large. -/
theorem witness_RleRunFindsMaximalRun :
    (small aab).srcLen.toNat ≤ (small aab).params.inCap ∧ ({ small aab with pos := 2#32 } : State).pos.toNat < 3 ∧
    (small aab).srcLen.toNat ≤ ({ small aab with pos := 3#32 } : State).pos.toNat ∧
    (small aab).params.inCap < ({ small aab with srcLen := 9#32 } : State).srcLen.toNat := by decide

/-- An output that just fits, and one that just does not. -/
theorem witness_RleEncEmitsStream :
    (rleEncode ((small aab).inBuf.bytes (small aab).srcLen.toNat)).length = 4 ∧
    4 ≤ min ({ small aab with dstCap := 4#32 } : State).dstCap.toNat tiny.outCap ∧
    min ({ small aab with dstCap := 3#32 } : State).dstCap.toNat tiny.outCap < 4 := by decide +kernel

/-- The one-byte input `a`: 12 bytes, which a capacity of 12 takes and one of 11 does not (table 2.4 row 2). -/
theorem witness_HufEncEmitsStreamAndTables :
    (small [0x61#8]).params.legal ∧ (huffEncode ((small [0x61#8]).inBuf.bytes (small [0x61#8]).srcLen.toNat)).length = 12 ∧
    (small [0x61#8]).srcLen.toNat ≤ (small [0x61#8]).params.inCap ∧
    12 ≤ min ({ small [0x61#8] with dstCap := 12#32 } : State).dstCap.toNat tiny.outCap ∧
    min ({ small [0x61#8] with dstCap := 11#32 } : State).dstCap.toNat tiny.outCap < 12 := by decide +kernel

/-- A pool with a tie on the weight, a merge of it, two symbols, and a leaf on either side. -/
theorem witness_TakeLeastRemovesMinimum :
    mergeOnce 3 [⟨1, 0x62, .leaf 0x62#8⟩, ⟨1, 0x61, .leaf 0x61#8⟩, ⟨2, 256, .leaf 0x63#8⟩] =
      [⟨2, 259, .node (.leaf 0x61#8) (.leaf 0x62#8)⟩, ⟨2, 256, .leaf 0x63#8⟩] ∧
    2 ≤ (symbols (freqOf aab)).length ∧ HufTree.path (.leaf 0x61#8) 0x61#8 = some [] ∧
    HufTree.path (.leaf 0x61#8) 0x62#8 = none ∧
    ((⟨1, 0x62, .leaf 0x62#8⟩ :: [⟨1, 0x61, .leaf 0x61#8⟩, ⟨2, 256, .leaf 0x63#8⟩] : List PoolNode).map
      (fun n => n.key)).Nodup ∧
    (takeLeast ⟨1, 0x62, .leaf 0x62#8⟩ [⟨1, 0x61, .leaf 0x61#8⟩, ⟨2, 256, .leaf 0x63#8⟩]).1.key = 0x61 := by decide +kernel

/-- No code, the one-symbol code, and the two-symbol bounds met at both ends. -/
theorem witness_CodeLengthBounds :
    0x63#8 ∉ aab ∧ 0x61#8 ∈ [0x61#8] ∧ ([0x61#8] : List Byte).dedup.length = 1 ∧ 0x61#8 ∈ aab ∧
    2 ≤ aab.dedup.length := by decide

theorem witness_CodesArePrefixFree : 0x61#8 ∈ aab ∧ 0x62#8 ∈ aab ∧ 0x61#8 ≠ 0x62#8 := by decide

theorem witness_FrequentBytesHaveShorterCodes : 0x62#8 ∈ aab ∧ aab.count 0x62#8 < aab.count 0x61#8 := by decide

theorem witness_HuffmanStreamLayout :
    0x62#8 ∈ aab ∧ ([0x61#8, 0x62#8] : List Byte)[1]? = some 0x62#8 ∧ (huffEncode aab)[6 + 5 * 1]? = some 0x62#8 ∧
    1 ≤ 9 ∧ huffEncode (List.replicate 9 7#8) =
      [0#8, 0#8, 0#8, 9#8, 0#8, 1#8, 7#8, 0#8, 0#8, 0#8, 9#8, 0#8, 0#8] := by decide +kernel

theorem witness_HuffmanRoundTrip : aab.length < 2 ^ 32 := by decide

/-- The longest run-on match of "aab" from 1 at distance 1: one byte is left for the literal. -/
theorem witness_MatchLenIsLargest : 1 ≤ 1 ∧ 1 ≤ 1 ∧ 1 + 1 < aab.length ∧ matchLen aab 1 1 1 = 1 := by decide

/-- Both cases of find: "abcabc" at 0, and at 3 with a minimum of 2 (one byte is left for the literal). -/
theorem witness_FindIsLongestNearest :
    1 ≤ 2 ∧ 3 < abcabc.length ∧ lzFind 4 2 abcabc 0 = (0, 0) ∧ lzFind 4 2 abcabc 3 = (3, 2) := by decide +kernel

theorem witness_LzFindReportsToken :
    (small aab).params.legal ∧ (small aab).srcLen.toNat ≤ (small aab).params.inCap ∧
    ({ small aab with pos := 2#32 } : State).pos.toNat < (small aab).srcLen.toNat ∧
    (small aab).srcLen.toNat ≤ ({ small aab with pos := 3#32 } : State).pos.toNat ∧
    (small aab).params.inCap < ({ small aab with srcLen := 9#32 } : State).srcLen.toNat := by decide

/-- Three literals, then a back-reference over the rest of "abcabc" up to its last byte. -/
theorem witness_TokensCoverInput :
    1 ≤ 3 ∧ (tokens 4 2 abcabc)[3]? = some { dist := 3, len := 2, lit := 0x63#8 } := by decide +kernel

theorem witness_RepeatedSubstringGivesBackReference :
    1 ≤ 2 ∧ 2 ≤ 255 ∧ 2 + 1 ≤ (abcabc.take 3).length ∧ 0 < 3 ∧ 3 - 0 ≤ 4 ∧ abcabc.take 3 <+: abcabc.drop 0 ∧
    abcabc.take 3 <+: abcabc.drop 3 := by decide

theorem witness_LzRoundTrip : tiny.legal ∧ aab.length < 2 ^ 32 := by decide

/-- A stream of 16 bytes, which a capacity of 16 takes and one of 15 does not. -/
theorem witness_LzEncEmitsStream :
    (small aab).params.legal ∧ 4 + 4 * (tokens 4 3 ((small aab).inBuf.bytes (small aab).srcLen.toNat)).length = 16 ∧
    (small aab).srcLen.toNat ≤ (small aab).params.inCap ∧ 16 ≤ min (small aab).dstCap.toNat tiny.outCap ∧
    min ({ small aab with dstCap := 15#32 } : State).dstCap.toNat tiny.outCap < 16 := by decide +kernel

/-- Each encoder with an output that fits exactly. -/
theorem witness_ContentNeverFails :
    ∀ i ∈ [Instr.rleEnc, .hufEnc, .lzEnc], isEncoder i = true ∧ (small [1#8]).srcLen.toNat ≤ (small [1#8]).params.inCap ∧
      (encoderOutput tiny ((small [1#8]).inBuf.bytes (small [1#8]).srcLen.toNat) i).length ≤
        min (small [1#8]).dstCap.toNat (small [1#8]).params.outCap := by decide +kernel

/-- Two buffers that agree below SRC_LEN and differ at it. -/
theorem witness_CommandsReadOnlyValidInput :
    exec .lzFind { small aab with srcLen := 2#32 } = .next (after .lzFind { small aab with srcLen := 2#32 }) ∧
    (∀ a, a < 2 → (small [0x61#8, 0x61#8, 0x63#8]).inBuf.read a = (small aab).inBuf.read a) ∧
    (small [0x61#8, 0x61#8, 0x63#8]).inBuf.read 2 ≠ (small aab).inBuf.read 2 :=
  ⟨rfl, by decide, by decide⟩

/-- Each clause: an odd length, a zero count, and a valid stream. -/
theorem witness_RleDecoderAcceptsExactly :
    ([3#8] : List Byte).length % 2 = 1 ∧ (∃ r ∈ rleRecordsOf [0#8, 5#8], r.1 = 0#8) ∧
    (∀ r ∈ rleRecordsOf [3#8, 5#8, 4#8, 6#8], r.1 ≠ 0#8) :=
  ⟨rfl, ⟨(0#8, 5#8), by simp [rleRecordsOf], rfl⟩, by simp [rleRecordsOf]⟩

theorem witness_TruncatedStreamsFail :
    hufDec [0#8, 0#8, 0#8, 0#8, 0#8, 0#8] = .ok [] ∧ 5 < 6 ∧ lzDec [0#8, 0#8, 0#8, 0#8] = .ok [] ∧ 3 < 4 ∧
    rleDec [3#8, 5#8] = .ok [5#8, 5#8, 5#8] := by decide +kernel

theorem witness_ResetMeetsInvariants : Config.Params.legal ⟨1, 1, 1, 1⟩ := by decide

/-- The invariants hold of a state, and a step answers a next state from it. -/
theorem witness_StepKeepsInvariant : (small []).Inv ∧ step (small []) = .next (small []) := by
  refine ⟨⟨by decide, by decide, by decide, rfl, by decide, by decide, by decide, by decide, ?_, by decide, by decide,
    by decide, by decide⟩, rfl⟩
  unfold Packer.clean
  decide

theorem witness_StepKeepsTables : (small []).params.legal ∧ (small []).TablesInv := by
  have f : ∀ b, (small []).freqAt b = 0#32 := fun b => by simp [State.freqAt, small, State.resetWith]
  have l : ∀ b, (small []).codeLenAt b = 0#8 := fun b => by simp [State.codeLenAt, small, State.resetWith]
  have c : ∀ b, (small []).codeAt b = 0#256 := fun b => by simp [State.codeAt, small, State.resetWith]
  exact ⟨by decide, ⟨by simp only [f]; decide +kernel, fun b => by simp [f, l], fun b => by simp [c, l]⟩⟩

/-- A START, a completion that reports an error, and a write dropped while busy. -/
theorem witness_FlagsChangeOnlyAsStated :
    (withProg (small []) [.w32 0x004#22 0x1#32]).status.busy = false ∧
    (stepped (withProg (small []) [.w32 0x004#22 0x1#32])).status.busy = true ∧
    (busyState 0xB#4 0).status.done = false ∧ (stepped (busyState 0xB#4 0)).status.done = true ∧
    (stepped (busyState 0xB#4 0)).status.errcode = .badOpcode ∧
    (stepped (withProg (busyState 0xB#4 1) [.w32 0x014#22 0x1#32])).status.wbusy = true := by decide +kernel

/-- POLL that stays and that goes on, a read that is not as expected and one that is, writes, a bare access, a label, and BEQ and BNE, one while busy with a wait and one idle. -/
theorem witness_HostBranchesOnStatusField :
    (stepped (withProg (busyState 0#4 1) [.poll Field.busy 0#32])).host.pc = 0 ∧
    (stepped (withProg (small []) [.poll Field.busy 0#32])).host.pc = 1 ∧
    (answer (small []) (.r32 0x00C#22)).isSome = true ∧ (answer (small []) (.w32 0x014#22 5#32)).isSome = true ∧
    (withProg (small []) [.w32 0x014#22 5#32]).host.current = some (.w32 0x014#22 5#32) ∧
    (withProg (small []) [.r32 0x000#22 5#32]).host.current = some (.r32 0x000#22 5#32) ∧
    readOf (small []) (.r32 0x000#22) = some 0x48453031#32 ∧
    (stepped (withProg (small []) [.r32 0x000#22 5#32])).host.pc = 1 ∧
    (withProg (small [7#8]) [.r8 0x100000#22 7#8]).host.current = some (.r8 0x100000#22 7#8) ∧
    readOf (small [7#8]) (.r8 0x100000#22) = some 7#32 ∧
    (stepped (withProg (small [7#8]) [.r8 0x100000#22 7#8])).host.pc = 1 ∧
    (withProg (small []) [.w8 0x100007#22 1#8]).host.current = some (.w8 0x100007#22 1#8) ∧
    (answer (small []) (.w8 0x100007#22 1#8)).isSome = true ∧
    (withProg (small []) [.bus (.r32 0x000#22)]).host.current = some (.bus (.r32 0x000#22)) ∧
    (withProg (small []) [.label 0]).host.current = some (.label 0) ∧
    programWf [.bne Field.done 1#32 0, .label 5, .label 0] = true ∧
    ([.bne Field.done 1#32 0, .label 5, .label 0] : List HostStep)[2]? = some (.label 0) ∧
    Field.done.offset = 0x00C#22 ∧ (small []).resetIn.head? ≠ some true ∧
    (withProg (busyState 0#4 1) [.label 3, .beq Field.busy 1#32 3]).wait ≠ 0 ∧
    (withProg (small []) [.bne Field.done 1#32 0, .label 0]).host.current = some (.bne Field.done 1#32 0) ∧
    (stepped (withProg (small []) [.bne Field.done 1#32 0, .label 5, .label 0])).host.pc = 2 := by decide +kernel

theorem witness_CommandInFlightEnds : (busyState 0xA#4 7).status.busy = true ∧ (busyState 0xA#4 7).resetIn = [] := by
  decide

end Sys2Proof.Tests
end

section
/-! SUPPORT. The invariant of registers and buffers is kept by every operation a step is made of: the two buffers and
the packer first, then the commands, the host's accesses and the resets, then the step itself. -/

namespace Sys2Proof.Machine

/-! ## A buffer within its capacity -/

/-- A buffer in canonical form whose listed addresses and unspecified ranges lie below `n` (10_state.md R56, R57). -/
structure Memory.Fits (m : Memory) (n : Nat) : Prop where
  wf : m.wf
  cells : m.below n
  fills : ∀ f ∈ m.fills, f.bound ≤ n

theorem Memory.Fits.unknown (d n : Nat) : (Memory.unknown d).Fits n :=
  ⟨Memory.unknown_wf d, Memory.unknown_below d n, by simp [Memory.unknown]⟩

theorem Memory.Fits.writeBytes {m : Memory} {n i : Nat} {bs : List Byte} (h : m.Fits n) (hi : i + bs.length ≤ n) :
    (m.writeBytes i bs).Fits n :=
  ⟨m.writeBytes_wf bs i h.wf, m.writeBytes_below bs n i h.cells hi, by simpa using h.fills⟩

theorem Memory.Fits.write {m : Memory} {n i : Nat} {b : Byte} (h : m.Fits n) (hi : i < n) : (m.write i b).Fits n :=
  h.writeBytes (bs := [b]) hi

theorem Memory.Fits.writeLanes {m : Memory} {n i : Nat} {v : Word} (h : m.Fits n) (hi : i + 4 ≤ n) :
    (m.writeLanes i v).Fits n :=
  h.writeBytes hi

theorem Memory.Fits.forget {m : Memory} {n k : Nat} (d : Nat) (h : m.Fits n) (hk : k ≤ n) : (m.forget k d).Fits n :=
  ⟨m.forget_wf k d h.wf, m.forget_below k d n h.cells, m.forget_fills k d n h.fills hk⟩

@[simp] theorem Memory.writeLanes_fills (m : Memory) (i : Nat) (v : Word) : (m.writeLanes i v).fills = m.fills :=
  m.writeBytes_fills _ i

/-! ## The packer in range -/

/-- A packer with DST_LEN at most `n` and the low bits of ACC 0 (10_state.md R39, R43). -/
structure Packer.Fits (p : Packer) (n : Nat) : Prop where
  dstLen : p.dstLen.toNat ≤ n
  clean : p.clean

/-- A packer with nothing pending and ACC 0 is clean. -/
theorem Packer.clean_of_acc {p : Packer} (h : p.acc = 0#8) : p.clean := by
  intro j _
  simp [h]

theorem Packer.at_fits {k n : Nat} (pad : Nat) (h : k ≤ n) : (Packer.at k pad).Fits n := by
  refine ⟨?_, Packer.clean_of_acc rfl⟩
  simp only [Packer.at, BitVec.toNat_ofNat]
  exact (Nat.mod_le _ _).trans h

/-- A pushed bit writes OUT_BUF only when it completes a byte, and then at DST_LEN (40_bitpacker.md R141). -/
theorem pushBit_memory (p : Packer) (m : Memory) (b : Bool) :
    (pushBit (p, m) b).2 = m ∨ p.pend.toNat = 7 ∧ ∃ acc, (pushBit (p, m) b).2 = m.write p.dstLen.toNat acc := by
  unfold pushBit
  split
  · next h7 => exact .inr ⟨congrArg BitVec.toNat h7, _, rfl⟩
  · exact .inl rfl

/-- Pushing a bit string stays within a capacity that the whole bytes it makes stay within. -/
theorem pushBits_fits {n : Nat} (hn : n < 2 ^ 32) : ∀ (bits : List Bool) (p : Packer) (m : Memory), p.Fits n →
    m.Fits n → (p.total + bits.length) / 8 ≤ n → (pushBits (p, m) bits).1.Fits n ∧ (pushBits (p, m) bits).2.Fits n
  | [], _, _, hp, hm, _ => ⟨hp, hm⟩
  | b :: bits, p, m, hp, hm, hl => by
    rw [List.length_cons] at hl
    obtain ⟨happ, hclean, -, -⟩ := pushBit_spec p m b hp.clean (by omega)
    have htotal : (pushBit (p, m) b).1.total = p.total + 1 := total_eq_of_packedOf happ
    have hp' : (pushBit (p, m) b).1.Fits n := ⟨by rw [Packer.dstLen_eq]; omega, hclean⟩
    have hm' : (pushBit (p, m) b).2.Fits n := by
      obtain h | ⟨h7, acc, h⟩ := pushBit_memory p m b
      · rw [h]; exact hm
      · rw [h]
        exact hm.write (by unfold Packer.total at hl; omega)
    have hl' : ((pushBit (p, m) b).1.total + bits.length) / 8 ≤ n := by omega
    rw [pushBits_cons]
    exact pushBits_fits hn bits _ _ hp' hm' hl'

/-! ## Which parts of the invariant an operation touches -/

section
variable {s : State}

theorem State.Inv.inFits (h : s.Inv) : s.inBuf.Fits s.params.inCap :=
  ⟨h.inWf, h.inCells, by simp [h.inFills]⟩

theorem State.Inv.outFits (h : s.Inv) : s.outBuf.Fits s.params.outCap := ⟨h.outWf, h.outCells, h.outFills⟩

theorem State.Inv.packerFits (h : s.Inv) : s.packer.Fits s.params.outCap := ⟨h.dstLen, h.accClean⟩

theorem State.Inv.setPacker {p : Packer} (h : s.Inv) (hp : p.Fits s.params.outCap) : (s.setPacker p).Inv :=
  { h with dstLen := hp.dstLen, accClean := hp.clean }

theorem State.Inv.setPacked {pm : Packer × Memory} (h : s.Inv) (hp : pm.1.Fits s.params.outCap)
    (hm : pm.2.Fits s.params.outCap) : (s.setPacked pm).Inv :=
  { h.setPacker hp with outWf := hm.wf, outCells := hm.cells, outFills := hm.fills }

theorem State.Inv.forgetOut (h : s.Inv) : (s.forgetOut s.cap).Inv :=
  have hm := h.outFits.forget s.draws s.cap_le_outCap
  { h with outWf := hm.wf, outCells := hm.cells, outFills := hm.fills }

theorem State.Inv.setInBuf {m : Memory} (h : s.Inv) (hm : m.Fits s.params.inCap) (hf : m.fills = []) :
    State.Inv { s with inBuf := m } :=
  { h with inWf := hm.wf, inCells := hm.cells, inFills := hf }

theorem State.Inv.setUnpacked {q : Word} (h : s.Inv) (v : Word) (hq : q.toNat ≤ 8 * s.params.inCap) :
    (s.setUnpacked v q).Inv :=
  { h with buPos := hq }

theorem State.Inv.setTables (h : s.Inv) (l : List Byte) : (s.setTables l).Inv := { h with }

/-- A completion clears BUSY, so it leaves no command in flight whose flags could be unclean. -/
theorem State.Inv.completed (h : s.Inv) (e : ErrCode) (x : Word) : (s.completed e x).Inv :=
  { h with busyClean := by simp }

/-! ## The commands -/

theorem withLen_inv {r : CmdResult} (h : s.Inv) (hr : s.srcLen.toNat ≤ s.params.inCap → r.st.Inv) :
    (withLen s r).st.Inv := by
  rcases Nat.lt_or_ge s.params.inCap s.srcLen.toNat with hl | hl
  · rw [withLen_bad hl]; exact h
  · rw [withLen_ok hl]; exact hr hl

theorem withNbits_inv {n : BitVec 6} {r : CmdResult} (h : s.Inv) (hr : r.st.Inv) : (withNbits s n r).st.Inv := by
  unfold withNbits
  split
  · exact hr
  · exact h

theorem withPos_inv {r : CmdResult} (h : s.Inv) (hr : r.st.Inv) : (withPos s r).st.Inv := by
  unfold withPos
  split
  · exact hr
  · exact h

/-- Emission leaves the output within CAP, or an empty packer and an unspecified range up to CAP. -/
theorem emit_inv (h : s.Inv) (o : List Byte) (pad : Nat) : (emit s o pad).st.Inv := by
  rcases Nat.lt_or_ge s.cap o.length with hl | hl
  · rw [emit_overflows hl]
    exact h.forgetOut.setPacker (Packer.at_fits 0 (Nat.zero_le _))
  · rw [emit_fits hl]
    have hcap : o.length ≤ s.params.outCap := hl.trans s.cap_le_outCap
    exact h.setPacked (Packer.at_fits pad hcap) (h.outFits.writeBytes (by omega))

theorem runBpPut_inv (h : s.Inv) : (runBpPut s).st.Inv := by
  refine withNbits_inv h ?_
  split
  · exact h
  · next hfit =>
    have hcap := s.cap_le_outCap
    obtain ⟨-, ⟨-, hout⟩, -⟩ := h.legal
    have hbits : (s.packer.total + (msbBits s.bpValue s.putBits).length) / 8 ≤ s.params.outCap := by
      unfold Packer.putBytes at hfit
      unfold Packer.total
      rw [msbBits_length]
      omega
    have hpush := pushBits_fits (by omega) _ _ _ h.packerFits h.outFits hbits
    exact h.setPacked hpush.1 hpush.2

theorem runBpFlush_inv (h : s.Inv) : (runBpFlush s).st.Inv := by
  unfold runBpFlush
  split
  · exact h.setPacker ⟨h.dstLen, h.accClean⟩
  · split
    · exact h
    · next hfit =>
      have hcap := s.cap_le_outCap
      have hlen : (s.packer.dstLen + 1).toNat ≤ s.packer.dstLen.toNat + 1 := by
        rw [BitVec.toNat_add]; exact Nat.mod_le _ _
      exact h.setPacked ⟨by simp only; omega, Packer.clean_of_acc rfl⟩ (h.outFits.write (by omega))

theorem runBuGet_inv (h : s.Inv) : (runBuGet s).st.Inv := by
  refine withLen_inv h fun hlen => withNbits_inv h ?_
  split
  · exact h
  · next hfit =>
    refine h.setUnpacked _ ?_
    rw [BitVec.toNat_ofNat]
    unfold State.len at hfit
    have := Nat.mod_le (s.buPos.toNat + s.getBits) (2 ^ 32)
    omega

/-- MATCH holds a literal or a back-reference within the limits (10_state.md R47, 43_lz77.md R234). -/
def MatchReg.WithinLimits (m : MatchReg) (p : Config.Params) : Prop :=
  (m.dist = 0#16 ∧ m.len = 0#8) ∨ (1 ≤ m.dist.toNat ∧ m.dist.toNat ≤ p.lzWindow ∧ p.lzMinMatch ≤ m.len.toNat)

/-- The fields of MATCH are wide enough for every token that find returns. -/
theorem tokenAt_reg_withinLimits {p : Config.Params} (hp : p.legal) (inp : List Byte) (q : Nat) :
    (tokenAt p.lzWindow p.lzMinMatch inp q).reg.WithinLimits p := by
  obtain ⟨-, -, ⟨-, hwin⟩, hmin, -⟩ := hp
  have hlen := lzFind_len_le p.lzWindow p.lzMinMatch inp q
  simp only [MatchReg.WithinLimits, Token.reg, tokenAt, BitVec.toNat_ofNat]
  obtain hlit | ⟨hd, -, hdw, hl, -⟩ := lzFind_form (window := p.lzWindow) (inp := inp) (p := q) hmin
  · exact .inl (by simp [hlit])
  · rw [Nat.mod_eq_of_lt (by omega), Nat.mod_eq_of_lt (by omega)]
    exact .inr ⟨hd, hdw, hl⟩

theorem runLzFind_inv (h : s.Inv) : (runLzFind s).st.Inv :=
  withLen_inv h fun _ => withPos_inv h { h with matchForm := tokenAt_reg_withinLimits h.legal _ _ }

/-- There are at most as many tokens as input bytes (43_lz77.md R236). -/
theorem tokens_length_le (window minMatch : Nat) (inp : List Byte) :
    (tokens window minMatch inp).length ≤ inp.length := by
  have hfrom : ∀ p, p ≤ inp.length → (tokensAt window minMatch inp p).length ≤ inp.length - p := by
    refine tokens_induction (window := window) (minMatch := minMatch) ?atEnd ?token
    case atEnd => simp [tokensAt_end window minMatch (le_refl inp.length)]
    case token =>
      intro p hp ih
      rw [tokensAt_step window minMatch hp, List.length_cons]
      omega
  exact hfrom 0 (Nat.zero_le _)

theorem countTokens_inv {r : CmdResult} {n : Nat} (h : r.st.Inv) (hn : n ≤ r.st.params.inCap) :
    (r.countTokens n).st.Inv := by
  unfold CmdResult.countTokens
  split
  · exact { h with ntok := by rw [BitVec.toNat_ofNat]; exact (Nat.mod_le _ _).trans hn }
  · exact h

theorem runLzEnc_inv (h : s.Inv) : (runLzEnc s).st.Inv := by
  refine withLen_inv h fun hlen => countTokens_inv (emit_inv h _ _) ?_
  have htok := tokens_length_le s.params.lzWindow s.params.lzMinMatch s.input
  rw [emit_frame]
  exact htok.trans (by simpa [State.input, State.len] using hlen)

theorem runOf_inv (i : Instr) (h : s.Inv) : (runOf i s).st.Inv := by
  cases i with
  | nop => exact h
  | bpPut => exact runBpPut_inv h
  | bpFlush => exact runBpFlush_inv h
  | bpClear => exact h.setPacker (Packer.at_fits 0 (Nat.zero_le _))
  | buGet => exact runBuGet_inv h
  | buClear => exact h.setUnpacked _ (Nat.zero_le _)
  | rleRun => exact withLen_inv h fun _ => withPos_inv h { h with }
  | rleEnc => exact withLen_inv h fun _ => emit_inv h _ _
  | hufEnc => exact withLen_inv h fun _ => emit_inv (h.setTables _) _ _
  | lzFind => exact runLzFind_inv h
  | lzEnc => exact runLzEnc_inv h

/-- The completion step, of a command or of a reserved opcode. -/
theorem complete_inv {t : State} (h : s.Inv) (ht : s.complete exec = .next t) : t.Inv := by
  obtain ⟨i, -, hi⟩ | ⟨-, hbad⟩ := complete_cases s
  · rw [exec_next (hi.symm.trans ht)]
    exact (runOf_inv i h).completed _ _
  · rw [← Host.Outcome.next.inj (hbad.symm.trans ht)]
    exact h.completed _ _

/-! ## The resets -/

/-- The reset values of registers and tables meet the invariant, and the buffers are kept. -/
theorem State.Inv.resetRegs (h : s.Inv) : s.resetRegs.Inv :=
  { h with
    dstLen := Nat.zero_le _
    accClean := Packer.clean_of_acc rfl
    buPos := Nat.zero_le _
    busyClean := by simp
    ntok := Nat.zero_le _
    matchForm := .inl ⟨rfl, rfl⟩ }

theorem State.Inv.hardReset (h : s.Inv) : s.hardReset.Inv :=
  have hin := Memory.Fits.unknown s.draws s.params.inCap
  have hout := Memory.Fits.unknown (s.draws + 1) s.params.outCap
  { h.resetRegs with
    inWf := hin.wf, inCells := hin.cells, inFills := rfl
    outWf := hout.wf, outCells := hout.cells, outFills := hout.fills }

theorem State.Inv.softReset (h : s.Inv) : s.softReset.Inv := by
  unfold State.softReset
  split
  · exact h.forgetOut.resetRegs
  · exact h.resetRegs

/-! ## The host's accesses -/

/-- A START sets BUSY and clears DONE and ERRCODE together (44_system.md R260). -/
theorem State.Inv.started (h : s.Inv) : s.started.Inv := { h with busyClean := fun _ => ⟨rfl, rfl⟩ }

theorem State.Inv.writeCtrl (h : s.Inv) (v : Word) : (s.writeCtrl v).Inv := by
  have hen : State.Inv { s with irqEn := v.getLsbD 2 } := { h with }
  unfold State.writeCtrl
  split
  · exact hen.started
  · exact hen

/-- A W1C write can only clear DONE, and writes neither BUSY nor ERRCODE. -/
theorem Status.w1c_busyClean {st : Status} (v : Word)
    (h : st.busy = true → st.done = false ∧ st.errcode = .noError) :
    (st.w1c v).busy = true → (st.w1c v).done = false ∧ (st.w1c v).errcode = .noError := by
  intro hb
  obtain ⟨hd, he⟩ := h hb
  exact ⟨by simp [Status.w1c, hd], he⟩

theorem State.Inv.writeReg (h : s.Inv) (r : RegName) (v : Word) : (s.writeReg r v).Inv := by
  cases r
  case ctrl => exact h.writeCtrl v
  case status => exact { h with busyClean := Status.w1c_busyClean v h.busyClean }
  all_goals exact { h with }

theorem windowOf_inWin {o : Offset} : windowOf o = .inWin ↔ 0x100000 ≤ o.toNat ∧ o.toNat < 0x200000 := by
  unfold windowOf
  (repeat' split) <;> simp <;> omega

theorem regTarget_ne_inByte (o i : Nat) : regTarget o ≠ .inByte i := by
  unfold regTarget
  (repeat' split) <;> simp

/-- The offsets of the IN_BUF window, and the byte each reaches (20_memory.md R86, R87). -/
theorem toNat_of_targetOf_inByte {o : Offset} {i : Nat} (h : targetOf o = .inByte i) :
    0x100000 ≤ o.toNat ∧ o.toNat < 0x200000 ∧ i = o.toNat - 0x100000 := by
  unfold targetOf at h
  split at h
  · exact absurd h (regTarget_ne_inByte _ _)
  · next hw =>
    obtain ⟨hlo, hhi⟩ := windowOf_inWin.1 hw
    exact ⟨hlo, hhi, (Target.inByte.inj h).symm⟩
  all_goals cases h

/-- An access to IN_BUF that does not err lies within its capacity (20_memory.md R85, R87). -/
theorem inByte_within {p : Config.Params} {a : Access} {i : Nat} (ho : a.ok p = true)
    (ht : targetOf a.offset = .inByte i) : i + (if a.isByte then 1 else 4) ≤ p.inCap := by
  obtain ⟨hlo, hhi, hi⟩ := toNat_of_targetOf_inByte ht
  obtain ⟨hwidth, hcap, -⟩ := (ok_iff p a).1 ho
  have hcap := hcap hlo hhi
  have hbytes : (if a.isByte then 1 else 4) = a.width / 8 := by
    rcases hwidth with ⟨hw, -⟩ | ⟨hw, -⟩ <;> simp [Access.isByte, hw]
  rw [hbytes]
  omega

theorem State.Inv.idleWrite {a : Access} (h : s.Inv) (ho : a.ok s.params = true) : (s.idleWrite a).Inv := by
  unfold State.idleWrite
  split
  · next r _ => exact h.writeReg r a.data
  · next i ht =>
    have hi := inByte_within ho ht
    split
    · next hb =>
      rw [if_pos hb] at hi
      exact h.setInBuf (h.inFits.write hi) h.inFills
    · next hb =>
      rw [if_neg hb] at hi
      exact h.setInBuf (h.inFits.writeLanes hi) (by simpa using h.inFills)
  all_goals exact h

theorem State.Inv.busWrite {a : Access} (h : s.Inv) (ho : a.ok s.params = true) : (s.busWrite a).Inv := by
  unfold State.busWrite
  split
  · exact h.softReset
  · split
    · exact { h with busyClean := h.busyClean }
    · exact h.idleWrite ho

theorem access_inv {a : Access} {r : State × Option Word} (h : s.Inv) (hr : s.access a = .ok r) : r.1.Inv := by
  obtain ⟨ho, ⟨-, rfl⟩ | ⟨-, rfl⟩⟩ := access_cases hr
  · rw [busRead_state]
    exact { h with }
  · exact h.busWrite ho

/-! ## The step -/

theorem runHost_inv {t : State} {st : HostStep} (h : s.Inv) (ht : s.runHost st = .next t) : t.Inv := by
  have htick : s.tick.Inv := { h with }
  obtain ⟨-, rfl⟩ | ⟨a, r, -, hr, rfl⟩ := runHost_cases ht
  · exact { htick with }
  · exact { access_inv htick hr with }

end

/-- Settles O56: each kind of event that `step_cases` lists keeps the invariant. -/
theorem stepKeepsInvariant : Obligations.StepKeepsInvariant := by
  intro s t h hstep
  have hs : s.sampled.Inv := { h with }
  obtain ⟨-, rfl⟩ | ⟨-, -, ht⟩ | ⟨-, -, -, rfl⟩ | ⟨-, -, st, -, ht⟩ := step_cases hstep
  · exact hs.hardReset
  · exact complete_inv hs ht
  · exact hs
  · exact runHost_inv hs ht

end Sys2Proof.Machine
end

section
/-! SUPPORT. The frames that several invariants share: what an operand check and an idle write can touch. -/

namespace Sys2Proof.Machine

variable {s : State}

/-! ## Operand checks -/

/-- What holds of the state and of what the body leaves holds after a length check (60_exceptions.md R315). -/
theorem withLen_keeps {P : State → Prop} {r : CmdResult} (hs : P s)
    (hr : s.srcLen.toNat ≤ s.params.inCap → P r.st) : P (withLen s r).st := by
  rcases Nat.lt_or_ge s.params.inCap s.srcLen.toNat with hl | hl
  · rw [withLen_bad hl]; exact hs
  · rw [withLen_ok hl]; exact hr hl

theorem withNbits_keeps {P : State → Prop} {n : BitVec 6} {r : CmdResult} (hs : P s) (hr : P r.st) :
    P (withNbits s n r).st := by
  unfold withNbits
  split
  · exact hr
  · exact hs

theorem withPos_keeps {P : State → Prop} {r : CmdResult} (hs : P s) (hr : P r.st) : P (withPos s r).st := by
  unfold withPos
  split
  · exact hr
  · exact hs

/-! ## Idle writes -/

/-- An idle write touches the operand registers, CMD, CTRL, STATUS and IN_BUF alone (10_state.md R31 to R57); a START
also takes the model's own wait and draw. -/
theorem idleWrite_frame (s : State) (a : Access) :
    s.idleWrite a = { s with
      irqEn := (s.idleWrite a).irqEn, op := (s.idleWrite a).op, status := (s.idleWrite a).status
      srcLen := (s.idleWrite a).srcLen, dstCap := (s.idleWrite a).dstCap, pos := (s.idleWrite a).pos
      bpValue := (s.idleWrite a).bpValue, bpNbits := (s.idleWrite a).bpNbits, buNbits := (s.idleWrite a).buNbits
      inBuf := (s.idleWrite a).inBuf, wait := (s.idleWrite a).wait, draws := (s.idleWrite a).draws } := by
  unfold State.idleWrite
  split
  · next r _ =>
    cases r
    case ctrl => simp only [State.writeReg, State.writeCtrl]; split <;> rfl
    all_goals rfl
  all_goals rfl

end Sys2Proof.Machine
end

section
/-! SUPPORT. The invariant of the Huffman tables: the bounds of the code lengths, then the table update of HUF_ENC, and
the frame of every other event. -/

namespace Sys2Proof.Machine

/-! ## The codes -/

/-- In a tree of two or more leaves every path takes an edge (42_huffman.md R197). -/
theorem HufTree.path_length_pos {t : HufTree} {b : Byte} {c : List Bool} (ht : 2 ≤ t.leaves.length)
    (h : t.path b = some c) : 0 < c.length := by
  cases t with
  | leaf x => simp [leaves] at ht
  | node l r =>
    unfold path at h
    split at h
    · cases h; simp
    · obtain ⟨c', -, rfl⟩ := Option.map_eq_some_iff.1 h
      simp

/-- A symbol's code has at least one bit and at most 255, the depth of a tree of 256 leaves (R196, R197). -/
theorem codeTable_length_bounds {F : Byte → Nat} {b : Byte} (hb : b ∈ symbols F) :
    1 ≤ (codeTable F b).length ∧ (codeTable F b).length ≤ 255 := by
  rcases Nat.lt_or_ge (symbols F).length 2 with hlt | hge
  · have hpos := List.length_pos_of_mem hb
    obtain ⟨s0, hs0⟩ := List.length_eq_one_iff.1 (show (symbols F).length = 1 by omega)
    rw [hs0, List.mem_singleton] at hb
    simp [codeTable_of_one hs0, hb]
  · obtain ⟨t, -, hleaves, hpath, -, -⟩ := buildTree_spec F hge
    have hlen := hleaves.length_eq
    have hdepth := t.path_length_lt b _ (hpath b hb)
    have hmax := symbols_length_le F
    exact ⟨HufTree.path_length_pos (by omega) (hpath b hb), by omega⟩

/-- No code is longer than the 255 that CODELEN can hold. -/
theorem codeTable_length_le (F : Byte → Nat) (b : Byte) : (codeTable F b).length ≤ 255 := by
  by_cases hb : b ∈ symbols F
  · exact (codeTable_length_bounds hb).2
  · simp [codeTable_of_not_mem hb]

/-- A byte value has a code exactly when it occurs. -/
theorem codeTable_length_eq_zero {F : Byte → Nat} {b : Byte} : (codeTable F b).length = 0 ↔ F b = 0 := by
  by_cases hb : b ∈ symbols F
  · have hlen := codeTable_length_bounds hb
    have hF := mem_symbols.1 hb
    omega
  · have hF := mt mem_symbols.2 hb
    simp only [codeTable_of_not_mem hb, List.length_nil, true_iff]
    omega

/-! ## The table update -/

@[simp] theorem tableOf_getElem {α : Type} (f : Byte → α) (b : Byte) : (tableOf f)[b.toNat] = f b := by
  simp [tableOf]

section
variable (s : State) (inp : List Byte) (b : Byte)

@[simp] theorem State.setTables_freqAt : (s.setTables inp).freqAt b = BitVec.ofNat 32 (freqOf inp b) := by
  simp [State.freqAt]

@[simp] theorem State.setTables_codeLenAt :
    (s.setTables inp).codeLenAt b = BitVec.ofNat 8 (codeTable (freqOf inp) b).length := by
  simp [State.codeLenAt]

@[simp] theorem State.setTables_codeAt :
    (s.setTables inp).codeAt b = BitVec.ofNat 256 (bitsValue (codeTable (freqOf inp) b)) := by
  simp [State.codeAt]

end

/-- A frequency of an input below 2^32 bytes is zero in its register exactly when it is zero. -/
theorem freqWord_eq_zero {inp : List Byte} (hl : inp.length < 2 ^ 32) (b : Byte) :
    BitVec.ofNat 32 (freqOf inp b) = 0#32 ↔ freqOf inp b = 0 := by
  have hcount : freqOf inp b ≤ inp.length := List.count_le_length
  rw [← BitVec.toNat_inj, BitVec.toNat_ofNat, Nat.mod_eq_of_lt (by omega)]
  rfl

/-- The tables of R206 meet the invariant: every value fits its register. -/
theorem State.setTables_tablesInv (s : State) {inp : List Byte} (hl : inp.length < 2 ^ 32) :
    (s.setTables inp).TablesInv where
  nsym := by
    have hcount := symbols_length_le (freqOf inp)
    have hsyms : allBytes.filter (fun b => (s.setTables inp).freqAt b != 0#32) = symbols (freqOf inp) :=
      List.filter_congr fun b _ => by
        rw [Bool.eq_iff_iff]
        simp [freqWord_eq_zero hl, Nat.pos_iff_ne_zero]
    rw [hsyms, State.setTables_hufNsym, BitVec.toNat_ofNat, Nat.mod_eq_of_lt (by omega)]
  coded b := by
    have hlen := codeTable_length_le (freqOf inp) b
    rw [setTables_codeLenAt, setTables_freqAt, freqWord_eq_zero hl, ← codeTable_length_eq_zero, ← BitVec.toNat_inj,
      BitVec.toNat_ofNat, Nat.mod_eq_of_lt (by omega)]
    rfl
  high b := by
    have hlen := codeTable_length_le (freqOf inp) b
    rw [setTables_codeLenAt, setTables_codeAt, BitVec.toNat_ofNat, BitVec.toNat_ofNat,
      Nat.mod_eq_of_lt (show (codeTable (freqOf inp) b).length < 2 ^ 8 by omega)]
    exact (Nat.mod_le _ _).trans_lt (bitsValue_lt _)

/-! ## The other events -/

section
variable {s : State}

/-- Cleared tables meet the invariant. -/
theorem State.TablesInv.of_cleared (hn : s.hufNsym = 0#9) (hf : s.freq = Vector.replicate 256 0#32)
    (hl : s.codeLen = Vector.replicate 256 0#8) (hc : s.code = Vector.replicate 256 0#256) : s.TablesInv where
  nsym := by simp [hn, State.freqAt, hf]
  coded b := by simp [State.codeLenAt, State.freqAt, hl, hf]
  high b := by simp [State.codeAt, hc]

theorem emit_tablesInv (h : s.TablesInv) (o : List Byte) (pad : Nat) : (emit s o pad).st.TablesInv := by
  rw [emit_frame]
  exact { h with }

theorem countTokens_tablesInv {r : CmdResult} (h : r.st.TablesInv) (n : Nat) : (r.countTokens n).st.TablesInv := by
  unfold CmdResult.countTokens
  split
  · exact { h with }
  · exact h

/-- HUF_ENC rewrites all four tables, from an input of at most IN_CAP bytes (42_huffman.md R205, R206). -/
theorem runHufEnc_tablesInv (hp : s.params.legal) (h : s.TablesInv) : (runHufEnc s).st.TablesInv := by
  obtain ⟨⟨-, hcap⟩, -, -, -⟩ := hp
  refine withLen_keeps h fun hlen => emit_tablesInv (s.setTables_tablesInv ?_) _ _
  simp only [State.input, State.len, Memory.bytes_length]
  omega

theorem runOf_tablesInv (i : Instr) (hp : s.params.legal) (h : s.TablesInv) : (runOf i s).st.TablesInv := by
  cases i with
  | nop => exact h
  | bpPut =>
    refine withNbits_keeps h ?_
    split
    · exact h
    · exact { h with }
  | bpFlush =>
    simp only [runOf, runBpFlush]
    split
    · exact { h with }
    · split
      · exact h
      · exact { h with }
  | bpClear => exact { h with }
  | buGet =>
    refine withLen_keeps h fun _ => withNbits_keeps h ?_
    split
    · exact h
    · exact { h with }
  | buClear => exact { h with }
  | rleRun => exact withLen_keeps h fun _ => withPos_keeps h { h with }
  | rleEnc => exact withLen_keeps h fun _ => emit_tablesInv h _ _
  | hufEnc => exact runHufEnc_tablesInv hp h
  | lzFind => exact withLen_keeps h fun _ => withPos_keeps h { h with }
  | lzEnc => exact withLen_keeps h fun _ => countTokens_tablesInv (emit_tablesInv h _ _) _

theorem complete_tablesInv {t : State} (hp : s.params.legal) (h : s.TablesInv) (ht : s.complete exec = .next t) :
    t.TablesInv := by
  obtain ⟨i, -, hi⟩ | ⟨-, hbad⟩ := complete_cases s
  · rw [exec_next (hi.symm.trans ht)]
    exact { runOf_tablesInv i hp h with }
  · rw [← Host.Outcome.next.inj (hbad.symm.trans ht)]
    exact { h with }

/-- No write of the host reaches a table, other than the soft reset, which clears them all (10_state.md R31). -/
theorem busWrite_tablesInv (h : s.TablesInv) (a : Access) : (s.busWrite a).TablesInv := by
  unfold State.busWrite
  split
  · exact .of_cleared (by simp) (by simp) (by simp) (by simp)
  · split
    · exact { h with }
    · rw [idleWrite_frame]
      exact { h with }

theorem access_tablesInv {a : Access} {r : State × Option Word} (h : s.TablesInv) (hr : s.access a = .ok r) :
    r.1.TablesInv := by
  obtain ⟨-, ⟨-, rfl⟩ | ⟨-, rfl⟩⟩ := access_cases hr
  · rw [busRead_state]
    exact { h with }
  · exact busWrite_tablesInv h a

theorem runHost_tablesInv {t : State} {st : HostStep} (h : s.TablesInv) (ht : s.runHost st = .next t) :
    t.TablesInv := by
  have htick : s.tick.TablesInv := { h with }
  obtain ⟨-, rfl⟩ | ⟨a, r, -, hr, rfl⟩ := runHost_cases ht
  · exact { htick with }
  · exact { access_tablesInv htick hr with }

end

/-- Settles O57: HUF_ENC and the resets write consistent tables, and no other event that `step_cases` lists writes
any. -/
theorem stepKeepsTables : Obligations.StepKeepsTables := by
  intro s t hp h hstep
  have hs : s.sampled.TablesInv := { h with }
  obtain ⟨-, rfl⟩ | ⟨-, -, ht⟩ | ⟨-, -, -, rfl⟩ | ⟨-, -, st, -, ht⟩ := step_cases hstep
  · exact .of_cleared rfl rfl rfl rfl
  · exact complete_tablesInv (s := s.sampled) hp hs ht
  · exact hs
  · exact runHost_tablesInv hs ht

end Sys2Proof.Machine
end

section
/-! SUPPORT. What an idle host access to a register, a table entry or an unassigned offset reads and writes
(10_state.md R31 to R55, 20_memory.md R89). -/

namespace Sys2Proof.Machine

/-! ## Register reads -/

/-- IRQ_EN is bit 2 of CTRL, the only bit that reads (10_state.md R33). -/
theorem State.readReg_ctrl (s : State) : s.readReg .ctrl = if s.irqEn then 4#32 else 0#32 := by
  unfold State.readReg
  cases s.irqEn <;> rfl

/-- STATUS is exact busy or idle (44_system.md R266). -/
theorem access_readStatus (s : State) : s.access (.r32 0x00C#22) = .ok (s, some s.status.word) := by
  rw [access_read rfl rfl, busRead_exact rfl]
  rfl

/-! ## Register writes -/

/-- Every register lies at an aligned offset below the buffer windows (20_memory.md R86). -/
theorem RegName.offset_aligned (r : RegName) : r.offset.toNat < 0x100000 ∧ r.offset.toNat % 4 = 0 := by
  cases r <;> decide

theorem idleWrite_reg {s : State} {a : Access} {r : RegName} (h : targetOf a.offset = .reg r) :
    s.idleWrite a = s.writeReg r a.data := by
  simp [State.idleWrite, h]

/-- An idle 32-bit write to a register other than CTRL does what `writeReg` says. -/
theorem access_writeReg {s : State} (hb : s.status.busy = false) {r : RegName} (hr : r ≠ .ctrl) (v : Word) :
    s.access (.w32 r.offset v) = .ok (s.writeReg r v, none) := by
  obtain ⟨hlt, ha⟩ := r.offset_aligned
  have hok : (Access.w32 r.offset v).ok s.params = true := ok_word_regs _ _ _ hlt ha
  have htarget : targetOf (Access.w32 r.offset v).offset = .reg r := targetOf_offset r
  have hsoft : (Access.w32 r.offset v).isSoftReset = false := by simp [Access.isSoftReset, htarget, hr]
  rw [access_write rfl hok, busWrite_idle hsoft hb, idleWrite_reg htarget]
  rfl

/-- The operand registers and CMD, whose bits are RW (10_state.md R35, R37, R38, R40 to R42, R44). -/
def RegName.operands : List RegName := [.cmd, .srcLen, .dstCap, .pos, .bpValue, .bpNbits, .buNbits]

/-- The RW bits of an operand register: all of them, but bits 3 to 0 of CMD and 5 to 0 of the NBITS registers. -/
def RegName.rwMask : RegName → Word
  | .cmd => 0xF#32
  | .bpNbits | .buNbits => 0x3F#32
  | _ => 0xFFFFFFFF#32

theorem setWidth_six_eq_and (v : Word) : (v.setWidth 6).setWidth 32 = v &&& 0x3F#32 := by
  apply BitVec.eq_of_toNat_eq
  have hmask : v.toNat &&& 63 = v.toNat % 64 := Nat.and_two_pow_sub_one_eq_mod v.toNat 6
  simp [hmask]
  omega

/-- An operand register reads the RW bits of what was written to it. -/
theorem readReg_writeReg {r : RegName} (hr : r ∈ RegName.operands) (s : State) (v : Word) :
    (s.writeReg r v).readReg r = v &&& r.rwMask := by
  have hall : v = v &&& 0xFFFFFFFF#32 := BitVec.and_allOnes.symm
  cases r with
  | cmd => exact (and_mask_eq v).symm
  | bpNbits | buNbits => exact setWidth_six_eq_and v
  | srcLen | dstCap | pos | bpValue => exact hall
  | _ => exact absurd hr (by decide)

theorem writeReg_operand_status {r : RegName} (hr : r ∈ RegName.operands) (s : State) (v : Word) :
    (s.writeReg r v).status = s.status := by
  cases r with
  | cmd | srcLen | dstCap | pos | bpValue | bpNbits | buNbits => rfl
  | _ => exact absurd hr (by decide)

/-- Settles O16: each row of the table of reads is `readReg` at a register's offset, and each operand write is
`writeReg`. -/
theorem operandRegistersReadBack : Obligations.OperandRegistersReadBack := by
  refine ⟨fun s hb off v hrow => ?_, fun s v hb => ?_⟩
  · rw [← State.readReg_ctrl, ← Packer.word_eq, ← MatchReg.word_eq, ← RunReg.word_eq] at hrow
    have hreg : (off, v) ∈ [RegName.id, .ctrl, .cmd, .errinfo, .srcLen, .dstCap, .dstLen, .pos, .bpValue, .bpNbits,
        .bpState, .buNbits, .buValue, .buPos, .matchReg, .runReg, .hufNsym, .lzNtok, .cfgInCap, .cfgOutCap,
        .cfgLz].map (fun r => (r.offset, s.readReg r)) := hrow
    obtain ⟨r, -, hr⟩ := List.mem_map.1 hreg
    obtain ⟨rfl, rfl⟩ := Prod.mk.inj hr
    exact access_readReg hb r
  · have hwrite : ∀ {r : RegName}, r ≠ .ctrl → s.access (.w32 r.offset v) = .ok (s.writeReg r v, none) :=
      fun hr => access_writeReg hb hr v
    have hnbits : v.extractLsb' 0 6 = v.setWidth 6 := (BitVec.setWidth_eq_extractLsb' (by omega)).symm
    rw [hnbits]
    refine ⟨hwrite (r := .cmd) nofun, hwrite (r := .srcLen) nofun, hwrite (r := .dstCap) nofun,
      hwrite (r := .pos) nofun, hwrite (r := .bpValue) nofun, hwrite (r := .bpNbits) nofun,
      hwrite (r := .buNbits) nofun, fun off mask hrow t ht => ?_⟩
    have hreg : (off, mask) ∈ RegName.operands.map (fun r => (r.offset, r.rwMask)) := hrow
    obtain ⟨r, hop, hr⟩ := List.mem_map.1 hreg
    obtain ⟨rfl, rfl⟩ := Prod.mk.inj hr
    have hctrl : r ≠ .ctrl := by rintro rfl; exact absurd hop (by decide)
    obtain rfl : s.writeReg r v = t := congrArg Prod.fst (Except.ok.inj ((hwrite hctrl).symm.trans ht))
    rw [access_readReg (by rw [writeReg_operand_status hop]; exact hb), readReg_writeReg hop]

/-! ## Offsets that ignore writes -/

/-- The registers that a write can change (10_state.md R31 to R52). -/
def RegName.writable : List RegName :=
  [.ctrl, .cmd, .status, .srcLen, .dstCap, .pos, .bpValue, .bpNbits, .buNbits]

theorem writeReg_readOnly {r : RegName} (hr : r ∉ RegName.writable) (s : State) (v : Word) : s.writeReg r v = s := by
  cases r with
  | ctrl | cmd | status | srcLen | dstCap | pos | bpValue | bpNbits | buNbits => exact absurd (by decide) hr
  | _ => rfl

/-- Outside the buffer windows an aligned word access never errs (20_memory.md R85, R89). -/
theorem ok_word_outside (p : Config.Params) {off : Offset} (d : Dir) (v : Word) (ha : off.toNat % 4 = 0)
    (ho : off.toNat < 0x100000 ∨ 0x300000 ≤ off.toNat) :
    Access.ok p { dir := d, offset := off, width := 32, data := v } = true := by
  rcases ho with h | h
  · exact ok_word_regs p d v h ha
  · exact ok_word_top p d v h ha

theorem windowOf_top {o : Offset} : windowOf o = .top ↔ 0x300000 ≤ o.toNat := by
  unfold windowOf
  (repeat' split) <;> simp <;> omega

/-- The gaps between and after the registers and the tables (20_memory.md R86, R89). -/
theorem regTarget_gap {o : Nat} (h : 0x058 ≤ o ∧ o < 0x400 ∨ 0xC00 ≤ o ∧ o < 0x1000 ∨ 0x3000 ≤ o) :
    regTarget o = .unassigned := by
  rw [regTarget, if_neg (by omega)]
  rcases h with h | h | h
  · rw [if_pos (by omega)]
  · rw [if_neg (by omega), if_neg (by omega), if_neg (by omega), if_pos (by omega)]
  · rw [if_neg (by omega), if_neg (by omega), if_neg (by omega), if_neg (by omega), if_neg (by omega)]

theorem targetOf_unassigned {off : Offset} (ho : off.toNat < 0x100000 ∨ 0x300000 ≤ off.toNat)
    (hgap : 0x058 ≤ off.toNat ∧ off.toNat < 0x400 ∨ 0xC00 ≤ off.toNat ∧ off.toNat < 0x1000 ∨ 0x3000 ≤ off.toNat) :
    targetOf off = .unassigned := by
  rcases ho with h | h
  · rw [targetOf, windowOf_regs.2 h]
    exact regTarget_gap hgap
  · rw [targetOf, windowOf_top.2 h]

/-- An idle write that reaches neither a writable register nor IN_BUF has no effect. -/
theorem idleWrite_ignored {s : State} {a : Access} (hreg : ∀ r, targetOf a.offset = .reg r → r ∉ RegName.writable)
    (hin : ∀ i, targetOf a.offset ≠ .inByte i) : s.idleWrite a = s := by
  unfold State.idleWrite
  split
  · next r hr => exact writeReg_readOnly (hreg r hr) s a.data
  · next i hi => exact absurd hi (hin i)
  all_goals rfl

/-- Settles O17: the only writable registers lie at the listed offsets, and IN_BUF lies elsewhere. -/
theorem otherOffsetsIgnoreWrites : Obligations.OtherOffsetsIgnoreWrites := by
  intro s off v hb ha ho hlist
  refine ⟨?_, fun hgap => ?_⟩
  · have hok : (Access.w32 off v).ok s.params = true := ok_word_outside _ _ _ ha ho
    have hreg : ∀ r, targetOf off = .reg r → r ∉ RegName.writable := by
      intro r hr hmem
      rw [(targetOf_reg_iff ha r).1 hr] at hlist
      exact hlist (List.mem_map_of_mem (f := RegName.offset) hmem)
    have hin : ∀ i, targetOf off ≠ .inByte i := by
      intro i hi
      obtain ⟨hlo, hhi, -⟩ := toNat_of_targetOf_inByte hi
      omega
    have hsoft : (Access.w32 off v).isSoftReset = false := by
      have hctrl : targetOf off ≠ .reg .ctrl := fun h => hreg .ctrl h (by decide)
      simp [Access.isSoftReset, Access.w32, hctrl]
    rw [access_write rfl hok, busWrite_idle hsoft hb, idleWrite_ignored hreg hin]
  · have hok : (Access.r32 off).ok s.params = true := ok_word_outside _ _ _ ha ho
    rw [access_read rfl hok, busRead_idle hb]
    simp [State.exactRead, Access.r32, targetOf_unassigned ho hgap]

/-! ## STATUS -/

/-- The fields of STATUS in its word (10_state.md R34). -/
theorem Status.word_fields (st : Status) :
    st.word.getLsbD 0 = st.busy ∧ st.word.getLsbD 1 = st.done ∧ st.word.getLsbD 2 = st.err ∧
    st.word.getLsbD 3 = st.wbusy ∧ st.word.extractLsb' 4 4 = st.errcode.bits ∧ st.word.extractLsb' 8 24 = 0#24 := by
  obtain ⟨busy, done, wbusy, code⟩ := st
  revert busy done wbusy
  cases code <;> decide

/-- A write-one-to-clear bit, as a case split on the bit written. -/
theorem Status.w1c_eq (st : Status) (v : Word) : st.w1c v = { st with
    done := if v.getLsbD 1 then false else st.done
    wbusy := if v.getLsbD 3 then false else st.wbusy } := by
  unfold Status.w1c
  cases v.getLsbD 1 <;> cases v.getLsbD 3 <;> simp

/-- Settles O18: the word read is `Status.word`, the write `Status.w1c`. -/
theorem statusBitsAndW1C : Obligations.StatusBitsAndW1C := by
  refine ⟨fun s => ?_, fun s v hb => ?_⟩
  · obtain ⟨hbusy, hdone, herr, hwbusy, hcode, hrest⟩ := s.status.word_fields
    refine ⟨s.status.word, access_readStatus s, hbusy, hdone, ?_, hwbusy, ?_, hrest⟩
    · rw [herr, Status.err, bne, beq_eq_decide, decide_not]
    · rw [hcode]
      cases s.status.errcode <;> rfl
  · rw [← Status.w1c_eq]
    exact access_writeReg hb (r := .status) nofun v

/-! ## Tables -/

/-- An idle aligned word read below the buffer windows returns what lies at the offset (20_memory.md R86). -/
theorem access_readWord {s : State} (hb : s.status.busy = false) {o : Nat} {x : Target} (hlt : o < 0x100000)
    (ha : o % 4 = 0) (hx : regTarget o = x) :
    ∃ a : Access, targetOf a.offset = x ∧ s.access (.r32 (BitVec.ofNat 22 o)) = .ok (s, some (s.exactRead a)) := by
  have htoNat : (BitVec.ofNat 22 o).toNat = o := by rw [BitVec.toNat_ofNat]; omega
  have hok : (Access.r32 (BitVec.ofNat 22 o)).ok s.params = true := ok_word_regs _ _ _ (by omega) (by omega)
  refine ⟨.r32 (BitVec.ofNat 22 o), ?_, ?_⟩
  · have hwin : windowOf (BitVec.ofNat 22 o) = .regs := windowOf_regs.2 (by omega)
    simp only [Access.r32, targetOf, hwin, htoNat, hx]
  · rw [access_read rfl hok, busRead_idle hb]

section
variable (b : Byte)

/-- The tables lie at their offsets, in the order of the byte values (10_state.md R53 to R55). -/
theorem regTarget_freq : regTarget (0x400 + 4 * b.toNat) = .freq b := by
  have hb := b.isLt
  have hindex : (0x400 + 4 * b.toNat - 0x400) / 4 = b.toNat := by omega
  rw [regTarget, if_neg (by omega), if_neg (by omega), if_pos (by omega), hindex, BitVec.ofNat_toNat, BitVec.setWidth_eq]

theorem regTarget_codeLen : regTarget (0x800 + 4 * b.toNat) = .codeLen b := by
  have hb := b.isLt
  have hindex : (0x800 + 4 * b.toNat - 0x800) / 4 = b.toNat := by omega
  rw [regTarget, if_neg (by omega), if_neg (by omega), if_neg (by omega), if_pos (by omega), hindex,
    BitVec.ofNat_toNat, BitVec.setWidth_eq]

theorem regTarget_code {w : Nat} (hw : w < 8) : regTarget (0x1000 + 32 * b.toNat + 4 * w) = .code b w := by
  have hb := b.isLt
  have hindex : (0x1000 + 32 * b.toNat + 4 * w - 0x1000) / 32 = b.toNat := by omega
  have hword : (0x1000 + 32 * b.toNat + 4 * w - 0x1000) / 4 % 8 = w := by omega
  rw [regTarget, if_neg (by omega), if_neg (by omega), if_neg (by omega), if_neg (by omega), if_neg (by omega),
    if_pos (by omega), hindex, hword, BitVec.ofNat_toNat, BitVec.setWidth_eq]

end

/-- Settles O19: the address map gives the table entry at each offset. -/
theorem tableReadsAtTheirOffsets : Obligations.TableReadsAtTheirOffsets := by
  intro s b hb
  have hlt := b.isLt
  refine ⟨?_, ?_, fun w hw => ?_⟩
  · obtain ⟨a, ht, hr⟩ := access_readWord hb (by omega) (by omega) (regTarget_freq b)
    rw [hr, State.exactRead, ht]
  · obtain ⟨a, ht, hr⟩ := access_readWord hb (by omega) (by omega) (regTarget_codeLen b)
    rw [hr, State.exactRead, ht]
  · obtain ⟨a, ht, hr⟩ := access_readWord hb (by omega) (by omega) (regTarget_code b hw)
    rw [hr, State.exactRead, ht]
    rfl

end Sys2Proof.Machine
end

section
/-! SUPPORT. What a completion leaves of the operands, and what it reads of IN_BUF (10_state.md R56, R58). -/

namespace Sys2Proof.Machine

/-- A completion, of a command or of a reserved opcode, writes results, OUT_BUF and ERRINFO, and in STATUS all but
WBUSY (30_encoding.md R111, R115; 44_system.md R263). -/
theorem complete_frame {s t : State} (h : s.complete exec = .next t) : t = { s with
    status := { busy := false, done := true, wbusy := s.status.wbusy, errcode := t.status.errcode }
    errinfo := t.errinfo, packer := t.packer, outBuf := t.outBuf, draws := t.draws
    buValue := t.buValue, buPos := t.buPos, matchReg := t.matchReg, runReg := t.runReg
    hufNsym := t.hufNsym, lzNtok := t.lzNtok, freq := t.freq, codeLen := t.codeLen, code := t.code } := by
  obtain ⟨i, -, hi⟩ | ⟨-, hbad⟩ := complete_cases s
  · rw [exec_next (hi.symm.trans h), runOf_frame]
    rfl
  · rw [← Host.Outcome.next.inj (hbad.symm.trans h)]
    rfl

/-- Settles O22: no operand is in the list of `complete_frame`. -/
theorem completionsKeepOperands : Obligations.CompletionsKeepOperands := by
  intro s t h
  rw [complete_frame h]
  exact ⟨rfl, rfl, rfl, rfl, rfl, rfl, rfl, rfl, rfl, rfl, rfl, rfl, rfl⟩

/-! ## Two runs on two input buffers -/

/-- The same state with another IN_BUF. -/
def State.withInBuf (s : State) (m : Memory) : State := { s with inBuf := m }

/-- The same result with another IN_BUF. -/
def CmdResult.withInBuf (r : CmdResult) (m : Memory) : CmdResult := { r with st := r.st.withInBuf m }

section
variable {s : State} {m : Memory} {r r' : CmdResult}

/-- A branch on what is not in IN_BUF is taken alike in both runs. -/
theorem ite_withInBuf {c : Prop} [Decidable c] {x x' y y' : CmdResult} (hx : c → x' = x.withInBuf m)
    (hy : ¬ c → y' = y.withInBuf m) : (if c then x' else y') = (if c then x else y).withInBuf m := by
  split
  · next hc => exact hx hc
  · next hc => exact hy hc

/-- The checks read no byte of IN_BUF, so two runs stay alike when their bodies do. -/
theorem withLen_withInBuf (h : r' = r.withInBuf m) : withLen (s.withInBuf m) r' = (withLen s r).withInBuf m :=
  ite_withInBuf (fun _ => h) fun _ => rfl

theorem withNbits_withInBuf {n : BitVec 6} (h : r' = r.withInBuf m) :
    withNbits (s.withInBuf m) n r' = (withNbits s n r).withInBuf m :=
  ite_withInBuf (fun _ => h) fun _ => rfl

theorem withPos_withInBuf (h : r' = r.withInBuf m) : withPos (s.withInBuf m) r' = (withPos s r).withInBuf m :=
  ite_withInBuf (fun _ => h) fun _ => rfl

theorem emit_withInBuf (o : List Byte) (pad : Nat) :
    emit (s.withInBuf m) o pad = (emit s o pad).withInBuf m :=
  ite_withInBuf (fun _ => rfl) fun _ => rfl

theorem countTokens_withInBuf (n : Nat) : (r.withInBuf m).countTokens n = (r.countTokens n).withInBuf m :=
  ite_withInBuf (fun _ => rfl) fun _ => rfl

/-- The value of stream bits below bit `8 * n` depends on the bytes below `n` alone (40_bitpacker.md R146). -/
theorem streamValue_congr {f g : Nat → Byte} {n q k : Nat} (h : ∀ a, a < n → f a = g a) (hq : q + k ≤ 8 * n) :
    streamValue f q k = streamValue g q k := by
  refine congrArg bitsValue (List.map_congr_left fun j hj => ?_)
  have hj := List.mem_range.1 hj
  rw [unpackBit, unpackBit, h _ (by omega)]

/-- The operand of the commands on byte lists is the part of IN_BUF below SRC_LEN (R56). -/
theorem input_withInBuf (h : ∀ a, a < s.srcLen.toNat → m.read a = s.inBuf.read a) :
    (s.withInBuf m).input = s.input :=
  Memory.bytes_congr _ _ _ h

theorem runBuGet_withInBuf (h : ∀ a, a < s.srcLen.toNat → m.read a = s.inBuf.read a) :
    runBuGet (s.withInBuf m) = (runBuGet s).withInBuf m := by
  refine withLen_withInBuf (withNbits_withInBuf ?_)
  refine ite_withInBuf (fun _ => rfl) fun hfit => ?_
  have hvalue : streamValue m.read s.buPos.toNat s.getBits = streamValue s.inBuf.read s.buPos.toNat s.getBits :=
    streamValue_congr h (Nat.not_lt.1 hfit)
  rw [← hvalue]
  rfl

/-- No command's pseudocode tells apart two buffers that agree below SRC_LEN, and none writes IN_BUF. -/
theorem runOf_withInBuf (i : Instr) (h : ∀ a, a < s.srcLen.toNat → m.read a = s.inBuf.read a) :
    runOf i (s.withInBuf m) = (runOf i s).withInBuf m := by
  have hin := input_withInBuf h
  cases i with
  | nop => rfl
  | bpPut => exact withNbits_withInBuf (ite_withInBuf (fun _ => rfl) fun _ => rfl)
  | bpFlush => exact ite_withInBuf (fun _ => rfl) fun _ => ite_withInBuf (fun _ => rfl) fun _ => rfl
  | bpClear => rfl
  | buGet => exact runBuGet_withInBuf h
  | buClear => rfl
  | rleRun =>
    refine withLen_withInBuf (withPos_withInBuf ?_)
    rw [hin]; rfl
  | rleEnc =>
    refine withLen_withInBuf ?_
    rw [hin, emit_withInBuf]
  | hufEnc =>
    refine withLen_withInBuf ?_
    rw [hin]
    exact emit_withInBuf (s := s.setTables s.input) _ _
  | lzFind =>
    refine withLen_withInBuf (withPos_withInBuf ?_)
    rw [hin]; rfl
  | lzEnc =>
    refine withLen_withInBuf ?_
    rw [hin, emit_withInBuf]
    exact countTokens_withInBuf _

end

/-- Settles O52: the two runs' pseudocode ends alike, and so does the completion update. -/
theorem commandsReadOnlyValidInput : Obligations.CommandsReadOnlyValidInput := by
  intro i s t m ht h
  have hrun : runOf i { s with inBuf := m } = (runOf i s).withInBuf m := runOf_withInBuf i h
  rw [exec_eq, exec_next ht, hrun]
  rfl

end Sys2Proof.Machine
end

section
/-! SUPPORT. What each event can do to the flags of STATUS (10_state.md R60). -/

namespace Sys2Proof.Machine

/-- An idle write starts a command, clears W1C bits, or leaves STATUS as it is. -/
theorem idleWrite_status (s : State) (a : Access) :
    (targetOf a.offset = .reg .ctrl ∧ a.data.getLsbD 0 = true ∧ (s.idleWrite a).status = s.status.started) ∨
    (s.idleWrite a).status = s.status.w1c a.data ∨ (s.idleWrite a).status = s.status := by
  unfold State.idleWrite
  split
  · next r hr =>
    cases r
    case ctrl =>
      simp only [State.writeReg, State.writeCtrl]
      split
      · next hstart => exact .inl ⟨hr, hstart, rfl⟩
      · exact .inr (.inr rfl)
    case status => exact .inr (.inl rfl)
    all_goals exact .inr (.inr rfl)
  all_goals exact .inr (.inr rfl)

/-- No flag of STATUS is newly set and ERRCODE takes no new non-zero value. -/
structure Status.RaisesNothing (st st' : Status) : Prop where
  busy : st'.busy = true → st.busy = true
  done : st'.done = true → st.done = true
  wbusy : st'.wbusy = true → st.wbusy = true
  errcode : st'.errcode ≠ .noError → st'.errcode = st.errcode

theorem Status.RaisesNothing.of_eq {st st' : Status} (h : st' = st) : st.RaisesNothing st' := by
  subst h
  exact ⟨id, id, id, fun _ => rfl⟩

/-- A reset clears every flag (70_reset_and_hazards.md R341). -/
theorem Status.raisesNothing_cleared (st : Status) :
    st.RaisesNothing { busy := false, done := false, wbusy := false, errcode := .noError } :=
  ⟨nofun, nofun, nofun, fun h => absurd rfl h⟩

theorem Status.raisesNothing_w1c (st : Status) (v : Word) : st.RaisesNothing (st.w1c v) :=
  ⟨id, fun h => (Bool.and_eq_true_iff.1 h).1, fun h => (Bool.and_eq_true_iff.1 h).1, fun _ => rfl⟩

/-- What an access can raise: WBUSY by a write while busy, and BUSY by a CTRL write with START and without SRESET
(44_system.md R260, R265). -/
theorem access_status {s : State} {a : Access} {r : State × Option Word} (h : s.access a = .ok r) :
    s.status.RaisesNothing r.1.status ∨
    (a.dir = .write ∧ s.status.busy = true ∧ r.1.status = { s.status with wbusy := true }) ∨
    (a.dir = .write ∧ a.offset = 0x004#22 ∧ a.data.getLsbD 0 = true ∧ a.data.getLsbD 1 = false ∧
      r.1.status = s.status.started) := by
  obtain ⟨hok, ⟨-, rfl⟩ | ⟨hdir, rfl⟩⟩ := access_cases h
  · rw [busRead_state]
    exact .inl (.of_eq rfl)
  · cases hsoft : a.isSoftReset with
    | true =>
      rw [busWrite_softReset hsoft, State.softReset_status]
      exact .inl s.status.raisesNothing_cleared
    | false =>
      cases hb : s.status.busy with
      | true =>
        rw [busWrite_busy hsoft hb]
        exact .inr (.inl ⟨hdir, rfl, rfl⟩)
      | false =>
        rw [busWrite_idle hsoft hb]
        obtain ⟨hctrl, hstart, hst⟩ | hst | hst := idleWrite_status s a
        · have hoff : a.offset = 0x004#22 :=
            (targetOf_reg_iff (aligned_of_ok hok (lt_of_targetOf_reg hctrl)) .ctrl).1 hctrl
          have hsreset : a.data.getLsbD 1 = false := by simpa [Access.isSoftReset, hctrl] using hsoft
          exact .inr (.inr ⟨hdir, hoff, hstart, hsreset, hst⟩)
        · rw [hst]
          exact .inl (s.status.raisesNothing_w1c _)
        · exact .inl (.of_eq hst)

/-- Everything one step can do to STATUS: raise nothing, complete the command in flight, or make the host's write,
which raises WBUSY while busy or BUSY by a START. -/
theorem step_status {s t : State} (h : step s = .next t) :
    s.status.RaisesNothing t.status ∨
    (s.status.busy = true ∧ s.sampled.complete exec = .next t) ∨
    ∃ st a, s.host.current = some st ∧ st.access = some a ∧ a.dir = .write ∧
      ((s.status.busy = true ∧ t.status = { s.status with wbusy := true }) ∨
        (a.offset = 0x004#22 ∧ a.data.getLsbD 0 = true ∧ a.data.getLsbD 1 = false ∧ t.status = s.status.started)) := by
  obtain ⟨-, rfl⟩ | ⟨-, hnow, ht⟩ | ⟨-, -, -, rfl⟩ | ⟨-, -, st, hcur, ht⟩ := step_cases h
  · exact .inl s.status.raisesNothing_cleared
  · exact .inr (.inl ⟨(Bool.and_eq_true_iff.1 hnow).1, ht⟩)
  · exact .inl (.of_eq rfl)
  · obtain ⟨-, rfl⟩ | ⟨a, r, ha, hr, rfl⟩ := runHost_cases ht
    · exact .inl (.of_eq rfl)
    · obtain hnothing | ⟨hdir, hwbusy⟩ | ⟨hdir, hstart⟩ := access_status hr
      · exact .inl hnothing
      · exact .inr (.inr ⟨st, a, hcur, ha, hdir, .inl hwbusy⟩)
      · exact .inr (.inr ⟨st, a, hcur, ha, hdir, .inr hstart⟩)

/-- Settles O58: in each case of `step_status`, a clause names the event or its flag is not set. -/
theorem flagsChangeOnlyAsStated : Obligations.FlagsChangeOnlyAsStated := by
  intro s t h
  obtain ⟨hbusy, hdone, hwbusy, herr⟩ | ⟨hb, hc⟩ | ⟨st, a, hcur, ha, hdir, ⟨hb, hst⟩ | ⟨hoff, hstart, hsreset, hst⟩⟩ :=
    step_status h
  · exact ⟨fun h0 h1 => (nomatch h0.symm.trans (hbusy h1)), fun h0 h1 => (nomatch h0.symm.trans (hdone h1)),
      fun h0 h1 => (nomatch h0.symm.trans (hwbusy h1)), fun h0 h1 => absurd (herr h0) h1⟩
  · have hbusy : t.status.busy = false := by rw [complete_frame hc]
    have hkept : t.status.wbusy = s.status.wbusy := by rw [complete_frame hc]; rfl
    exact ⟨fun _ h1 => (nomatch hbusy.symm.trans h1), fun _ _ => ⟨hb, hc⟩,
      fun h0 h1 => (nomatch h0.symm.trans (hkept.symm.trans h1)), fun _ _ => ⟨hb, hc⟩⟩
  · rw [hst]
    exact ⟨fun h0 _ => (nomatch h0.symm.trans hb), fun h0 h1 => (nomatch h0.symm.trans h1),
      fun _ _ => ⟨hb, st, a, hcur, ha, hdir⟩, fun _ h1 => absurd rfl h1⟩
  · rw [hst]
    exact ⟨fun _ _ => ⟨st, a.data, hcur, ⟨a, ha, hdir, hoff, rfl⟩, hstart, hsreset⟩, nofun,
      fun h0 h1 => (nomatch h0.symm.trans h1), fun h0 _ => absurd rfl h0⟩

end Sys2Proof.Machine
end

section
/-! SUPPORT. Bus errors, and host accesses to the two buffer windows (20_memory.md R83 to R90). -/

namespace Sys2Proof.Machine

/-! ## Bus errors -/

theorem not_access_isOk {s : State} {a : Access} : (¬ ∃ r, s.access a = .ok r) ↔ a.ok s.params = false := by
  rw [access_isOk, Bool.not_eq_true]

/-- A host step whose access is refused stops the machine (20_memory.md R90). -/
theorem runHost_error {s : State} {st : HostStep} {a : Access} (ha : st.access = some a)
    (ho : a.ok s.params = false) : s.runHost st = .fault (.busError a.offset a.width a.dir) := by
  have herr : s.tick.access a = .error (.busError a.offset a.width a.dir) := access_error ho
  simp [State.runHost, ha, herr]

/-- Settles O13: `ok_iff` gives the refused accesses in numbers, and `step_runHost` says that the step is the host's. -/
theorem busErrorsExactly : Obligations.BusErrorsExactly := by
  refine ⟨fun s a => ⟨?_, fun herr => access_error (not_access_isOk.1 herr)⟩, fun s st a hr hw hc ha herr => ?_⟩
  · rw [access_isOk, ok_iff]
  · rw [step_runHost hr hw hc]
    exact runHost_error (s := s.sampled) ha ((not_access_isOk (s := s)).1 herr)

/-! ## Reads of the buffers -/

/-- A read of OUT_BUF of a legal width errs exactly past the capacity (20_memory.md R88). -/
theorem ok_read_outOffset {p : Config.Params} {i w : Nat} (hi : i < 0x100000) (v : Word)
    (hw : w = 8 ∨ w = 32 ∧ i % 4 = 0) :
    Access.ok p { dir := .read, offset := outOffset i, width := w, data := v } = decide (i + w / 8 ≤ p.outCap) := by
  have hwin : windowOf (outOffset i) = .outWin := by
    simp [windowOf, outOffset_toNat hi, show ¬ 0x200000 + i < 0x100000 by omega, show 0x200000 + i < 0x300000 by omega]
  have hwidth : (Access.isWord { dir := .read, offset := outOffset i, width := w, data := v } ||
      Access.isByte { dir := .read, offset := outOffset i, width := w, data := v }) = true := by
    rcases hw with rfl | ⟨rfl, ha⟩
    · simp [Access.isByte]
    · simp [Access.isWord, outOffset_toNat hi, show (0x200000 + i) % 4 = 0 by omega]
  simp [Access.ok, hwin, hwidth, outOffset_toNat hi]

/-- The four lanes of a word read are the bytes at their places in it (20_memory.md R83). -/
theorem Memory.readLanes_eq (m : Memory) (i : Nat) :
    m.readLanes i = (m.read i).setWidth 32 ||| (m.read (i + 1)).setWidth 32 <<< 8 |||
      (m.read (i + 2)).setWidth 32 <<< 16 ||| (m.read (i + 3)).setWidth 32 <<< 24 := by
  unfold Memory.readLanes
  apply BitVec.eq_of_getLsbD_eq
  intro j hj
  simp only [BitVec.getLsbD_append, BitVec.getLsbD_or, BitVec.getLsbD_shiftLeft, BitVec.getLsbD_setWidth]
  interval_cases j <;> simp

section
variable {s : State} {i : Nat}

/-- An idle read that does not err is exact and changes nothing. -/
theorem access_read_idle {a : Access} (hb : s.status.busy = false) (hd : a.dir = .read) (ho : a.ok s.params = true) :
    s.access a = .ok (s, some (s.exactRead a)) := by
  rw [access_read hd ho, busRead_idle hb]

/-- An idle read of IN_BUF returns the byte, or the four lanes of the word. -/
theorem access_read_inOffset {w : Nat} (hp : s.params.legal) (hb : s.status.busy = false)
    (hw : w = 8 ∨ w = 32 ∧ i % 4 = 0) (hi : i + w / 8 ≤ s.params.inCap) :
    s.access { dir := .read, offset := inOffset i, width := w, data := 0#32 } =
      .ok (s, some (if w = 8 then (s.inBuf.read i).setWidth 32 else s.inBuf.readLanes i)) := by
  obtain ⟨⟨-, hcap⟩, -⟩ := hp
  have hlt : i < 0x100000 := by omega
  rw [access_read_idle hb rfl (by rw [ok_inOffset hlt _ _ hw]; exact decide_eq_true hi)]
  simp [State.exactRead, Access.isByte, targetOf_inOffset hlt]

/-- An idle read of OUT_BUF returns the byte, or the four lanes of the word. -/
theorem access_read_outOffset {w : Nat} (hp : s.params.legal) (hb : s.status.busy = false)
    (hw : w = 8 ∨ w = 32 ∧ i % 4 = 0) (hi : i + w / 8 ≤ s.params.outCap) :
    s.access { dir := .read, offset := outOffset i, width := w, data := 0#32 } =
      .ok (s, some (if w = 8 then (s.outBuf.read i).setWidth 32 else s.outBuf.readLanes i)) := by
  obtain ⟨-, ⟨-, hcap⟩, -⟩ := hp
  have hlt : i < 0x100000 := by omega
  rw [access_read_idle hb rfl (by rw [ok_read_outOffset hlt _ hw]; exact decide_eq_true hi)]
  simp [State.exactRead, Access.isByte, targetOf_outOffset hlt]

/-- In a window whose byte reads return the bytes of a buffer and whose word read at `i` returns its lanes there, each
lane of the word is what the byte read returns. -/
theorem wordRead_sees_byteReads {m : Memory} {off : Nat → Offset} {cap : Nat}
    (hbyte : ∀ j, j < cap → s.access (.r8 (off j)) = .ok (s, some ((m.read j).setWidth 32)))
    (hword : s.access (.r32 (off i)) = .ok (s, some (m.readLanes i))) (hi : i + 4 ≤ cap) :
    ∃ v : Word, s.access (.r32 (off i)) = .ok (s, some v) ∧
      v = (m.read i).setWidth 32 ||| (m.read (i + 1)).setWidth 32 <<< 8 |||
        (m.read (i + 2)).setWidth 32 <<< 16 ||| (m.read (i + 3)).setWidth 32 <<< 24 ∧
      ∀ k, k < 4 → s.access (.r8 (off (i + k))) = .ok (s, some ((v.extractLsb' (8 * k) 8).setWidth 32)) := by
  refine ⟨m.readLanes i, hword, m.readLanes_eq i, fun k hk => ?_⟩
  rw [hbyte (i + k) (by omega), m.readLanes_lane i k hk]

end

/-- Settles O14: `wordRead_sees_byteReads` in each of the two windows. -/
theorem wordReadSeesByteLanes : Obligations.WordReadSeesByteLanes := by
  intro s hp hb
  have hin : ∀ i, i < s.params.inCap →
      s.access (.r8 (inOffset i)) = .ok (s, some ((s.inBuf.read i).setWidth 32)) :=
    fun _ hi => access_read_inOffset hp hb (.inl rfl) hi
  have hout : ∀ i, i < s.params.outCap →
      s.access (.r8 (outOffset i)) = .ok (s, some ((s.outBuf.read i).setWidth 32)) :=
    fun _ hi => access_read_outOffset hp hb (.inl rfl) hi
  refine ⟨hin, hout, fun i ha hi => ?_, fun i ha hi => ?_⟩
  · exact wordRead_sees_byteReads hin (access_read_inOffset hp hb (.inr ⟨rfl, ha⟩) hi) hi
  · exact wordRead_sees_byteReads hout (access_read_outOffset hp hb (.inr ⟨rfl, ha⟩) hi) hi

/-! ## Writes to IN_BUF -/

/-- What every address reads after a word is written at `i` (20_memory.md R83). -/
theorem Memory.read_writeLanes (m : Memory) (i a : Nat) (v : Word) :
    (m.writeLanes i v).read a = if i ≤ a ∧ a < i + 4 then v.extractLsb' (8 * (a - i)) 8 else m.read a := by
  rw [Memory.writeLanes, Memory.read_writeBytes]
  by_cases h : i ≤ a ∧ a < i + 4
  · obtain ⟨k, rfl⟩ := Nat.exists_eq_add_of_le h.1
    have hk : k < 4 := by omega
    simp only [Nat.add_sub_cancel_left, List.length_cons, List.length_nil]
    rw [if_pos h, dif_pos (by omega)]
    interval_cases k <;> rfl
  · rw [if_neg h, dif_neg (by simp only [List.length_cons, List.length_nil]; omega)]

/-- A byte write carries its byte in lane 0 (20_memory.md R83). -/
theorem lane_zero_setWidth (b : Byte) : lane (b.setWidth 32) 0 = b := by
  unfold lane
  rw [Nat.mul_zero, ← BitVec.setWidth_eq_extractLsb' (by omega), BitVec.setWidth_setWidth_of_le _ (by omega),
    BitVec.setWidth_eq]

section
variable {s : State} {i : Nat}

/-- An idle write to IN_BUF changes that buffer alone, by the byte or by the four lanes of the word. -/
theorem access_write_inOffset {w : Nat} (hp : s.params.legal) (hb : s.status.busy = false)
    (hw : w = 8 ∨ w = 32 ∧ i % 4 = 0) (hi : i + w / 8 ≤ s.params.inCap) (v : Word) :
    s.access { dir := .write, offset := inOffset i, width := w, data := v } = .ok ({ s with
      inBuf := if w = 8 then s.inBuf.write i (lane v 0) else s.inBuf.writeLanes i v }, none) := by
  obtain ⟨⟨-, hcap⟩, -⟩ := hp
  have hlt : i < 0x100000 := by omega
  have hsoft : Access.isSoftReset { dir := .write, offset := inOffset i, width := w, data := v } = false := by
    simp [Access.isSoftReset, targetOf_inOffset hlt]
  rw [access_write rfl (by rw [ok_inOffset hlt _ _ hw]; exact decide_eq_true hi), busWrite_idle hsoft hb]
  simp [State.idleWrite, Access.isByte, targetOf_inOffset hlt]

end

/-- Settles O15: the write is `Memory.write` or `Memory.writeLanes`, whose reads are known at every address. -/
theorem hostWritesToInBuf : Obligations.HostWritesToInBuf := by
  refine ⟨fun s i b hp hb hi => ⟨_, access_write_inOffset hp hb (.inl rfl) hi _, rfl, fun a => ?_⟩,
    fun s i v hp hb ha hi => ⟨_, access_write_inOffset hp hb (.inr ⟨rfl, ha⟩) hi v, rfl, fun a => ?_⟩⟩
  · simpa [lane_zero_setWidth] using s.inBuf.read_write i a b
  · exact s.inBuf.read_writeLanes i a v

end Sys2Proof.Machine
end

section
/-! SUPPORT. The opcode map, the opcode field and the encoder (30_encoding.md R110 to R113). -/

namespace Sys2Proof

open Machine

/-- Settles O1, by evaluating the decoder on each of the 13 words. -/
theorem opcodeMapWordsDecode : Obligations.OpcodeMapWordsDecode := by
  unfold Obligations.OpcodeMapWordsDecode
  decide

/-- Words with one opcode field decode alike. -/
theorem decode_congr {w w' : Word} (h : opField w' = opField w) : decode w' = decode w := by
  rw [← decode_cmdWord w', h, decode_cmdWord]

/-- Settles O2: `opField` is the field's bits, and the decoder is total by the two halves of its range. -/
theorem decodeReadsOpcodeFieldOnly : Obligations.DecodeReadsOpcodeFieldOnly :=
  fun _ => ⟨fun _ => decode_congr, decode_of_le, decode_of_gt⟩

/-- The register CMD holds nothing above its opcode field (10_state.md R35). -/
theorem cmdWord_reserved (op : Opcode) : (cmdWord op).extractLsb' 4 28 = 0#28 := by
  revert op; decide

@[simp] theorem opField_encode (i : Instr) : opField (encode i) = opcodeOf i := opField_cmdWord _

theorem decode_encode (i : Instr) : decode (encode i) = .ok i := (decode_ok_iff _ i).2 (opField_encode i)

/-- The opcode map's numbering of four bits or more gives a command word whole. -/
theorem tableWord_cmdWord {nbits : Nat} (h : 4 ≤ nbits) (op : Opcode) :
    tableWord nbits (cmdWord op).toNat = cmdWord op := by
  have hlt : (cmdWord op).toNat < 2 ^ nbits :=
    calc (cmdWord op).toNat = op.toNat := BitVec.toNat_setWidth_of_le (by omega)
      _ < 2 ^ 4 := op.isLt
      _ ≤ 2 ^ nbits := Nat.pow_le_pow_right Nat.two_pos h
  rw [tableWord, Nat.mod_eq_of_lt hlt, BitVec.ofNat_toNat, BitVec.setWidth_eq]

/-- Settles O3: `decode_ok_iff` one way, `decode_encode` the other. -/
theorem decodeEncodeAgree : Obligations.DecodeEncodeAgree := by
  refine fun i => ⟨fun w => ?_, cmdWord_reserved _, fun nbits h => ?_⟩
  · exact (decode_ok_iff w i).trans (by rw [← opField_encode i]; rfl)
  · have hword : tableWord nbits (encode i).toNat = encode i := tableWord_cmdWord h _
    rw [decodeTableWord, hword, decode_encode]

end Sys2Proof
end

section
/-! SUPPORT. Which results each command writes (30_encoding.md R111), and that only NOP writes none (R115). -/

namespace Sys2Proof.Machine

/-! ## The results of each command -/

/-- The state `s` with the results that a command lists taken from `u` (30_encoding.md R111); an encoder may also take a
draw, for the bytes that an overflow leaves unspecified (log 3). -/
def State.withResults (s : State) (u : State) : Instr → State
  | .nop => s
  | .bpPut | .bpFlush => { s with packer := u.packer, outBuf := u.outBuf }
  | .bpClear => { s with packer := u.packer }
  | .buGet | .buClear => { s with buValue := u.buValue, buPos := u.buPos }
  | .rleRun => { s with runReg := u.runReg }
  | .rleEnc => { s with packer := u.packer, outBuf := u.outBuf, draws := u.draws }
  | .hufEnc =>
    { s with packer := u.packer, outBuf := u.outBuf, draws := u.draws
             freq := u.freq, codeLen := u.codeLen, code := u.code, hufNsym := u.hufNsym }
  | .lzFind => { s with matchReg := u.matchReg }
  | .lzEnc => { s with packer := u.packer, outBuf := u.outBuf, draws := u.draws, lzNtok := u.lzNtok }

/-- A state differs from `s` in the results of `i` alone. -/
def State.DiffersInResults (s : State) (i : Instr) (u : State) : Prop := u = s.withResults u i

section
variable (s : State)

theorem State.differsInResults_self (i : Instr) : s.DiffersInResults i s := by cases i <;> rfl

/-- Every command's pseudocode writes its own results alone. -/
theorem runOf_differsInResults (i : Instr) : s.DiffersInResults i (runOf i s).st := by
  have hself := s.differsInResults_self
  cases i with
  | nop | bpClear | buClear => rfl
  | bpPut =>
    refine withNbits_keeps (hself _) ?_
    split
    · exact hself _
    · rfl
  | bpFlush =>
    simp only [runOf, runBpFlush]
    split
    · rfl
    · split
      · exact hself _
      · rfl
  | buGet =>
    refine withLen_keeps (hself _) fun _ => withNbits_keeps (hself _) ?_
    split
    · exact hself _
    · rfl
  | rleRun | lzFind => exact withLen_keeps (hself _) fun _ => withPos_keeps (hself _) rfl
  | rleEnc => exact withLen_keeps (hself _) fun _ => emit_frame s _ _
  | hufEnc =>
    refine withLen_keeps (hself _) fun _ => ?_
    rw [emit_frame]
    rfl
  | lzEnc =>
    refine withLen_keeps (hself _) fun _ => ?_
    unfold CmdResult.countTokens
    split
    · rw [emit_frame]; rfl
    · rw [emit_frame]; rfl

end

/-! ## PAD -/

@[simp] theorem pushBit_pad (pm : Packer × Memory) (b : Bool) : (pushBit pm b).1.pad = pm.1.pad := by
  unfold pushBit
  split <;> rfl

@[simp] theorem pushBits_pad (bits : List Bool) : ∀ pm : Packer × Memory, (pushBits pm bits).1.pad = pm.1.pad := by
  induction bits with
  | nil => exact fun _ => rfl
  | cons b bits ih => exact fun pm => by rw [pushBits_cons, ih, pushBit_pad]

/-- A put leaves PAD as the last flush set it (40_bitpacker.md R142). -/
theorem runBpPut_pad (s : State) : (runBpPut s).st.packer.pad = s.packer.pad := by
  refine withNbits_keeps (P := fun u => u.packer.pad = s.packer.pad) rfl ?_
  split
  · rfl
  · exact pushBits_pad _ _

/-- Settles O23: the clauses are read off `State.withResults`, command by command, and PAD of BP_PUT off its pushes. -/
theorem commandsWriteOnlyTheirResults : Obligations.CommandsWriteOnlyTheirResults := by
  intro i s t h
  rw [exec_next h]
  have hrun : (runOf i s).st = s.withResults (runOf i s).st i := runOf_differsInResults s i
  have hpad : i = .bpPut → (runOf i s).st.packer.pad = s.packer.pad := by
    rintro rfl
    exact runBpPut_pad s
  generalize (runOf i s).st = u at hrun hpad
  rw [hrun]
  cases i with
  | bpPut => simp [State.withResults, hpad]
  | _ => simp [State.withResults]


/-! ## Reserved opcodes, and only NOP is a no-op -/

/-- The completion step of a reserved opcode (30_encoding.md R115). -/
theorem complete_reserved {s : State} (h : 10 < s.op.toNat) : s.complete exec = .next (s.badOpcode s.op) := by
  simp [State.complete, decode_cmdWord_of_gt h]

theorem emit_acc (s : State) (o : List Byte) (pad : Nat) : (emit s o pad).st.packer.acc = 0#8 := by
  unfold emit
  split <;> rfl

/-- An encoder of a legal length empties the packer, ACC included, whether its output fits or not (40_bitpacker.md
R148). -/
theorem runOf_encoder_acc {i : Instr} {s : State} (hi : isEncoder i = true) (hlen : s.srcLen.toNat ≤ s.params.inCap) :
    (runOf i s).st.packer.acc = 0#8 := by
  cases i with
  | rleEnc => rw [runOf, runRleEnc, withLen_ok hlen, emit_acc]
  | hufEnc => rw [runOf, runHufEnc, withLen_ok hlen, emit_acc]
  | lzEnc =>
    rw [runOf, runLzEnc, withLen_ok hlen, CmdResult.countTokens]
    split <;> exact emit_acc _ _ _
  | _ => cases hi

/-- A command is no no-op when its pseudocode changes some part of a state other than STATUS and ERRINFO. -/
theorem exec_changes {i : Instr} {s : State} {α : Type} (part : State → α)
    (h : part (runOf i s).st ≠ part s)
    (hpart : ∀ (u : State) (st : Status) (x : Word), part { u with status := st, errinfo := x } = part u := by
      exact fun _ _ _ => rfl) :
    ∃ s t : State, exec i s = .next t ∧ t ≠ { s with status := t.status, errinfo := t.errinfo } := by
  refine ⟨s, _, exec_eq i s, fun heq => h ?_⟩
  calc part (runOf i s).st = part ((runOf i s).st.completed _ _) := (hpart _ _ _).symm
    _ = part { s with status := _, errinfo := _ } := congrArg part heq
    _ = part s := hpart _ _ _

/-- A state after reset in which every command but NOP has something to do: one byte to read, widths of one bit, and in
each result another value than the command leaves there. -/
def eagerState : State :=
  { State.reset with
    srcLen := 1#32
    bpNbits := 1#6
    buNbits := 1#6
    buPos := 1#32
    packer := { dstLen := 0#32, pend := 0#3, pad := 1#3, acc := 1#8 }
    matchReg := { dist := 1#16, len := 3#8, lit := 0#8 } }

theorem eagerState_encoder_changes {i : Instr} (hi : isEncoder i = true) :
    (runOf i eagerState).st.packer.acc ≠ eagerState.packer.acc := by
  rw [runOf_encoder_acc hi (by decide)]
  decide

/-- Settles O6: the BAD_OPCODE completion is the state asked for, and each command but NOP changes a result of
`eagerState`. -/
theorem reservedOpcodeReportsBadOpcode : Obligations.ReservedOpcodeReportsBadOpcode := by
  refine ⟨fun s h => complete_reserved h, fun i hi => ?_⟩
  cases i with
  | nop => exact absurd rfl hi
  | bpPut => exact exec_changes (s := eagerState) (fun u => u.packer.pend) (by decide)
  | bpFlush | bpClear => exact exec_changes (s := eagerState) (fun u => u.packer.pad) (by decide)
  | buGet | buClear => exact exec_changes (s := eagerState) (fun u => u.buPos) (by decide)
  | rleRun => exact exec_changes (s := eagerState) (fun u => u.runReg.count) (by decide)
  | lzFind => exact exec_changes (s := eagerState) (fun u => u.matchReg.dist) (by decide)
  | rleEnc | hufEnc | lzEnc => exact exec_changes (fun u => u.packer.acc) (eagerState_encoder_changes rfl)

end Sys2Proof.Machine
end

section
/-! SUPPORT. The host's control flow (30_encoding.md R117, 44_system.md R271): where each kind of step leads, and where
labels stand. -/

namespace Sys2Proof.Machine

/-! ## A host step with an access -/

theorem runHost_access {s u : State} {st : HostStep} {a : Access} {r : Option Word} (ha : st.access = some a)
    (h : s.tick.access a = .ok (u, r)) : s.runHost st = .next (u.setHost (s.host.after st r)) := by
  simp [State.runHost, ha, h]

section
variable (h : HostAgent) (f : Field) (v w : Word) (l : Nat)

/-- POLL stays where it is until the field reads the value. -/
theorem HostAgent.after_poll : h.after (.poll f v) (some w) = { h with
    lastRead := some w, pc := if f.of w = v then h.pc + 1 else h.pc } := by
  by_cases hv : f.of w = v <;> simp [HostAgent.after, HostAgent.saw, HostAgent.advance, hv]

/-- BEQ goes to its label when the field reads the value, else on. -/
theorem HostAgent.after_beq : h.after (.beq f v l) (some w) = { h with
    lastRead := some w, pc := if f.of w = v then labelIndex h.prog l else h.pc + 1 } := by
  by_cases hv : f.of w = v <;> simp [HostAgent.after, HostAgent.saw, HostAgent.jump, HostAgent.advance, hv]

/-- BNE goes on when the field reads the value, else to its label. -/
theorem HostAgent.after_bne : h.after (.bne f v l) (some w) = { h with
    lastRead := some w, pc := if f.of w = v then h.pc + 1 else labelIndex h.prog l } := by
  by_cases hv : f.of w = v <;> simp [HostAgent.after, HostAgent.saw, HostAgent.jump, HostAgent.advance, hv]

/-- A BEQ or a BNE goes to its label when the comparison of the field comes out as its kind asks. -/
theorem HostAgent.after_branch (beq : Bool) :
    h.after (if beq then .beq f v l else .bne f v l) (some w) = { h with
      lastRead := some w, pc := if decide (f.of w = v) = beq then labelIndex h.prog l else h.pc + 1 } := by
  cases beq with
  | true => simp [after_beq]
  | false => simp [after_bne]

/-- A read with an expected value goes on whatever it read (log 6). -/
theorem HostAgent.expect_eq (want got : Word) : h.expect want got = { h with
    lastRead := some got, pc := h.pc + 1, unmet := (h.expect want got).unmet } := by
  unfold HostAgent.expect
  split <;> rfl

/-- The steps of one access after which the host goes on with the next step, whatever the answer. -/
def HostStep.goesOn : HostStep → Bool
  | .w32 _ _ | .w8 _ _ | .r32 _ _ | .r8 _ _ | .bus _ => true
  | .poll _ _ | .label _ | .beq _ _ _ | .bne _ _ _ => false

theorem HostAgent.after_goesOn {st : HostStep} (hst : st.goesOn = true) (r : Option Word) :
    (h.after st r).pc = h.pc + 1 ∧ (h.after st r).prog = h.prog ∧ ∀ v, r = some v → (h.after st r).lastRead = some v := by
  cases r with
  | none => exact ⟨rfl, rfl, nofun⟩
  | some v =>
    cases st with
    | w32 | w8 | bus => exact ⟨rfl, rfl, fun _ hv => hv⟩
    | r32 | r8 =>
      rw [HostAgent.after, HostAgent.expect_eq]
      exact ⟨rfl, rfl, fun _ hv => hv⟩
    | poll | label | beq | bne => cases hst

end

/-! ## Labels -/

theorem labelIndex_cons (st : HostStep) (rest : List HostStep) (l : Nat) :
    labelIndex (st :: rest) l = if st = .label l then 0 else labelIndex rest l + 1 := by
  cases st <;> simp [labelIndex]

theorem mem_labelsOf {prog : List HostStep} {l : Nat} : l ∈ labelsOf prog ↔ .label l ∈ prog := by
  induction prog with
  | nil => simp [labelsOf]
  | cons st rest ih => cases st <;> simp [labelsOf, ih]

/-- A label that a program has stands at its index. -/
theorem getElem?_labelIndex {l : Nat} : ∀ {prog : List HostStep}, .label l ∈ prog →
    prog[labelIndex prog l]? = some (.label l)
  | st :: rest, h => by
    rw [labelIndex_cons]
    split
    · next hst => exact congrArg some hst
    · next hst => exact getElem?_labelIndex ((List.mem_cons.1 h).resolve_left (Ne.symm hst))

theorem labelsOf_nodup_tail {st : HostStep} {rest : List HostStep} (h : (labelsOf (st :: rest)).Nodup) :
    (labelsOf rest).Nodup := by
  cases st with
  | label => exact h.of_cons
  | _ => exact h

/-- Where labels are distinct, a label stands nowhere else. -/
theorem labelIndex_unique {l : Nat} : ∀ {prog : List HostStep} {i : Nat}, (labelsOf prog).Nodup →
    prog[i]? = some (.label l) → labelIndex prog l = i
  | st :: rest, 0, _, h => by rw [labelIndex_cons, if_pos (Option.some.inj h)]
  | st :: rest, i + 1, hnodup, h => by
    have hmem : l ∈ labelsOf rest := mem_labelsOf.2 (List.mem_of_getElem? h)
    have hst : st ≠ .label l := by
      rintro rfl
      exact (List.nodup_cons.1 hnodup).1 hmem
    rw [labelIndex_cons, if_neg hst, labelIndex_unique (labelsOf_nodup_tail hnodup) h]

/-! ## The host's steps -/

section
variable {s u : State} {st : HostStep} {a : Access} {r : Option Word} (hr : s.resetIn.head? ≠ some true)
  (hw : s.status.busy = true → s.wait ≠ 0) (hc : s.host.current = some st)
include hr hw hc

/-- A host step whose access does not err: the access from the state after the reset level and the wait were counted
(logs 4 and 13), then the host's own move. -/
theorem step_access (ha : st.access = some a) (h : s.sampled.tick.access a = .ok (u, r)) :
    step s = .next { u with host := s.host.after st r } := by
  rw [step_runHost hr hw hc]
  exact runHost_access ha h

theorem step_goesOn (hst : st.goesOn = true) (ha : st.access = some a)
    (h : s.sampled.tick.access a = .ok (u, r)) :
    ∃ t, step s = .next t ∧ t = { u with host := t.host } ∧ t.host.pc = s.host.pc + 1 ∧
      t.host.prog = s.host.prog ∧ ∀ v, r = some v → t.host.lastRead = some v :=
  ⟨_, step_access hr hw hc ha h, rfl, s.host.after_goesOn hst r⟩

end

/-- Settles O59: a branch on STATUS is an exact read of it and then `HostAgent.after_branch`; the other steps make the
access given and move as their `after` lemma says. -/
theorem hostBranchesOnStatusField : Obligations.HostBranchesOnStatusField := by
  refine ⟨fun s f v l beq hf hr hw hc => ?_, fun s u f v w hr hw h => ⟨fun hc => ?_, fun l hc => ?_, fun l hc => ?_⟩,
    fun s u st a r hr hw hc hst h => ?_, fun s l hr hw hc => step_runHost hr hw hc,
    fun _ _ => getElem?_labelIndex, fun prog l i hwf hi => ?_⟩
  · have ha : (if beq then HostStep.beq f v l else .bne f v l).access = some (.r32 0x00C#22) := by
      cases beq <;> exact congrArg (fun o => some (Access.r32 o)) hf
    rw [step_access hr hw hc ha (access_readStatus _), HostAgent.after_branch]
    rfl
  · rw [step_access hr hw hc rfl h, HostAgent.after_poll]
    rfl
  · rw [step_access hr hw hc rfl h, HostAgent.after_beq]
    rfl
  · rw [step_access hr hw hc rfl h, HostAgent.after_bne]
    rfl
  · obtain ⟨off, v, b, c, ⟨rfl, rfl⟩ | ⟨rfl, rfl⟩ | ⟨rfl, rfl⟩ | ⟨rfl, rfl⟩ | ⟨rfl, rfl⟩⟩ := hst
    all_goals exact step_goesOn hr hw hc rfl rfl h
  · exact labelIndex_unique (of_decide_eq_true (Bool.and_eq_true_iff.1 hwf).2) hi

end Sys2Proof.Machine
end

section
/-! SUPPORT. The commands of the bit packer and of the bit unpacker, each with all its cases, and the round trip of the
two (40_bitpacker.md R140 to R149). -/

namespace Sys2Proof.Machine

variable {s : State}

/-! ## How a command ends -/

theorem exec_of_ok {i : Instr} {u : State} (h : runOf i s = .ok u) :
    exec i s = .next (u.completed .noError 0#32) := by
  rw [exec_eq, h]
  rfl

theorem exec_of_raise {i : Instr} {u : State} {e : ErrCode} {x : Word} (h : runOf i s = .raise u e x) :
    exec i s = .next (u.completed e x) := by
  rw [exec_eq, h]
  rfl

/-! ## BP_PUT -/

theorem packedStream_length (s : State) : s.packedStream.length = s.packer.total := by
  simp [packedStream_eq]

/-- The state that a put which fits leaves, before the completion update (40_bitpacker.md R142). -/
def State.put (s : State) : State :=
  s.setPacked (pushBits (s.packer, s.outBuf) (msbBits s.bpValue s.bpNbits.toNat))

theorem runBpPut_badNbits (h : s.bpNbits.toNat = 0 ∨ 32 < s.bpNbits.toNat) :
    runBpPut s = .raise s .badNbits (s.bpNbits.setWidth 32) :=
  withNbits_bad h

theorem runBpPut_overflows (h1 : 1 ≤ s.bpNbits.toNat) (h32 : s.bpNbits.toNat ≤ 32)
    (h : s.cap < s.packer.dstLen.toNat + (s.packer.pend.toNat + s.bpNbits.toNat) / 8) :
    runBpPut s = .raise s .outOverflow s.capWord := by
  rw [runBpPut, withNbits_ok h1 h32]
  exact if_pos h

theorem runBpPut_fits (h1 : 1 ≤ s.bpNbits.toNat) (h32 : s.bpNbits.toNat ≤ 32)
    (h : s.packer.dstLen.toNat + (s.packer.pend.toNat + s.bpNbits.toNat) / 8 ≤ s.cap) :
    runBpPut s = .ok s.put := by
  rw [runBpPut, withNbits_ok h1 h32]
  exact if_neg (Nat.not_lt.2 h)

/-- A put that reports no error has a legal width, and the bytes it completes fit. -/
theorem runBpPut_noError (h : (runBpPut s).code = .noError) :
    1 ≤ s.bpNbits.toNat ∧ s.bpNbits.toNat ≤ 32 ∧
      s.packer.dstLen.toNat + (s.packer.pend.toNat + s.bpNbits.toNat) / 8 ≤ s.cap := by
  by_cases hn : s.bpNbits.toNat = 0 ∨ 32 < s.bpNbits.toNat
  · rw [runBpPut_badNbits hn] at h
    cases h
  · refine ⟨by omega, by omega, Nat.not_lt.1 fun hover => ?_⟩
    rw [runBpPut_overflows (by omega) (by omega) hover] at h
    cases h

/-- What a put that fits does to the packed stream, to the packer and to OUT_BUF: CAP is a word, so that DST_LEN does
not wrap. -/
theorem State.put_spec (hc : s.packer.clean)
    (h : s.packer.dstLen.toNat + (s.packer.pend.toNat + s.bpNbits.toNat) / 8 ≤ s.cap) :
    s.put.packedStream = s.packedStream ++ msbBits s.bpValue s.bpNbits.toNat ∧ s.put.packer.clean ∧
    s.put.packer.pad = s.packer.pad ∧
    ∀ a, a < s.packer.dstLen.toNat ∨ s.put.packer.dstLen.toNat ≤ a → s.put.outBuf.read a = s.outBuf.read a := by
  refine pushBits_spec _ s.packer s.outBuf hc ?_
  have hcap := s.cap_lt
  rw [msbBits_length, Packer.total]
  omega

/-- Settles O27: `runBpPut` by its three cases, and `State.put_spec` for the put that fits. -/
theorem bpPutAppendsBits : Obligations.BpPutAppendsBits := by
  refine ⟨rfl, fun s => ⟨fun hn => exec_of_raise (i := .bpPut) (runBpPut_badNbits hn),
    fun h1 h32 hover => exec_of_raise (i := .bpPut) (runBpPut_overflows h1 h32 hover), fun h1 h32 hfit hc => ?_⟩⟩
  obtain ⟨hstream, hclean, hpad, hframe⟩ := State.put_spec hc hfit
  refine ⟨_, exec_of_ok (i := .bpPut) (runBpPut_fits h1 h32 hfit), rfl, ?_, ?_, hpad, hclean, hframe⟩
  · exact hstream.trans (congrArg _ (msbBits_eq_map _ _))
  · have htotal := congrArg List.length hstream
    simp only [List.length_append, packedStream_length, msbBits_length] at htotal
    exact htotal

/-! ## BP_FLUSH -/

/-- The state that a flush of a pending byte leaves, before the completion update (40_bitpacker.md R143). -/
def State.flushed (s : State) : State :=
  s.setPacked
    ({ dstLen := s.packer.dstLen + 1, pend := 0#3, pad := BitVec.ofNat 3 (8 - s.packer.pend.toNat), acc := 0#8 },
     s.outBuf.write s.packer.dstLen.toNat s.packer.acc)

theorem runBpFlush_empty (h : s.packer.pend = 0#3) :
    runBpFlush s = .ok (s.setPacker { s.packer with pad := 0#3 }) :=
  if_pos h

theorem runBpFlush_overflows (hp : s.packer.pend ≠ 0#3) (h : s.cap < s.packer.dstLen.toNat + 1) :
    runBpFlush s = .raise s .outOverflow s.capWord :=
  (if_neg hp).trans (if_pos h)

theorem runBpFlush_fits (hp : s.packer.pend ≠ 0#3) (h : s.packer.dstLen.toNat + 1 ≤ s.cap) :
    runBpFlush s = .ok s.flushed :=
  (if_neg hp).trans (if_neg (Nat.not_lt.2 h))

theorem State.flushed_dstLen (h : s.packer.dstLen.toNat + 1 ≤ s.cap) :
    s.flushed.packer.dstLen.toNat = s.packer.dstLen.toNat + 1 := by
  have hcap := s.cap_lt
  exact (BitVec.toNat_add _ _).trans (Nat.mod_eq_of_lt (by simp; omega))

theorem State.flushed_pad (hp : s.packer.pend ≠ 0#3) : s.flushed.packer.pad.toNat = 8 - s.packer.pend.toNat := by
  have hpos : s.packer.pend.toNat ≠ 0 := BitVec.toNat_ne.1 hp
  exact (BitVec.toNat_ofNat _ _).trans (Nat.mod_eq_of_lt (by omega))

/-- Settles O28: `runBpFlush` by its three cases, with the fields of `State.flushed`. -/
theorem bpFlushPadsPendingByte : Obligations.BpFlushPadsPendingByte :=
  ⟨rfl, fun _ => ⟨fun h0 => exec_of_ok (i := .bpFlush) (runBpFlush_empty h0),
    fun hp hover => exec_of_raise (i := .bpFlush) (runBpFlush_overflows hp hover),
    fun hp hfit => ⟨_, exec_of_ok (i := .bpFlush) (runBpFlush_fits hp hfit), rfl, State.flushed_dstLen hfit, rfl, rfl,
      State.flushed_pad hp, fun _ => Memory.read_write _ _ _ _⟩⟩⟩

/-! ## The clears -/

/-- Settles O29: neither clear has a check, so each is its one assignment and the completion update. -/
theorem clearsAlwaysComplete : Obligations.ClearsAlwaysComplete :=
  ⟨rfl, rfl, fun _ => ⟨exec_of_ok (i := .bpClear) rfl, exec_of_ok (i := .buClear) rfl⟩⟩

/-! ## BU_GET -/

/-- The state that a get within the stream leaves, before the completion update (40_bitpacker.md R146). -/
def State.got (s : State) : State :=
  s.setUnpacked (BitVec.ofNat 32 (streamValue s.inBuf.read s.buPos.toNat s.buNbits.toNat))
    (BitVec.ofNat 32 (s.buPos.toNat + s.buNbits.toNat))

theorem runBuGet_badLen (h : s.params.inCap < s.srcLen.toNat) : runBuGet s = .raise s .badLen s.srcLen :=
  withLen_bad h

theorem runBuGet_badNbits (hlen : s.srcLen.toNat ≤ s.params.inCap)
    (h : s.buNbits.toNat = 0 ∨ 32 < s.buNbits.toNat) :
    runBuGet s = .raise s .badNbits (s.buNbits.setWidth 32) :=
  (withLen_ok hlen).trans (withNbits_bad h)

section
variable (hlen : s.srcLen.toNat ≤ s.params.inCap) (h1 : 1 ≤ s.buNbits.toNat) (h32 : s.buNbits.toNat ≤ 32)
include hlen h1 h32

theorem runBuGet_exhausted (h : 8 * s.srcLen.toNat < s.buPos.toNat + s.buNbits.toNat) :
    runBuGet s = .raise s .buExhausted s.buPos :=
  (withLen_ok hlen).trans ((withNbits_ok h1 h32).trans (if_pos h))

theorem runBuGet_within (h : s.buPos.toNat + s.buNbits.toNat ≤ 8 * s.srcLen.toNat) : runBuGet s = .ok s.got :=
  (withLen_ok hlen).trans ((withNbits_ok h1 h32).trans (if_neg (Nat.not_lt.2 h)))

end

/-- The cursor does not wrap: it is at most eight times a legal IN_CAP. -/
theorem State.got_buPos (hp : s.params.legal) (hlen : s.srcLen.toNat ≤ s.params.inCap)
    (h : s.buPos.toNat + s.buNbits.toNat ≤ 8 * s.srcLen.toNat) :
    s.got.buPos.toNat = s.buPos.toNat + s.buNbits.toNat := by
  obtain ⟨⟨-, hin⟩, -⟩ := hp
  exact (BitVec.toNat_ofNat _ _).trans (Nat.mod_eq_of_lt (by omega))

theorem streamValue_lt (buf : Nat → Byte) (q n : Nat) : streamValue buf q n < 2 ^ n := by
  have hlt := bitsValue_lt ((List.range n).map fun k => unpackBit buf (q + k))
  rwa [List.length_map, List.length_range] at hlt

/-- Stream bit `k` of the bits read has weight `2^(n-1-k)` in their value. -/
theorem streamValue_testBit (buf : Nat → Byte) {q n k : Nat} (hk : k < n) :
    (streamValue buf q n).testBit (n - 1 - k) = unpackBit buf (q + k) := by
  have hbit := bitsValue_testBit ((List.range n).map fun k => unpackBit buf (q + k)) k (by simpa using hk)
  simpa only [streamValue, List.length_map, List.length_range, List.getElem_map, List.getElem_range] using hbit

/-- The value of at most 32 bits fits BU_VALUE. -/
theorem State.got_buValue (h32 : s.buNbits.toNat ≤ 32) :
    s.got.buValue.toNat = streamValue s.inBuf.read s.buPos.toNat s.buNbits.toNat :=
  (BitVec.toNat_ofNat _ _).trans (Nat.mod_eq_of_lt
    ((streamValue_lt _ _ _).trans_le (Nat.pow_le_pow_right Nat.two_pos h32)))

/-- Settles O30: `runBuGet` by its four cases, and the bits of `streamValue` for the get that succeeds. -/
theorem buGetReadsStreamBits : Obligations.BuGetReadsStreamBits := by
  refine ⟨rfl, fun s hp => ⟨fun hlen => exec_of_raise (i := .buGet) (runBuGet_badLen hlen),
    fun hlen hn => exec_of_raise (i := .buGet) (runBuGet_badNbits hlen hn),
    fun hlen h1 h32 hq => exec_of_raise (i := .buGet) (runBuGet_exhausted hlen h1 h32 hq),
    fun hlen h1 h32 hq => ?_⟩⟩
  have hvalue := State.got_buValue h32
  refine ⟨_, exec_of_ok (i := .buGet) (runBuGet_within hlen h1 h32 hq), rfl, State.got_buPos hp hlen hq, ?_,
    fun k hk => ?_⟩
  · exact hvalue.trans_lt (streamValue_lt _ _ _)
  · rw [← BitVec.testBit_toNat]
    exact (congrArg (Nat.testBit · _) hvalue).trans (streamValue_testBit _ hk)

/-! ## Round trip: the packer's side -/

/-- The bits of a list of (value, width) pairs, each most significant first (40_bitpacker.md R149). -/
abbrev pairBits (vs : List (Word × BitVec 6)) : List Bool := vs.flatMap fun p => msbBits p.1 p.2.toNat

/-- A list of puts that succeed starts with a put of a legal width that fits. -/
theorem putAll_cons {v : Word} {n : BitVec 6} {vs : List (Word × BitVec 6)} {s' : State}
    (h : putAll ((v, n) :: vs) s = some s') :
    1 ≤ n.toNat ∧ n.toNat ≤ 32 ∧ s.packer.dstLen.toNat + (s.packer.pend.toNat + n.toNat) / 8 ≤ s.cap ∧
      putAll vs ({ s with bpValue := v, bpNbits := n }.put.completed .noError 0#32) = some s' := by
  simp only [putAll, exec_eq, runOf] at h
  split at h
  · next hcode =>
    obtain ⟨h1, h32, hfit⟩ := runBpPut_noError hcode
    rw [runBpPut_fits h1 h32 hfit] at h
    exact ⟨h1, h32, hfit, h⟩
  · cases h

/-- Puts that all succeed append their bits to the packed stream. -/
theorem putAll_spec : ∀ (vs : List (Word × BitVec 6)) (s s' : State), s.packer.clean → putAll vs s = some s' →
    s'.packedStream = s.packedStream ++ pairBits vs ∧ s'.packer.clean ∧ ∀ p ∈ vs, 1 ≤ p.2.toNat ∧ p.2.toNat ≤ 32
  | [], s, s', hc, h => by
    obtain rfl : s = s' := Option.some.inj h
    exact ⟨(List.append_nil _).symm, hc, nofun⟩
  | (v, n) :: vs, s, s', hc, h => by
    obtain ⟨h1, h32, hfit, hrest⟩ := putAll_cons h
    obtain ⟨hput, hclean, -, -⟩ := State.put_spec (s := { s with bpValue := v, bpNbits := n }) hc hfit
    obtain ⟨hstream, hclean', hwidths⟩ := putAll_spec vs _ s' (by exact hclean) hrest
    refine ⟨?_, hclean', List.forall_mem_cons.2 ⟨⟨h1, h32⟩, hwidths⟩⟩
    calc s'.packedStream
        = (s.packedStream ++ msbBits v n.toNat) ++ pairBits vs := hstream.trans (congrArg (· ++ _) hput)
      _ = s.packedStream ++ pairBits ((v, n) :: vs) := List.append_assoc _ _ _

/-- The bits of ACC are the pending bits and then the padding zeros of R143. -/
theorem byteBits_acc {p : Packer} (hc : p.clean) :
    byteBits p.acc = p.pendingBits ++ List.replicate (8 - p.pend.toNat) false := by
  have hp := p.pend.isLt
  refine List.ext_getElem (by simp; omega) fun i hi _ => ?_
  rw [byteBits_length] at hi
  rcases Nat.lt_or_ge i p.pend.toNat with hlt | hge
  · rw [List.getElem_append_left (by simpa using hlt)]
    simp [byteBits, Packer.pendingBits]
  · rw [List.getElem_append_right (by simpa using hge)]
    simp [byteBits, hc (7 - i) (by omega)]

theorem padcount_packedStream (s : State) : padcount s.packedStream = (8 - s.packer.pend.toNat) % 8 := by
  rw [padcount, packedStream_length, ← Packer.pend_eq]

/-- The bytes in OUT_BUF after a flush of a pending byte hold the packed stream and the padding zeros. -/
theorem State.flushed_streamBits (hc : s.packer.clean) (h : s.packer.dstLen.toNat + 1 ≤ s.cap) :
    streamBits (s.flushed.outBuf.bytes s.flushed.packer.dstLen.toNat) =
      s.packedStream ++ List.replicate (8 - s.packer.pend.toNat) false := by
  have hkept : s.flushed.outBuf.bytes s.packer.dstLen.toNat = s.outBuf.bytes s.packer.dstLen.toNat :=
    Memory.bytes_congr _ _ _ fun i hi => Memory.read_write_other _ _ _ _ (by omega)
  have hlast : s.flushed.outBuf.read s.packer.dstLen.toNat = s.packer.acc := Memory.read_write_same _ _ _
  rw [State.flushed_dstLen h, Memory.bytes_succ, streamBits_snoc, hkept, hlast, byteBits_acc hc, State.packedStream,
    List.append_assoc]

/-- A flush that succeeds leaves the packed stream, with its padding, in OUT_BUF and the padding's length in PAD. -/
theorem runBpFlush_packs (hc : s.packer.clean) (h : (runBpFlush s).code = .noError) :
    (runBpFlush s).st.outBuf.bytes (runBpFlush s).st.packer.dstLen.toNat = pack s.packedStream ∧
      (runBpFlush s).st.packer.pad.toNat = padcount s.packedStream := by
  by_cases h0 : s.packer.pend = 0#3
  · have hstream : s.packedStream = streamBits (s.outBuf.bytes s.packer.dstLen.toNat) := by
      simp [State.packedStream, Packer.pendingBits, h0]
    have hpad : padcount s.packedStream = 0 := by
      rw [padcount_packedStream, h0]
      rfl
    rw [runBpFlush_empty h0, hpad]
    refine ⟨eq_pack_of_streamBits _ _ ?_, rfl⟩
    rw [hpad, List.replicate_zero, List.append_nil]
    exact hstream.symm
  · have hfit : s.packer.dstLen.toNat + 1 ≤ s.cap := Nat.not_lt.1 fun hover => by
      rw [runBpFlush_overflows h0 hover] at h
      cases h
    have hpos : s.packer.pend.toNat ≠ 0 := BitVec.toNat_ne.1 h0
    have hpad : padcount s.packedStream = 8 - s.packer.pend.toNat :=
      (padcount_packedStream s).trans (Nat.mod_eq_of_lt (by omega))
    rw [runBpFlush_fits h0 hfit, CmdResult.ok_st, State.flushed_pad h0, hpad]
    refine ⟨eq_pack_of_streamBits _ _ ?_, rfl⟩
    rw [State.flushed_streamBits hc hfit, hpad]

/-! ## Round trip: the unpacker's side -/

/-- The stream bits of `IN[0..SRC_LEN)` that the cursor has not passed (40_bitpacker.md R145). -/
def State.unread (s : State) : List Bool := (streamBits (s.inBuf.bytes s.srcLen.toNat)).drop s.buPos.toNat

@[simp] theorem State.unread_length (s : State) : s.unread.length = 8 * s.srcLen.toNat - s.buPos.toNat := by
  simp [State.unread]

/-- The value of the next bits of a buffer is the value of the first unread bits. -/
theorem streamValue_eq_unread {n : Nat} (h : n ≤ s.unread.length) :
    streamValue s.inBuf.read s.buPos.toNat n = bitsValue (s.unread.take n) := by
  refine congrArg bitsValue (List.ext_getElem (by simpa using h) fun k _ _ => ?_)
  simp only [List.getElem_map, List.getElem_range, List.getElem_take, State.unread, List.getElem_drop,
    streamBits_bytes_getElem]

/-- A get of a legal width whose bits come next reads their value and leaves the bits after them. -/
theorem State.got_spec {v : Word} {rest : List Bool} (hp : s.params.legal) (hlen : s.srcLen.toNat ≤ s.params.inCap)
    (h1 : 1 ≤ s.buNbits.toNat) (h32 : s.buNbits.toNat ≤ 32)
    (h : s.unread = msbBits v s.buNbits.toNat ++ rest) :
    exec .buGet s = .next (s.got.completed .noError 0#32) ∧
      s.got.buValue.toNat = v.toNat % 2 ^ s.buNbits.toNat ∧ s.got.unread = rest := by
  have hunread : s.buNbits.toNat ≤ s.unread.length := by simp [h]
  have hq : s.buPos.toNat + s.buNbits.toNat ≤ 8 * s.srcLen.toNat := by
    rw [State.unread_length] at hunread
    omega
  refine ⟨exec_of_ok (i := .buGet) (runBuGet_within hlen h1 h32 hq), ?_, ?_⟩
  · rw [State.got_buValue h32, streamValue_eq_unread hunread, h, List.take_left' (msbBits_length _ _),
      bitsValue_msbBits]
  · calc s.got.unread
        = (streamBits (s.inBuf.bytes s.srcLen.toNat)).drop (s.buPos.toNat + s.buNbits.toNat) :=
          congrArg (List.drop · _) (State.got_buPos hp hlen hq)
      _ = s.unread.drop s.buNbits.toNat := List.drop_drop.symm
      _ = rest := by rw [h, List.drop_left' (msbBits_length _ _)]

/-- A get that succeeds, then gets that all succeed. -/
theorem getAll_cons {n : BitVec 6} {ns : List (BitVec 6)} {t u : State} {ws : List Word}
    (h : exec .buGet { s with buNbits := n } = .next (t.completed .noError 0#32))
    (hns : getAll ns (t.completed .noError 0#32) = some (ws, u)) :
    getAll (n :: ns) s = some (t.buValue :: ws, u) := by
  simp [getAll, h, hns]

/-- Gets of the widths of a list of pairs whose bits come next read the values, and leave the bits after them. -/
theorem getAll_spec : ∀ (vs : List (Word × BitVec 6)) (s : State) (rest : List Bool), s.params.legal →
    s.srcLen.toNat ≤ s.params.inCap → (∀ p ∈ vs, 1 ≤ p.2.toNat ∧ p.2.toNat ≤ 32) →
    s.unread = pairBits vs ++ rest →
    ∃ u ws, getAll (vs.map fun p => p.2) s = some (ws, u) ∧
      ws.map BitVec.toNat = vs.map (fun p => p.1.toNat % 2 ^ p.2.toNat) ∧
      u.unread = rest ∧ u.srcLen = s.srcLen ∧ u.params = s.params
  | [], s, _, _, _, _, h => ⟨s, [], rfl, rfl, h, rfl, rfl⟩
  | (v, n) :: vs, s, rest, hp, hlen, hw, h => by
    obtain ⟨⟨h1, h32⟩, hw'⟩ := List.forall_mem_cons.1 hw
    obtain ⟨hexec, hvalue, hunread⟩ := State.got_spec (s := { s with buNbits := n }) hp hlen h1 h32
      (h.trans (List.append_assoc _ _ _))
    obtain ⟨u, ws, hget, hws, hrest, hsrc, hparams⟩ :=
      getAll_spec vs ({ s with buNbits := n }.got.completed .noError 0#32) rest hp hlen hw' hunread
    exact ⟨u, _, getAll_cons hexec hget, congrArg₂ List.cons hvalue hws, hrest, hsrc, hparams⟩

/-- Settles O31: the puts append `bits` (`putAll_spec`), the flush packs them (`runBpFlush_packs`), the stream of the
packed bytes is `bits` and the padding (`streamBits_pack`), of which the gets take `bits` (`getAll_spec`), so that PAD
bits are left to read. -/
theorem packedValuesUnpack : Obligations.PackedValuesUnpack := by
  intro vs s s' t hdst hpend hacc hput hflush hok
  obtain ⟨hstream, hclean, hwidths⟩ := putAll_spec vs s s' (Packer.clean_of_acc hacc) hput
  have hempty : s.packedStream = [] := by simp [State.packedStream, Packer.pendingBits, hdst, hpend, Memory.bytes]
  rw [hempty, List.nil_append] at hstream
  obtain rfl := exec_next hflush
  obtain ⟨hbytes, hpad⟩ := runBpFlush_packs hclean hok
  rw [hstream] at hbytes hpad
  refine ⟨hbytes, hpad, fun u hp hsrc hlen hpos hin => ?_⟩
  have hunread : u.unread = pairBits vs ++ List.replicate (padcount (pairBits vs)) false := by
    rw [State.unread, hin, hpos]
    exact (congrArg streamBits hbytes).trans (streamBits_pack _)
  obtain ⟨u', ws, hget, hws, hrest, hsrc', hparams⟩ := getAll_spec vs u _ hp hlen hwidths hunread
  refine ⟨u', ws, hget, hws, fun n hn h32 => exec_of_raise (i := .buGet) (runBuGet_exhausted ?_ ?_ h32 ?_)⟩
  · exact hsrc' ▸ hparams ▸ hlen
  · exact Nat.one_le_of_lt hn
  · have hwide : u'.unread.length < n.toNat := by
      rw [hrest, List.length_replicate, ← hpad]
      exact hn
    rw [State.unread_length] at hwide
    exact lt_add_of_tsub_lt_left hwide

end Sys2Proof.Machine
end

section
/-! SUPPORT. The run detector and the RLE encoder as commands, and the shape of an RLE stream (41_rle.md R171 to
R176). -/

namespace Sys2Proof.Machine

variable {s : State}

/-! ## The run at a position -/

theorem Memory.bytes_getElem? (m : Memory) {n i : Nat} (h : i < n) : (m.bytes n)[i]? = some (m.read i) := by
  simp [Memory.bytes, h]

/-- R171 in positions: `r` bytes from `p` on, at most 255, lie inside the input and equal the first of them, and one
more would not. -/
structure IsMaximalRun (inp : List Byte) (p r : Nat) : Prop where
  pos : 1 ≤ r
  le_max : r ≤ 255
  le_length : p + r ≤ inp.length
  same : ∀ i, i < r → inp[p + i]? = inp[p]?
  maximal : r = 255 ∨ inp[p + r]? ≠ inp[p]?

theorem runCount_isMaximalRun {inp : List Byte} {p : Nat} (h : p < inp.length) :
    IsMaximalRun inp p (runCount inp[p] (inp.drop (p + 1))) := by
  obtain ⟨hpos, hle_max, hsplit, hmax⟩ := runCount_spec inp[p] (inp.drop (p + 1))
  have hle := runCount_le inp[p] (inp.drop (p + 1))
  rw [List.length_drop] at hle
  rw [← List.drop_eq_getElem_cons h] at hsplit
  refine ⟨hpos, hle_max, by omega, fun i hi => ?_, hmax.imp_right fun hne => ?_⟩
  · rw [← List.getElem?_drop, hsplit, List.getElem?_append_left (by simpa using hi),
      List.getElem?_replicate_of_lt hi, List.getElem?_eq_getElem h]
  · rwa [← List.getElem?_drop, hsplit, List.getElem?_append_right (by simp), List.length_replicate, Nat.sub_self,
      ← List.head?_eq_getElem?, List.getElem?_eq_getElem h]

/-- A maximal run of the first `n` bytes of a buffer, in reads of the buffer. -/
theorem IsMaximalRun.reads {m : Memory} {n p r : Nat} (h : IsMaximalRun (m.bytes n) p r) :
    1 ≤ r ∧ p + r ≤ n ∧ (∀ i, i < r → m.read (p + i) = m.read p) ∧
    (r = 255 ∨ p + r = n ∨ m.read (p + r) ≠ m.read p) := by
  obtain ⟨hpos, -, hle, hsame, hmax⟩ := h
  rw [Memory.bytes_length] at hle
  have hp : (m.bytes n)[p]? = some (m.read p) := m.bytes_getElem? (by omega)
  refine ⟨hpos, hle, fun i hi => ?_, hmax.imp_right fun hne => or_iff_not_imp_left.2 fun hend heq => hne ?_⟩
  · exact Option.some.inj ((m.bytes_getElem? (by omega)).symm.trans ((hsame i hi).trans hp))
  · rw [hp, m.bytes_getElem? (by omega), heq]

/-! ## RLE_RUN -/

theorem runRleRun_badLen (h : s.params.inCap < s.srcLen.toNat) : runRleRun s = .raise s .badLen s.srcLen :=
  withLen_bad h

section
variable (hlen : s.srcLen.toNat ≤ s.params.inCap)
include hlen

theorem runRleRun_badPos (h : s.srcLen.toNat ≤ s.pos.toNat) : runRleRun s = .raise s .badPos s.pos :=
  (withLen_ok hlen).trans (withPos_bad h)

theorem runRleRun_within (h : s.pos.toNat < s.srcLen.toNat) :
    runRleRun s = .ok { s with runReg := runAt s.input s.pos.toNat } :=
  (withLen_ok hlen).trans (withPos_ok h)

end

theorem runAt_isMaximalRun {inp : List Byte} {p : Nat} (h : p < inp.length) :
    IsMaximalRun inp p (runAt inp p).count.toNat := by
  rw [runAt_eq h, runCount_byte]
  exact runCount_isMaximalRun h

theorem runAt_value (m : Memory) {n p : Nat} (h : p < n) : (runAt (m.bytes n) p).value = m.read p := by
  rw [runAt_eq (by simpa using h), Memory.bytes_getElem]

/-- Settles O32: `runRleRun` by its three cases, and a maximal run in the fields of RUN for a position within bounds. -/
theorem rleRunFindsMaximalRun : Obligations.RleRunFindsMaximalRun := by
  refine ⟨rfl, fun s => ⟨fun hlen => exec_of_raise (i := .rleRun) (runRleRun_badLen hlen),
    fun hlen hp => exec_of_raise (i := .rleRun) (runRleRun_badPos hlen hp), fun hlen hp => ?_⟩⟩
  have hvalue := runAt_value s.inBuf hp
  have hinput : s.pos.toNat < s.input.length := hp.trans_eq (Memory.bytes_length _ _).symm
  have hrun := (runAt_isMaximalRun hinput).reads
  rw [← hvalue] at hrun
  exact ⟨_, exec_of_ok (i := .rleRun) (runRleRun_within hlen hp), rfl, hvalue, hrun⟩

/-! ## The stream -/

/-- Settles O33: the run at the front by `runCount_spec`, the turn of the loop by `rleEncode_cons`. -/
theorem rleEncodeEmitsRunsInOrder : Obligations.RleEncodeEmitsRunsInOrder := by
  refine ⟨rleEncode_nil, fun v rest => ?_⟩
  obtain ⟨hpos, hle, hsplit, hmax⟩ := runCount_spec v rest
  exact ⟨runCount v rest, _, hpos, hle, hsplit, hmax, rleEncode_cons v rest⟩

theorem rleRecordsOf_rleEncode_cons (v : Byte) (rest : List Byte) :
    rleRecordsOf (rleEncode (v :: rest)) =
      (BitVec.ofNat 8 (runCount v rest), v) :: rleRecordsOf (rleEncode (rest.drop (runCount v rest - 1))) := by
  rw [rleEncode_cons, rleRecordsOf]

/-- Two bytes a record (R172). -/
theorem rleEncode_length (inp : List Byte) :
    (rleEncode inp).length = 2 * (rleRecordsOf (rleEncode inp)).length := by
  induction inp using rle_induction with
  | nil => rfl
  | run v rest ih =>
    rw [rleRecordsOf_rleEncode_cons, rleEncode_cons]
    simp only [List.length_cons, ih]
    omega

theorem rleRecordsOf_count_pos (inp : List Byte) : ∀ r ∈ rleRecordsOf (rleEncode inp), 1 ≤ r.1.toNat := by
  induction inp using rle_induction with
  | nil => exact List.forall_mem_nil _
  | run v rest ih =>
    rw [rleRecordsOf_rleEncode_cons, List.forall_mem_cons, runCount_byte]
    exact ⟨(runCount_spec v rest).1, ih⟩

/-- A run of fewer than 255 bytes ends before a different byte, the value of the next record. -/
theorem rleRecordsOf_chain (inp : List Byte) :
    (rleRecordsOf (rleEncode inp)).IsChain (fun r q => r.2 = q.2 → r.1 = 255#8) := by
  induction inp using rle_induction with
  | nil => exact .nil
  | run v rest ih =>
    rw [rleRecordsOf_rleEncode_cons, List.isChain_cons]
    refine ⟨fun q hq heq => ?_, ih⟩
    have hhead : (rest.drop (runCount v rest - 1)).head? = some v := by
      rw [← rleRecordsOf_head, hq, Option.map_some, ← heq]
    obtain ⟨-, -, -, hfull | hne⟩ := runCount_spec v rest
    · simp [hfull]
    · exact absurd hhead hne

theorem rleRecordsOf_sum (inp : List Byte) :
    ((rleRecordsOf (rleEncode inp)).map (fun r => r.1.toNat)).sum = inp.length := by
  induction inp using rle_induction with
  | nil => rfl
  | run v rest ih =>
    rw [rleRecordsOf_rleEncode_cons, List.map_cons, List.sum_cons, ih, runCount_byte, List.length_drop,
      List.length_cons]
    have hpos := (runCount_spec v rest).1
    have hle := runCount_le v rest
    omega

/-- Every record stands for at least one byte of the input (R174). -/
theorem rleRecordsOf_length_le (inp : List Byte) : (rleRecordsOf (rleEncode inp)).length ≤ inp.length := by
  rw [← rleRecordsOf_sum inp]
  simpa using List.length_le_sum_of_one_le ((rleRecordsOf (rleEncode inp)).map fun r => r.1.toNat)
    (List.forall_mem_map.2 (rleRecordsOf_count_pos inp))

/-- Settles O34, from one lemma a clause; the bound is that of `rleRecordsOf_length_le`, doubled. -/
theorem rleStreamShape : Obligations.RleStreamShape := fun inp =>
  ⟨rleEncode_length inp, (rleEncode_length inp).trans_le (Nat.mul_le_mul_left 2 (rleRecordsOf_length_le inp)),
    rleRecordsOf_count_pos inp, rleRecordsOf_chain inp, rleRecordsOf_sum inp⟩

/-! ## RLE_ENC -/

theorem Packer.at_dstLen {n : Nat} (pad : Nat) (h : n < 2 ^ 32) : (Packer.at n pad).dstLen.toNat = n :=
  (BitVec.toNat_ofNat _ _).trans (Nat.mod_eq_of_lt h)

theorem runRleEnc_badLen (h : s.params.inCap < s.srcLen.toNat) : runRleEnc s = .raise s .badLen s.srcLen :=
  withLen_bad h

section
variable (hlen : s.srcLen.toNat ≤ s.params.inCap)
include hlen

theorem runRleEnc_fits (h : (rleEncode s.input).length ≤ s.cap) :
    runRleEnc s =
      .ok (s.setPacked (Packer.at (rleEncode s.input).length 0, s.outBuf.writeBytes 0 (rleEncode s.input))) :=
  (withLen_ok hlen).trans (emit_fits h)

theorem runRleEnc_overflows (h : s.cap < (rleEncode s.input).length) :
    runRleEnc s = .raise ((s.forgetOut s.cap).setPacker (Packer.at 0 0)) .outOverflow s.capWord :=
  (withLen_ok hlen).trans (emit_overflows h)

end

/-- Settles O36: `runRleEnc` by its three cases. CAP is a word, so that DST_LEN holds the length of an output that
fits; an output that does not leaves OUT_BUF as it was from CAP on. -/
theorem rleEncEmitsStream : Obligations.RleEncEmitsStream :=
  ⟨rfl, fun s => ⟨fun hlen => exec_of_raise (i := .rleEnc) (runRleEnc_badLen hlen),
    fun hlen hfit => ⟨_, exec_of_ok (i := .rleEnc) (runRleEnc_fits hlen hfit), rfl,
      Packer.at_dstLen 0 (Nat.lt_of_le_of_lt hfit s.cap_lt), rfl, rfl, rfl, writeBytes_zero_read s.outBuf _⟩,
    fun hlen hover => ⟨_, exec_of_raise (i := .rleEnc) (runRleEnc_overflows hlen hover), rfl,
      Memory.read_forget_ge s.outBuf s.cap s.draws⟩⟩⟩

end Sys2Proof.Machine
end

section
/-! SUPPORT. The tree construction merge by merge, and what follows for the codes: their bounds, that none begins
another, and that of two the more frequent byte's is no longer (42_huffman.md R193 to R197, R203). -/

namespace Sys2Proof.Machine

/-! ## The least node -/

/-- Among nodes with different keys the order of R193 is total: the one that the other does not precede comes first. -/
theorem PoolNode.precedes_of_not_before {a b : PoolNode} (h : b.before a = false) (hkey : a.key ≠ b.key) :
    a.weight < b.weight ∨ a.weight = b.weight ∧ a.key < b.key := by
  rw [Bool.eq_false_iff, Ne, PoolNode.before_iff] at h
  omega

/-- With distinct keys, the node taken out precedes every node of the rest (R193). -/
theorem takeLeast_precedes {x : PoolNode} {pool : List PoolNode}
    (hkeys : ((x :: pool).map fun n => n.key).Nodup) : ∀ y ∈ (takeLeast x pool).2,
    (takeLeast x pool).1.weight < y.weight ∨
      (takeLeast x pool).1.weight = y.weight ∧ (takeLeast x pool).1.key < y.key := by
  intro y hy
  have hnodup := (((takeLeast_perm pool x).map fun n => n.key).nodup_iff).2 hkeys
  refine PoolNode.precedes_of_not_before (takeLeast_least pool x y hy) fun heq => ?_
  exact (List.nodup_cons.1 hnodup).1 (List.mem_map.2 ⟨y, hy, heq.symm⟩)

/-! ## One merge -/

/-- With distinct keys, a merge joins the least node and the least of the rest (R194). -/
theorem mergeOnce_joins_least (m : Nat) {pool : List PoolNode} (hlen : 2 ≤ pool.length)
    (hkeys : (pool.map fun n => n.key).Nodup) : ∃ a b rest, (a :: b :: rest).Perm pool ∧
      (∀ y ∈ b :: rest, a.weight < y.weight ∨ a.weight = y.weight ∧ a.key < y.key) ∧
      (∀ y ∈ rest, b.weight < y.weight ∨ b.weight = y.weight ∧ b.key < y.key) ∧
      mergeOnce m pool = mergeNode m a b :: rest := by
  obtain ⟨a, b, rest, hmerge, hperm, hba, hrest⟩ := mergeOnce_spec m pool hlen
  have hnodup := ((hperm.map fun n => n.key).nodup_iff).2 hkeys
  obtain ⟨ha, hnodup⟩ := List.nodup_cons.1 hnodup
  obtain ⟨hb, -⟩ := List.nodup_cons.1 hnodup
  refine ⟨a, b, rest, hperm, fun y hy => ?_, fun y hy => ?_, hmerge⟩
  · refine PoolNode.precedes_of_not_before ?_ fun heq => ha (List.mem_map.2 ⟨y, hy, heq.symm⟩)
    obtain rfl | hy := List.mem_cons.1 hy
    · exact hba
    · exact (hrest y hy).1
  · exact PoolNode.precedes_of_not_before (hrest y hy).2 fun heq => hb (List.mem_map.2 ⟨y, hy, heq.symm⟩)

/-- What the merges keep before merge number `m`, with `k` nodes in the pool: distinct keys, all below the key that the
merge gives its node (R193). -/
structure PoolReady (m k : Nat) (pool : List PoolNode) : Prop where
  length : pool.length = k
  keys : (pool.map fun n => n.key).Nodup
  keys_lt : ∀ n ∈ pool, n.key < 256 + m

theorem PoolReady.merged {m k : Nat} {pool : List PoolNode} (h : PoolReady m (k + 1) pool) (hk : 1 ≤ k) :
    PoolReady (m + 1) k (mergeOnce m pool) := by
  obtain ⟨hlen, hkeys, hlt⟩ := h
  obtain ⟨a, b, rest, hmerge, hperm, -, -⟩ := mergeOnce_spec m pool (by omega)
  have hnodup := ((hperm.map fun n => n.key).nodup_iff).2 hkeys
  have hrest : ∀ n ∈ rest, n.key < 256 + m := fun n hn => hlt n (hperm.subset (by simp [hn]))
  rw [hmerge]
  refine ⟨?_, List.nodup_cons.2 ⟨fun hmem => ?_, hnodup.of_cons.of_cons⟩, List.forall_mem_cons.2 ⟨?_, fun n hn => ?_⟩⟩
  · have hlen' := hperm.length_eq
    simp only [List.length_cons] at hlen' ⊢
    omega
  · obtain ⟨n, hn, hkey⟩ := List.mem_map.1 hmem
    exact (hrest n hn).ne hkey
  · exact Nat.lt_succ_self (256 + m)
  · exact (hrest n hn).trans (Nat.lt_succ_self _)

/-! ## All merges -/

/-- The pool of the tree construction after `m` merges (R194). -/
def poolAfter (F : Byte → Nat) : Nat → List PoolNode
  | 0 => leavesOf F
  | m + 1 => mergeOnce m (poolAfter F m)

/-- The model's loop makes these merges. -/
theorem mergeLoop_poolAfter (F : Byte → Nat) : ∀ k m : Nat, mergeLoop k m (poolAfter F m) = poolAfter F (m + k)
  | 0, _ => rfl
  | k + 1, m => by
    have ih := mergeLoop_poolAfter F k (m + 1)
    rwa [Nat.add_right_comm] at ih

theorem buildTree_eq_poolAfter (F : Byte → Nat) :
    buildTree F = ((poolAfter F ((symbols F).length - 1)).head?).map fun n => n.tree := by
  have hloop := mergeLoop_poolAfter F ((symbols F).length - 1) 0
  rw [Nat.zero_add] at hloop
  rw [← hloop]
  rfl

theorem leavesOf_ready (F : Byte → Nat) : PoolReady 0 (symbols F).length (leavesOf F) where
  length := by simp [leavesOf]
  keys := by
    rw [leavesOf, List.map_map]
    exact (symbols_nodup F).map fun _ _ => BitVec.eq_of_toNat_eq
  keys_lt n hn := by
    obtain ⟨s, -, rfl⟩ := mem_leavesOf.1 hn
    exact s.isLt

theorem poolAfter_ready {F : Byte → Nat} : ∀ {m : Nat}, m < (symbols F).length →
    PoolReady m ((symbols F).length - m) (poolAfter F m)
  | 0, _ => leavesOf_ready F
  | m + 1, h => by
    have ih := poolAfter_ready (F := F) (m := m) (by omega)
    rw [show (symbols F).length - m = (symbols F).length - (m + 1) + 1 by omega] at ih
    exact ih.merged (by omega)

/-- One node is left, whose tree is the tree of the construction and holds the codes as its paths (R194, R197). -/
theorem poolAfter_root {F : Byte → Nat} (h : 2 ≤ (symbols F).length) :
    ∃ root : PoolNode, poolAfter F ((symbols F).length - 1) = [root] ∧ buildTree F = some root.tree ∧
      ∀ s ∈ symbols F, root.tree.path s = some (codeTable F s) := by
  have hready := poolAfter_ready (F := F) (m := (symbols F).length - 1) (by omega)
  obtain ⟨root, hroot⟩ := List.length_eq_one_iff.1 (hready.length.trans (by omega))
  have htree : buildTree F = some root.tree := by rw [buildTree_eq_poolAfter, hroot]; rfl
  obtain ⟨t, ht, -, hpath, -, -⟩ := buildTree_spec F h
  obtain rfl := Option.some.inj (ht.symm.trans htree)
  exact ⟨root, hroot, htree, hpath⟩

/-! ## Paths -/

theorem HufTree.path_node_left {l : HufTree} {s : Byte} {c : List Bool} (r : HufTree) (h : l.path s = some c) :
    (HufTree.node l r).path s = some (false :: c) := by
  simp [path, h]

theorem HufTree.path_node_right {l r : HufTree} {s : Byte} {c : List Bool} (hl : l.path s = none)
    (h : r.path s = some c) : (HufTree.node l r).path s = some (true :: c) := by
  simp [path, hl, h]

/-- Settles O38: the least node by `takeLeast_precedes`, a merge by `mergeOnce_joins_least`, all merges by `poolAfter`,
and paths by the equations of `HufTree.path`. -/
theorem takeLeastRemovesMinimum : Obligations.TakeLeastRemovesMinimum := by
  refine ⟨fun x pool hkeys => ⟨takeLeast_perm pool x, takeLeast_precedes hkeys⟩,
    fun m pool hlen hkeys => mergeOnce_joins_least m hlen hkeys, fun F h => ?_, fun _ _ => rfl,
    fun l r _ _ hl => HufTree.path_node_left r hl, fun l r _ _ hl hr => HufTree.path_node_right hl hr⟩
  obtain ⟨root, hroot, htree, hpath⟩ := poolAfter_root h
  refine ⟨poolAfter F, root, rfl, fun m hm => ?_, hroot, htree, hpath⟩
  have hready := poolAfter_ready (F := F) (m := m) (by omega)
  exact ⟨hready.keys, hready.length, rfl⟩

/-! ## The codes of an input -/

theorem mem_symbols_freqOf {inp : List Byte} {b : Byte} : b ∈ symbols (freqOf inp) ↔ b ∈ inp :=
  mem_symbols.trans freqOf_pos

/-- With two or more symbols a code has one bit fewer than there are symbols, at most (R197). -/
theorem codeTable_length_lt {F : Byte → Nat} {b : Byte} (h : 2 ≤ (symbols F).length) (hb : b ∈ symbols F) :
    (codeTable F b).length < (symbols F).length := by
  obtain ⟨t, -, hleaves, hpath, -, -⟩ := buildTree_spec F h
  exact (t.path_length_lt b _ (hpath b hb)).trans_eq hleaves.length_eq

/-- Settles O39: no code by `codeTable_of_not_mem`, the one-symbol code by `codeTable_of_one`, and the bounds of a path
for more symbols. -/
theorem codeLengthBounds : Obligations.CodeLengthBounds := by
  intro inp b
  rw [← symbols_freqOf_length, ← mem_symbols_freqOf]
  refine ⟨codeTable_of_not_mem, fun hb hone => ?_, fun hb hmany =>
    ⟨(codeTable_length_bounds hb).1, Nat.le_sub_one_of_lt (codeTable_length_lt hmany hb)⟩⟩
  obtain ⟨s0, hs0⟩ := List.length_eq_one_iff.1 hone
  rw [hs0, List.mem_singleton] at hb
  rw [codeTable_of_one hs0, if_pos hb]

/-- Two different symbols are the case in which `buildTree_spec` gives a tree. -/
theorem two_le_symbols_length {F : Byte → Nat} {a b : Byte} (ha : a ∈ symbols F) (hb : b ∈ symbols F) (hab : a ≠ b) :
    2 ≤ (symbols F).length := by
  have hnodup : [a, b].Nodup := by simp [hab]
  have hsub : [a, b] ⊆ symbols F := List.forall_mem_cons.2 ⟨ha, List.forall_mem_singleton.2 hb⟩
  exact (hnodup.subperm hsub).length_le

/-- A path that begins another ends at the same leaf: a walk along the longer one stops where the shorter one ends. -/
theorem HufTree.eq_of_path_isPrefix {t : HufTree} {a b : Byte} {c d : List Bool} (ha : t.path a = some c)
    (hb : t.path b = some d) (h : c <+: d) : a = b := by
  obtain ⟨rest, rfl⟩ := h
  have hwalk := walkSymbol_path t b _ [] hb
  rw [List.append_nil, walkSymbol_path t a c rest ha] at hwalk
  exact congrArg Prod.fst (Option.some.inj hwalk)

/-- Settles O40: two symbols make a tree, in which a path begins no other (`HufTree.eq_of_path_isPrefix`). -/
theorem codesArePrefixFree : Obligations.CodesArePrefixFree := by
  intro inp a b ha hb hab hbegins
  rw [← mem_symbols_freqOf] at ha hb
  obtain ⟨t, -, -, hpath, -, -⟩ := buildTree_spec _ (two_le_symbols_length ha hb hab)
  exact hab (HufTree.eq_of_path_isPrefix (hpath a ha) (hpath b hb) hbegins)

/-- Settles O41: the lighter of two symbols lies at least as deep, the last clause of `buildTree_spec`. -/
theorem frequentBytesHaveShorterCodes : Obligations.FrequentBytesHaveShorterCodes := by
  intro inp a b hb hcount
  have ha : a ∈ inp := List.count_pos_iff.1 (Nat.zero_lt_of_lt hcount)
  have hab : a ≠ b := by
    rintro rfl
    exact hcount.ne rfl
  rw [← mem_symbols_freqOf] at ha hb
  obtain ⟨t, -, -, -, -, hskew⟩ := buildTree_spec _ (two_le_symbols_length ha hb hab)
  exact hskew a ha b hb hcount

end Sys2Proof.Machine
end

section
/-! SUPPORT. The layout of the Huffman stream, field by field, and HUF_ENC as a command with its table update
(42_huffman.md R199 to R202, R205, R206). -/

namespace Sys2Proof.Machine

/-! ## Fields and entries -/

/-- Byte `i` of a 16-bit big-endian field (00_scope.md R11). -/
theorem be16_getElem? (v : Nat) {i : Nat} (h : i < 2) :
    (be16 v)[i]? = some (BitVec.ofNat 8 (v / 2 ^ (8 * (1 - i)))) := by
  obtain rfl | rfl : i = 0 ∨ i = 1 := by omega
  all_goals simp [be16]

/-- Byte `i` of a 32-bit big-endian field (00_scope.md R11). -/
theorem be32_getElem? (v : Nat) {i : Nat} (h : i < 4) :
    (be32 v)[i]? = some (BitVec.ofNat 8 (v / 2 ^ (8 * (3 - i)))) := by
  obtain rfl | rfl | rfl | rfl : i = 0 ∨ i = 1 ∨ i = 2 ∨ i = 3 := by omega
  all_goals simp [be32]

/-- In a list of entries of `k` elements each, element `r` of entry `j` stands at `k * j + r`. -/
theorem getElem?_flatMap_entry {α β : Type} {f : α → List β} {k : Nat} (hf : ∀ a, (f a).length = k) {a : α} {r : Nat}
    (hr : r < k) : ∀ {l : List α} {j : Nat}, l[j]? = some a → (l.flatMap f)[k * j + r]? = (f a)[r]?
  | x :: l, 0, h => by
    obtain rfl : x = a := Option.some.inj h
    rw [List.flatMap_cons, Nat.mul_zero, Nat.zero_add, List.getElem?_append_left (hr.trans_eq (hf x).symm)]
  | x :: l, j + 1, h => by
    have ih := getElem?_flatMap_entry hf hr (l := l) (j := j) h
    rw [List.flatMap_cons, List.getElem?_append_right (by rw [hf, Nat.mul_succ]; omega), hf, ← ih]
    congr 1
    rw [Nat.mul_succ]
    omega

/-! ## The stream -/

/-- The stream in its four parts: N, K, the entries, and BODY (R200). -/
theorem huffEncode_eq (inp : List Byte) :
    huffEncode inp = be32 inp.length ++ (be16 (symbols (freqOf inp)).length ++
      ((symbols (freqOf inp)).flatMap (fun s => s :: be32 (inp.count s)) ++ pack (hufBits inp))) := by
  simp only [huffEncode, hufHeader, List.append_assoc]
  rfl

section
variable (inp : List Byte)

/-- N and K stand before the entries. -/
theorem huffEncode_take_six :
    (huffEncode inp).take 6 = be32 inp.length ++ be16 (symbols (freqOf inp)).length := by
  rw [huffEncode_eq, ← List.append_assoc]
  exact List.take_left' rfl

theorem huffEncode_length :
    (huffEncode inp).length = 6 + 5 * (symbols (freqOf inp)).length + ((hufBits inp).length + 7) / 8 := by
  rw [huffEncode, List.length_append, hufHeader_length, pack_length]

/-- BODY is what follows the header (R200, R201). -/
theorem huffEncode_body :
    (huffEncode inp).drop (6 + 5 * (symbols (freqOf inp)).length) = pack (hufBits inp) := by
  rw [huffEncode, List.drop_left' (hufHeader_length _ _)]

theorem huffEncode_count {i : Nat} (h : i < 4) :
    (huffEncode inp)[i]? = some (BitVec.ofNat 8 (inp.length / 2 ^ (8 * (3 - i)))) := by
  rw [huffEncode_eq, List.getElem?_append_left h, be32_getElem? _ h]

theorem huffEncode_nsym {i : Nat} (h : i < 2) : (huffEncode inp)[4 + i]? =
    some (BitVec.ofNat 8 ((symbols (freqOf inp)).length / 2 ^ (8 * (1 - i)))) := by
  rw [huffEncode_eq, List.getElem?_append_right (by simp), be32_length, Nat.add_sub_cancel_left,
    List.getElem?_append_left h, be16_getElem? _ h]

/-- Byte `r` of entry `j`: the symbol, then its frequency (R200). -/
theorem huffEncode_entry {j r : Nat} {b : Byte} (hj : (symbols (freqOf inp))[j]? = some b) (hr : r < 5) :
    (huffEncode inp)[6 + 5 * j + r]? = (b :: be32 (inp.count b))[r]? := by
  have hlen : ∀ s : Byte, (s :: be32 (inp.count s)).length = 5 := fun _ => rfl
  have hentry := getElem?_flatMap_entry hlen hr hj
  have hbound : r < (b :: be32 (inp.count b)).length := hr
  rw [huffEncode_eq, List.getElem?_append_right (by rw [be32_length]; omega),
    List.getElem?_append_right (by rw [be16_length, be32_length]; omega), be32_length, be16_length,
    show 6 + 5 * j + r - 4 - 2 = 5 * j + r by omega]
  rw [List.getElem?_eq_getElem hbound] at hentry ⊢
  rw [List.getElem?_append_left (List.getElem?_eq_some_iff.1 hentry).1, hentry]

end

/-! ## The degenerate streams -/

/-- Packing zero bits gives zero bytes. -/
theorem pack_replicate_false (n : Nat) : pack (List.replicate n false) = List.replicate ((n + 7) / 8) 0#8 := by
  refine List.eq_replicate_iff.2 ⟨by simp, fun b hb => ?_⟩
  obtain ⟨j, -, rfl⟩ := List.mem_map.1 hb
  have hzero : ∀ i, (List.replicate n false).getD i false = false := fun i => by simp
  simp only [packByte, hzero]
  decide

/-- An input of one byte value has that value as its one symbol (R199). -/
theorem symbols_freqOf_replicate {n : Nat} (b : Byte) (h : 1 ≤ n) :
    symbols (freqOf (List.replicate n b)) = [b] := by
  have hperm := symbols_freqOf_perm (List.replicate n b)
  rwa [List.replicate_dedup (Nat.ne_of_gt h), List.perm_singleton] at hperm

/-- The stream for one distinct byte value: a bit 0 for each byte (R196, R199). -/
theorem huffEncode_replicate {n : Nat} (b : Byte) (h : 1 ≤ n) : huffEncode (List.replicate n b) =
    be32 n ++ [0#8, 1#8, b] ++ be32 n ++ List.replicate ((n + 7) / 8) 0#8 := by
  have hsyms := symbols_freqOf_replicate b h
  have hbits : hufBits (List.replicate n b) = List.replicate n false := by
    have hcode := codeTable_of_one hsyms b
    rw [if_pos rfl] at hcode
    rw [hufBits, List.flatMap_replicate, hcode]
    simp
  rw [huffEncode_eq, hsyms, hbits, pack_replicate_false, List.length_replicate]
  simp [be16]

/-- Settles O42: `S` is `symbols`, and each field is read off `huffEncode_eq`. -/
theorem huffmanStreamLayout : Obligations.HuffmanStreamLayout := by
  refine ⟨by decide, fun n b hn => huffEncode_replicate b hn, fun inp => ⟨?_, ?_⟩, fun inp =>
    ⟨symbols (freqOf inp), symbols_ascending _, fun b => mem_symbols_freqOf, fun i hi => huffEncode_count inp hi,
      fun i hi => huffEncode_nsym inp hi, fun j b hj => ⟨?_, ?_, fun i hi => ?_⟩, huffEncode_body inp⟩⟩
  · rw [huffEncode_take_six, symbols_freqOf_length]
  · rw [huffEncode_length, symbols_freqOf_length, hufBits_length]
  · exact huffEncode_entry inp hj (r := 0) (by omega)
  · exact mem_symbols.1 (List.mem_of_getElem? hj)
  · have hentry := huffEncode_entry inp hj (r := i + 1) (by omega)
    rw [List.getElem?_cons_succ, be32_getElem? _ hi] at hentry
    rw [← hentry]
    congr 1
    omega

/-! ## HUF_ENC -/

/-- Every entry of the tables after the update of R206: no value is narrowed, for an input below 2^32 bytes. -/
theorem State.setTables_toNat (s : State) {inp : List Byte} (hlen : inp.length < 2 ^ 32) (b : Byte) :
    ((s.setTables inp).freqAt b).toNat = inp.count b ∧
      ((s.setTables inp).codeLenAt b).toNat = (codeTable (freqOf inp) b).length ∧
      ((s.setTables inp).codeAt b).toNat = bitsValue (codeTable (freqOf inp) b) := by
  have hcount : inp.count b ≤ inp.length := List.count_le_length
  have hcode := codeTable_length_le (freqOf inp) b
  have hvalue : bitsValue (codeTable (freqOf inp) b) < 2 ^ 256 :=
    (bitsValue_lt _).trans_le (Nat.pow_le_pow_right Nat.two_pos (by omega))
  rw [setTables_freqAt, setTables_codeLenAt, setTables_codeAt]
  simp only [BitVec.toNat_ofNat]
  exact ⟨Nat.mod_eq_of_lt (hcount.trans_lt hlen), Nat.mod_eq_of_lt (by omega), Nat.mod_eq_of_lt hvalue⟩

theorem State.setTables_hufNsym_toNat (s : State) (inp : List Byte) :
    (s.setTables inp).hufNsym.toNat = inp.dedup.length := by
  have hsyms := symbols_length_le (freqOf inp)
  rw [setTables_hufNsym, BitVec.toNat_ofNat, Nat.mod_eq_of_lt (by omega), symbols_freqOf_length]

theorem Packer.at_pad {pad : Nat} (n : Nat) (h : pad < 8) : (Packer.at n pad).pad.toNat = pad :=
  (BitVec.toNat_ofNat _ _).trans (Nat.mod_eq_of_lt h)

section
variable {s : State}

theorem runHufEnc_badLen (h : s.params.inCap < s.srcLen.toNat) : runHufEnc s = .raise s .badLen s.srcLen :=
  withLen_bad h

variable (hlen : s.srcLen.toNat ≤ s.params.inCap)
include hlen

theorem runHufEnc_fits (h : (huffEncode s.input).length ≤ s.cap) :
    runHufEnc s = .ok ((s.setTables s.input).setPacked
      (Packer.at (huffEncode s.input).length (huffPad s.input), s.outBuf.writeBytes 0 (huffEncode s.input))) :=
  (withLen_ok hlen).trans (emit_fits h)

theorem runHufEnc_overflows (h : s.cap < (huffEncode s.input).length) :
    runHufEnc s =
      .raise (((s.setTables s.input).forgetOut s.cap).setPacker (Packer.at 0 0)) .outOverflow s.capWord :=
  (withLen_ok hlen).trans (emit_overflows h)

/-- Whether the stream fits or not, HUF_ENC leaves the tables of its input (R205, R206). -/
theorem runHufEnc_tables : (runHufEnc s).st = { s.setTables s.input with
    packer := (runHufEnc s).st.packer, outBuf := (runHufEnc s).st.outBuf, draws := (runHufEnc s).st.draws } := by
  rw [runHufEnc, withLen_ok hlen]
  exact emit_frame _ _ _

end

/-- Settles O37: `runHufEnc` by its three cases, and the tables by `runHufEnc_tables`. CAP is a word, so that DST_LEN
holds the length of a stream that fits. -/
theorem hufEncEmitsStreamAndTables : Obligations.HufEncEmitsStreamAndTables := by
  refine ⟨rfl, fun s hp => ⟨fun hlen => exec_of_raise (i := .hufEnc) (runHufEnc_badLen hlen), fun hlen => ?_⟩⟩
  obtain ⟨⟨-, hcap⟩, -⟩ := hp
  have hinput : s.input.length < 2 ^ 32 := by
    rw [State.input, Memory.bytes_length, State.len]
    omega
  have htables : (runOf .hufEnc s).st = _ := runHufEnc_tables hlen
  refine ⟨_, exec_eq .hufEnc s, fun b => ?_, ?_, fun hfit => ?_, fun hover => ?_⟩
  · rw [htables]
    exact s.setTables_toNat hinput b
  · rw [htables]
    exact s.setTables_hufNsym_toNat s.input
  · have hrun : runOf .hufEnc s = _ := runHufEnc_fits hlen hfit
    rw [hrun]
    exact ⟨rfl, Packer.at_dstLen _ (Nat.lt_of_le_of_lt hfit s.cap_lt), rfl, rfl, Packer.at_pad _ (padcount_lt _),
      writeBytes_zero_read s.outBuf _⟩
  · have hrun : runOf .hufEnc s = _ := runHufEnc_overflows hlen hover
    rw [hrun]
    exact ⟨rfl, Memory.read_forget_ge s.outBuf s.cap s.draws⟩

end Sys2Proof.Machine
end

section
/-! SUPPORT. What find returns and where the tokens of an input stand, the LZ77 stream byte by byte, and LZ_FIND and
LZ_ENC as commands (43_lz77.md R231 to R241). -/

namespace Sys2Proof.Machine

/-! ## Match length and find -/

/-- Settles O44: a match agrees by `matchLen_agree`, and one below the limit ends at a difference by `matchLen_stop`. -/
theorem matchLenIsLargest : Obligations.MatchLenIsLargest := fun inp p d lmax _ _ hl =>
  ⟨matchLen_le inp p d lmax, matchLen_agree inp p d lmax, or_iff_not_imp_left.2 (matchLen_stop hl)⟩

/-- R232 and R233 together: every match of the window is too short, or the longest match at the nearest distance. -/
theorem lzFind_spec (window : Nat) {minMatch : Nat} (inp : List Byte) (p : Nat) (hmin : 1 ≤ minMatch) :
    (lzFind window minMatch inp p = (0, 0) ∧
      ∀ d, 1 ≤ d → d ≤ min p window → matchLen inp p d (lzLimit inp p) < minMatch) ∨
    (∃ d l, lzFind window minMatch inp p = (d, l) ∧ 1 ≤ d ∧ d ≤ min p window ∧ minMatch ≤ l ∧
      l = matchLen inp p d (lzLimit inp p) ∧
      (∀ d', 1 ≤ d' → d' ≤ min p window → matchLen inp p d' (lzLimit inp p) ≤ l) ∧
      ∀ d', 1 ≤ d' → d' < d → matchLen inp p d' (lzLimit inp p) < l) := by
  obtain ⟨hbest, hnone⟩ | ⟨d, hd, hdmax, hbest, -, hlongest, hnearest⟩ := lzBest_spec window inp p
  · refine .inl ⟨?_, fun d h1 h2 => (hnone d h1 h2).trans_lt hmin⟩
    rw [lzFind, hbest]
    exact if_pos hmin
  · rw [lzFind, hbest]
    rcases Nat.lt_or_ge (matchLen inp p d (lzLimit inp p)) minMatch with hshort | hlong
    · exact .inl ⟨if_pos hshort, fun d' h1 h2 => (hlongest d' h1 h2).trans_lt hshort⟩
    · exact .inr ⟨d, _, if_neg (Nat.not_lt.2 hlong), hd, hdmax, hlong, rfl, hlongest, hnearest⟩

/-- Settles O45: `lzFind_spec`, where `lzLimit` is the limit of R231. -/
theorem findIsLongestNearest : Obligations.FindIsLongestNearest := fun window _ inp p hmin _ =>
  lzFind_spec window inp p hmin

theorem lzFind_dist_le {window minMatch : Nat} (inp : List Byte) (p : Nat) (hmin : 1 ≤ minMatch) :
    (lzFind window minMatch inp p).1 ≤ window := by
  obtain hlit | ⟨-, -, hle, -, -⟩ := lzFind_form (window := window) (inp := inp) (p := p) hmin
  · rw [hlit]; exact Nat.zero_le _
  · exact hle

/-! ## Where the tokens stand -/

section
variable (window minMatch : Nat) (inp : List Byte)

/-- The tokens from a position on cover the input from there to its end (R236). -/
theorem tokensAt_cover : ∀ p, p ≤ inp.length →
    p + ((tokensAt window minMatch inp p).map (fun t => t.len + 1)).sum = inp.length := by
  refine tokens_induction (window := window) (minMatch := minMatch) ?atEnd ?token
  case atEnd => simp [tokensAt_end window minMatch (le_refl inp.length)]
  case token =>
    intro p hp ih
    rw [tokensAt_step window minMatch hp, List.map_cons, List.sum_cons]
    omega

/-- Each token is the one at the position that the tokens before it leave (R236). -/
theorem tokensAt_getElem? : ∀ p, p ≤ inp.length → ∀ (k : Nat) (t : Token),
    (tokensAt window minMatch inp p)[k]? = some t →
    ∃ q, q = p + (((tokensAt window minMatch inp p).take k).map (fun t => t.len + 1)).sum ∧ q < inp.length ∧
      t = tokenAt window minMatch inp q := by
  refine tokens_induction (window := window) (minMatch := minMatch) ?atEnd ?token
  case atEnd => simp [tokensAt_end window minMatch (le_refl inp.length)]
  case token =>
    intro p hp ih k t ht
    rw [tokensAt_step window minMatch hp] at ht ⊢
    cases k with
    | zero => exact ⟨p, rfl, hp, (Option.some.inj ht).symm⟩
    | succ k =>
      obtain ⟨q, hq, hlt, heq⟩ := ih k t ht
      refine ⟨q, ?_, hlt, heq⟩
      rw [hq, List.take_succ_cons, List.map_cons, List.sum_cons]
      omega

theorem exists_tokenAt_of_mem {window minMatch : Nat} {inp : List Byte} {t : Token}
    (ht : t ∈ tokens window minMatch inp) : ∃ q, q < inp.length ∧ t = tokenAt window minMatch inp q := by
  obtain ⟨k, hk⟩ := List.mem_iff_getElem?.1 ht
  obtain ⟨q, -, hq, heq⟩ := tokensAt_getElem? window minMatch inp 0 (Nat.zero_le _) k t hk
  exact ⟨q, hq, heq⟩

/-- While the tokens are literals, a token stands at every position; so one has a match, or one stands at `q`. -/
theorem tokensAt_match_or_mem {q : Nat} (hq : q < inp.length) : ∀ p, p ≤ inp.length → p ≤ q →
    (∃ t ∈ tokensAt window minMatch inp p, t.len ≠ 0) ∨
      tokenAt window minMatch inp q ∈ tokensAt window minMatch inp p := by
  refine tokens_induction (window := window) (minMatch := minMatch) ?atEnd ?token
  case atEnd => intro h; omega
  case token =>
    intro p hp ih hpq
    rw [tokensAt_step window minMatch hp]
    by_cases hlen : (tokenAt window minMatch inp p).len = 0
    · obtain rfl | hlt := Nat.eq_or_lt_of_le hpq
      · exact .inr List.mem_cons_self
      · refine (ih (by omega)).imp ?_ (List.mem_cons_of_mem _)
        rintro ⟨t, ht, hne⟩
        exact ⟨t, List.mem_cons_of_mem _ ht, hne⟩
    · exact .inl ⟨_, List.mem_cons_self, hlen⟩

/-! ## The stream -/

theorem Token.record_length (t : Token) : t.record.length = 4 := rfl

theorem lzEncode_length :
    (lzEncode window minMatch inp).length = 4 + 4 * (tokens window minMatch inp).length := by
  simp [lzEncode, List.length_flatMap, Token.record_length, Nat.mul_comm]

theorem lzEncode_count {i : Nat} (h : i < 4) :
    (lzEncode window minMatch inp)[i]? = some (BitVec.ofNat 8 (inp.length / 2 ^ (8 * (3 - i)))) := by
  rw [lzEncode, List.getElem?_append_left h, be32_getElem? _ h]

/-- Byte `r` of the record of token `k` (R237, R238). -/
theorem lzEncode_record {k r : Nat} {t : Token} (hk : (tokens window minMatch inp)[k]? = some t) (hr : r < 4) :
    (lzEncode window minMatch inp)[4 + r + 4 * k]? = t.record[r]? := by
  rw [lzEncode, List.getElem?_append_right (by rw [be32_length]; omega), be32_length,
    show 4 + r + 4 * k - 4 = 4 * k + r by omega, getElem?_flatMap_entry Token.record_length hr hk]

end

/-- What the token at a position holds: what find returns there, the byte that follows, a literal or a back-reference
within the limits (R234, R236). -/
theorem tokenAt_spec {window minMatch : Nat} {inp : List Byte} {p : Nat} {t : Token} (hmin : 1 ≤ minMatch)
    (hp : p < inp.length) (ht : t = tokenAt window minMatch inp p) :
    lzFind window minMatch inp p = (t.dist, t.len) ∧ inp[p + t.len]? = some t.lit ∧
      (t.dist = 0 ∧ t.len = 0 ∨
        1 ≤ t.dist ∧ t.dist ≤ window ∧ t.dist ≤ p ∧ minMatch ≤ t.len ∧ t.len ≤ 255) := by
  subst ht
  refine ⟨rfl, tokenAt_lit window minMatch hp, ?_⟩
  obtain hlit | ⟨hd, hdp, hdw, hl, -⟩ := lzFind_form (window := window) (inp := inp) (p := p) hmin
  · exact .inl (Prod.mk.inj hlit)
  · exact .inr ⟨hd, hdw, hdp, hl, lzFind_len_le window minMatch inp p⟩

/-- Settles O47: coverage by `tokensAt_cover`, the bytes of the stream by `lzEncode_count` and `lzEncode_record`, and
each token by its position (`tokensAt_getElem?`) and what stands there (`tokenAt_spec`). -/
theorem tokensCoverInput : Obligations.TokensCoverInput := by
  intro window minMatch inp hmin
  have hcover := tokensAt_cover window minMatch inp 0 (Nat.zero_le _)
  rw [Nat.zero_add] at hcover
  refine ⟨hcover, lzEncode_length window minMatch inp, tokens_length_le window minMatch inp,
    fun i hi => lzEncode_count window minMatch inp hi, fun k t hk => ?_, fun k t hk => ?_⟩
  · have hrecord : ∀ r, r < 4 → (lzEncode window minMatch inp)[4 + r + 4 * k]? = t.record[r]? :=
      fun r => lzEncode_record window minMatch inp hk
    exact ⟨hrecord 0 (by decide), hrecord 1 (by decide), hrecord 2 (by decide), hrecord 3 (by decide)⟩
  · obtain ⟨q, hq, hlt, ht⟩ := tokensAt_getElem? window minMatch inp 0 (Nat.zero_le _) k t hk
    rw [Nat.zero_add] at hq
    subst hq
    exact tokenAt_spec hmin hlt ht

/-! ## Repeated substrings -/

/-- The bytes of a substring that stands at two positions agree. -/
theorem getElem?_eq_of_isPrefix_drop {inp sub : List Byte} {p q i : Nat} (hp : sub <+: inp.drop p)
    (hq : sub <+: inp.drop q) (hi : i < sub.length) : inp[p + i]? = inp[q + i]? := by
  rw [← List.getElem?_drop, ← List.getElem?_drop, List.prefix_iff_getElem?.1 hp i hi,
    List.prefix_iff_getElem?.1 hq i hi]

/-- Where a repeated substring begins for the second time, find returns a match: the first occurrence is one. -/
theorem lzFind_len_of_repeated {window minMatch : Nat} {inp sub : List Byte} {p1 p2 : Nat} (hmin : 1 ≤ minMatch)
    (hmax : minMatch ≤ 255) (hsub : minMatch + 1 ≤ sub.length) (hlt : p1 < p2) (hwin : p2 - p1 ≤ window)
    (h1 : sub <+: inp.drop p1) (h2 : sub <+: inp.drop p2) : minMatch ≤ (lzFind window minMatch inp p2).2 := by
  have hfit := h2.length_le
  rw [List.length_drop] at hfit
  have hmatch : minMatch ≤ matchLen inp p2 (p2 - p1) (lzLimit inp p2) := by
    unfold lzLimit Config.lzMaxLen
    refine le_matchLen (by omega) (by omega) fun i hi => ?_
    rw [Nat.sub_sub_self hlt.le]
    exact getElem?_eq_of_isPrefix_drop h2 h1 (by omega)
  obtain ⟨-, hshort⟩ | ⟨d, l, hfind, -, -, hl, -, -, -⟩ := lzFind_spec window inp p2 hmin
  · have := hshort (p2 - p1) (by omega) (by omega)
    omega
  · rwa [hfind]

/-- Settles O48: were every token a literal, one would stand at the second occurrence (`tokensAt_match_or_mem`), but
there find returns a match (`lzFind_len_of_repeated`). -/
theorem repeatedSubstringGivesBackReference : Obligations.RepeatedSubstringGivesBackReference := by
  intro window minMatch inp sub p1 p2 hmin hmax hsub hlt hwin h1 h2
  have hfound := lzFind_len_of_repeated hmin hmax hsub hlt hwin h1 h2
  have hp2 : p2 < inp.length := by
    have := h2.length_le
    rw [List.length_drop] at this
    omega
  have hmatch : ∃ t ∈ tokens window minMatch inp, t.len ≠ 0 := by
    obtain h | h := tokensAt_match_or_mem window minMatch inp hp2 0 (Nat.zero_le _) (Nat.zero_le _)
    · exact h
    · exact ⟨_, h, Nat.ne_of_gt (hmin.trans hfound)⟩
  obtain ⟨t, ht, hne⟩ := hmatch
  obtain ⟨q, hq, heq⟩ := exists_tokenAt_of_mem ht
  obtain ⟨-, -, ⟨-, hzero⟩ | ⟨hd, -, -, hl, -⟩⟩ := tokenAt_spec hmin hq heq
  · exact absurd hzero hne
  · exact ⟨t, ht, hd, hl⟩

/-! ## LZ_FIND -/

variable {s : State}

theorem runLzFind_badLen (h : s.params.inCap < s.srcLen.toNat) : runLzFind s = .raise s .badLen s.srcLen :=
  withLen_bad h

section
variable (hlen : s.srcLen.toNat ≤ s.params.inCap)
include hlen

theorem runLzFind_badPos (h : s.srcLen.toNat ≤ s.pos.toNat) : runLzFind s = .raise s .badPos s.pos :=
  (withLen_ok hlen).trans (withPos_bad h)

theorem runLzFind_within (h : s.pos.toNat < s.srcLen.toNat) : runLzFind s =
    .ok { s with matchReg := (tokenAt s.params.lzWindow s.params.lzMinMatch s.input s.pos.toNat).reg } :=
  (withLen_ok hlen).trans (withPos_ok h)

end

/-- The fields of MATCH lose nothing of a token (10_state.md R47). -/
theorem tokenAt_reg_toNat {p : Config.Params} (hp : p.legal) (inp : List Byte) (q : Nat) :
    (tokenAt p.lzWindow p.lzMinMatch inp q).reg.dist.toNat = (lzFind p.lzWindow p.lzMinMatch inp q).1 ∧
      (tokenAt p.lzWindow p.lzMinMatch inp q).reg.len.toNat = (lzFind p.lzWindow p.lzMinMatch inp q).2 := by
  obtain ⟨-, -, ⟨-, hwin⟩, hmin, -⟩ := hp
  have hdist := lzFind_dist_le (window := p.lzWindow) inp q hmin
  have hlen := lzFind_len_le p.lzWindow p.lzMinMatch inp q
  simp only [Token.reg, tokenAt, BitVec.toNat_ofNat]
  exact ⟨Nat.mod_eq_of_lt (by omega), Nat.mod_eq_of_lt (by omega)⟩

/-- Settles O46: `runLzFind` by its three cases; MATCH holds the token at POS whole (`tokenAt_reg_toNat`), whose literal
is a byte of the input (`tokenAt_lit`). -/
theorem lzFindReportsToken : Obligations.LzFindReportsToken := by
  refine ⟨rfl, fun s hparams => ⟨fun hlen => exec_of_raise (i := .lzFind) (runLzFind_badLen hlen),
    fun hlen hp => exec_of_raise (i := .lzFind) (runLzFind_badPos hlen hp), fun hlen hp => ?_⟩⟩
  have hinput : s.pos.toNat < s.input.length := hp.trans_eq (Memory.bytes_length _ _).symm
  have hend := (lzFind_len_lt s.params.lzWindow s.params.lzMinMatch hinput).trans_eq (Memory.bytes_length _ _)
  have hlit := tokenAt_lit s.params.lzWindow s.params.lzMinMatch hinput
  obtain ⟨hdist, hlength⟩ := tokenAt_reg_toNat hparams s.input s.pos.toNat
  exact ⟨_, _, _, rfl, exec_of_ok (i := .lzFind) (runLzFind_within hlen hp), rfl, hdist, hlength, hend,
    Option.some.inj (hlit.symm.trans (s.inBuf.bytes_getElem? hend))⟩

/-! ## LZ_ENC -/

theorem runLzEnc_badLen (h : s.params.inCap < s.srcLen.toNat) : runLzEnc s = .raise s .badLen s.srcLen :=
  withLen_bad h

section
variable {o : List Byte} (hlen : s.srcLen.toNat ≤ s.params.inCap)
  (ho : o = lzEncode s.params.lzWindow s.params.lzMinMatch s.input)
include hlen ho

theorem runLzEnc_fits {T : Nat} (hT : T = (tokens s.params.lzWindow s.params.lzMinMatch s.input).length)
    (h : o.length ≤ s.cap) : runLzEnc s = .ok { s.setPacked (Packer.at o.length 0, s.outBuf.writeBytes 0 o) with
      lzNtok := BitVec.ofNat 32 T } := by
  rw [runLzEnc, withLen_ok hlen, ← ho, ← hT, emit_fits h]
  rfl

theorem runLzEnc_overflows (h : s.cap < o.length) :
    runLzEnc s = .raise ((s.forgetOut s.cap).setPacker (Packer.at 0 0)) .outOverflow s.capWord := by
  rw [runLzEnc, withLen_ok hlen, ← ho, emit_overflows h]
  rfl

end

/-- Settles O50: `runLzEnc` by its three cases. CAP is a word, so that DST_LEN and LZ_NTOK hold the length and the
number of tokens of a stream that fits. -/
theorem lzEncEmitsStream : Obligations.LzEncEmitsStream := by
  refine ⟨rfl, fun s _ => ⟨fun hlen => exec_of_raise (i := .lzEnc) (runLzEnc_badLen hlen),
    fun hlen o T ho hT => ?_⟩⟩
  have hlength : o.length = 4 + 4 * T := by rw [ho, hT, lzEncode_length]
  refine ⟨_, exec_eq .lzEnc s, fun hfit => ?_, fun hover => ?_⟩
  · have hword : 4 + 4 * T < 2 ^ 32 := Nat.lt_of_le_of_lt hfit s.cap_lt
    have hrun : runOf .lzEnc s = _ := runLzEnc_fits hlen ho hT (hlength.trans_le hfit)
    rw [hrun]
    have hntok : (BitVec.ofNat 32 T).toNat = T := (BitVec.toNat_ofNat _ _).trans (Nat.mod_eq_of_lt (by omega))
    exact ⟨rfl, hntok, (Packer.at_dstLen 0 (hlength.trans_lt hword)).trans hlength, rfl, rfl, rfl,
      writeBytes_zero_read s.outBuf o⟩
  · have hrun : runOf .lzEnc s = _ := runLzEnc_overflows hlen ho (hover.trans_eq hlength.symm)
    rw [hrun]
    exact ⟨rfl, Memory.read_forget_ge s.outBuf s.cap s.draws⟩

end Sys2Proof.Machine
end

section
/-! SUPPORT. The life of a command, from the write to CTRL that starts it to its completion, and what the host sees of
it meanwhile (44_system.md R260 to R269). -/

namespace Sys2Proof.Machine

/-! ## How a command ends -/

/-- The two ends of a command's pseudocode: it ran through, or it raised an error (60_exceptions.md R311). -/
inductive CmdResult.Ended : CmdResult → Prop
  | ok (s : State) : Ended (.ok s)
  | raise (s : State) {e : ErrCode} (he : e ≠ .noError) (x : Word) : Ended (.raise s e x)

/-- A command that ran through reports the information word 0 (60_exceptions.md R313). -/
theorem CmdResult.Ended.info_eq_zero {r : CmdResult} (h : r.Ended) (hcode : r.code = .noError) : r.info = 0#32 := by
  cases h with
  | ok => rfl
  | raise s he x => exact absurd hcode he

section
variable {s : State} {r : CmdResult}

theorem ite_ended {c : Prop} [Decidable c] {r' : CmdResult} (h : r.Ended) (h' : r'.Ended) :
    (if c then r else r').Ended :=
  iteInduction (fun _ => h) fun _ => h'

theorem withLen_ended (h : r.Ended) : (withLen s r).Ended := ite_ended h (.raise _ (by decide) _)

theorem withNbits_ended {n : BitVec 6} (h : r.Ended) : (withNbits s n r).Ended := ite_ended h (.raise _ (by decide) _)

theorem withPos_ended (h : r.Ended) : (withPos s r).Ended := ite_ended h (.raise _ (by decide) _)

theorem emit_ended (o : List Byte) (pad : Nat) : (emit s o pad).Ended :=
  ite_ended (.raise _ (by decide) _) (.ok _)

theorem countTokens_ended (h : r.Ended) (n : Nat) : (r.countTokens n).Ended := by
  cases h with
  | ok => exact .ok _
  | raise s he x =>
    have hkept : (CmdResult.raise s _ x).countTokens n = _ := if_neg he
    rw [hkept]
    exact .raise s he x

end

theorem runOf_ended (i : Instr) (s : State) : (runOf i s).Ended := by
  cases i with
  | nop | bpClear | buClear => exact .ok _
  | bpPut => exact withNbits_ended (ite_ended (.raise _ (by decide) _) (.ok _))
  | bpFlush => exact ite_ended (.ok _) (ite_ended (.raise _ (by decide) _) (.ok _))
  | buGet => exact withLen_ended (withNbits_ended (ite_ended (.raise _ (by decide) _) (.ok _)))
  | rleRun | lzFind => exact withLen_ended (withPos_ended (.ok _))
  | rleEnc | hufEnc => exact withLen_ended (emit_ended _ _)
  | lzEnc => exact withLen_ended (countTokens_ended (emit_ended _ _) _)

theorem runOf_status (i : Instr) (s : State) : (runOf i s).st.status = s.status := by
  rw [runOf_frame]

theorem Status.err_eq (st : Status) : st.err = decide (st.errcode ≠ .noError) := by
  rw [Status.err, bne, beq_eq_decide, decide_not]

/-- Settles O21: WBUSY by `runOf_status`, the information word by `runOf_ended`. -/
theorem everyCompletionUpdatesStatus : Obligations.EveryCompletionUpdatesStatus := by
  intro s
  obtain ⟨i, -, hi⟩ | ⟨-, hbad⟩ := complete_cases s
  · refine ⟨_, _, _, hi.trans (exec_eq i s), ?_, Status.err_eq _, rfl, (runOf_ended i s).info_eq_zero⟩
    rw [State.completed_status, runOf_status]
  · exact ⟨_, _, _, hbad, rfl, Status.err_eq _, rfl, nofun⟩

/-- Settles O26: NOP's pseudocode is empty. -/
theorem nopOnlyCompletes : Obligations.NopOnlyCompletes :=
  ⟨decode_encode .nop, fun _ => rfl, fun _ => exec_of_ok (i := .nop) rfl⟩

/-! ## A command in flight -/

/-- A host step has a meaning always: it meets a bus error or gives a next state (20_memory.md R90). -/
theorem runHost_answers (s : State) (st : HostStep) :
    (∃ f, s.runHost st = .fault f) ∨ ∃ t, s.runHost st = .next t := by
  unfold State.runHost
  split
  · exact .inr ⟨_, rfl⟩
  · split
    · exact .inl ⟨_, rfl⟩
    · exact .inr ⟨_, rfl⟩

/-- While a command is in flight an access either discards it or changes neither the wait nor the reset input: a START
is dropped (44_system.md R260, R265). -/
theorem access_busy {s : State} {a : Access} {r : State × Option Word} (hb : s.status.busy = true)
    (h : s.access a = .ok r) : r.1.status.busy = false ∨
      (r.1.status.busy = true ∧ r.1.wait = s.wait ∧ r.1.resetIn = s.resetIn) := by
  obtain ⟨-, ⟨-, rfl⟩ | ⟨-, rfl⟩⟩ := access_cases h
  · rw [busRead_state]
    exact .inr ⟨hb, rfl, rfl⟩
  · cases hsoft : a.isSoftReset with
    | true =>
      rw [busWrite_softReset hsoft, State.softReset_status]
      exact .inl rfl
    | false =>
      rw [busWrite_busy hsoft hb]
      exact .inr ⟨hb, rfl, rfl⟩

theorem runHost_busy {s t : State} {st : HostStep} (hb : s.status.busy = true) (h : s.runHost st = .next t) :
    t.status.busy = false ∨ (t.status.busy = true ∧ t.wait = s.wait - 1 ∧ t.resetIn = s.resetIn) := by
  obtain ⟨-, rfl⟩ | ⟨a, r, -, hr, rfl⟩ := runHost_cases h
  · exact .inr ⟨hb, rfl, rfl⟩
  · exact access_busy (s := s.tick) hb hr

/-- When the completion step comes next, the step is that of the command in CMD.OP; it uses up a level of the reset
input (44_system.md R261, log 13). -/
theorem step_of_completesNow {s : State} (hr : s.resetAsserted = false) (hn : s.completesNow = true) :
    step s = s.sampled.complete exec := by
  simp [step, hr, hn]

/-- With no hard reset, a step of a busy machine ends the command, meets a bus error, or brings the completion step one
host step nearer (44_system.md R269, log 4). -/
theorem step_busy {s : State} (hb : s.status.busy = true) (hr : s.resetIn = []) :
    (∃ f, step s = .fault f) ∨ ∃ t, step s = .next t ∧
      (t.status.busy = false ∨ (t.status.busy = true ∧ t.wait + 1 = s.wait ∧ t.resetIn = [])) := by
  have hlevel : s.resetIn.head? ≠ some true := by simp [hr]
  cases hn : s.completesNow with
  | true =>
    obtain ⟨t, code, info, ht, hst, -⟩ := everyCompletionUpdatesStatus s.sampled
    refine .inr ⟨t, (step_of_completesNow ((resetAsserted_false_iff s).2 hlevel) hn).trans ht, .inl ?_⟩
    rw [hst]
  | false =>
    obtain ⟨st, hc⟩ := current_of_busy hb hn
    have hwait : s.wait ≠ 0 := by intro hw; simp [State.completesNow, hb, hw] at hn
    rw [step_runHost hlevel (fun _ => hwait) hc]
    refine (runHost_answers s.sampled st).imp_right fun ⟨t, ht⟩ => ⟨t, ht, ?_⟩
    refine (runHost_busy (s := s.sampled) hb ht).imp_right fun ⟨hbusy, hw, hreset⟩ => ⟨hbusy, ?_, ?_⟩
    · rw [hw, State.sampled_wait]
      omega
    · rw [hreset, State.sampled_resetIn, hr, List.tail_nil]

section
variable {M : Host.Core} {s : M.State}

theorem run_succ_of_next {t : M.State} (h : M.step s = .next t) (k : Nat) : M.run (k + 1) s = M.run k t := by
  rw [Host.Core.run, h]

theorem run_succ_of_fault {f : M.Fault} (h : M.step s = .fault f) (k : Nat) : M.run (k + 1) s = .fault f := by
  rw [Host.Core.run, h]

end

/-- Settles O60, by induction on the wait, which `step_busy` counts down. -/
theorem commandInFlightEnds : Obligations.CommandInFlightEnds := by
  intro s
  induction hw : s.wait using Nat.strong_induction_on generalizing s with
  | _ wait ih =>
    intro hb hr
    obtain ⟨f, hf⟩ | ⟨t, ht, hidle | ⟨hbusy, hnear, hreset⟩⟩ := step_busy hb hr
    · exact ⟨1, by omega, .inr ⟨f, run_succ_of_fault (M := core) hf 0⟩⟩
    · exact ⟨1, by omega, .inl ⟨t, run_succ_of_next (M := core) ht 0, hidle⟩⟩
    · obtain ⟨k, hk, hend⟩ := ih t.wait (by omega) t rfl hbusy hreset
      exact ⟨k + 1, by omega, by rwa [run_succ_of_next (M := core) ht]⟩

/-! ## Which command runs -/

theorem complete_command {s : State} {i : Instr} (h : decode (cmdWord s.op) = .ok i) :
    s.complete exec = exec i s := by
  simp [State.complete, h]

/-- Settles O4: the step is the completion step, which runs the command decoded or completes with BAD_OPCODE. -/
theorem stepRunsDecodedCommand : Obligations.StepRunsDecodedCommand := by
  intro s hr hb hdue
  have hnow : s.completesNow = true := by simpa [State.completesNow, hb, HostAgent.finished] using hdue.symm
  rw [step_of_completesNow ((resetAsserted_false_iff s).2 hr) hnow]
  exact ⟨fun i hi => complete_command (s := s.sampled) hi, fun hop => complete_reserved (s := s.sampled) hop⟩

theorem decode_of_decodeTableWord {nbits w : Nat} {i : Instr} (h : decodeTableWord nbits w = some i) :
    decode (tableWord nbits w) = .ok i := by
  unfold decodeTableWord at h
  split at h
  · next j hj => rw [hj, Option.some.inj h]
  · cases h

/-- Settles O5: `withFetchWord` leaves no wait and no reset level before the completion step. -/
theorem fetchedWordRunsNext : Obligations.FetchedWordRunsNext := by
  intro s nbits w i hi
  have hop : opField (tableWord nbits w) = opcodeOf i := (decode_ok_iff _ i).1 (decode_of_decodeTableWord hi)
  have hnow : (s.withFetchWord nbits w).completesNow = true := by simp [State.completesNow, State.withFetchWord]
  have hdecode : decode (cmdWord (opField (tableWord nbits w))) = .ok i :=
    (decode_cmdWord _).trans (decode_of_decodeTableWord hi)
  exact ⟨(s.withFetchWord nbits w).sampled,
    (step_of_completesNow (s.inFlight_resetAsserted _) hnow).trans (complete_command hdecode), hop, rfl, rfl⟩

/-! ## Writes to CTRL, and writes while busy -/

/-- Settles O11: a write that does not err is the soft reset or, while busy, dropped. -/
theorem busyWritesAreDropped : Obligations.BusyWritesAreDropped := by
  intro s a hb hd ho
  rw [access_write hd ho]
  refine ⟨fun hoff hbit => ?_, fun hctrl => ?_⟩
  · rw [busWrite_softReset ((isSoftReset_iff ho).2 ⟨hoff, hbit⟩)]
  · rw [← isSoftReset_iff ho, Bool.not_eq_true] at hctrl
    rw [busWrite_busy hctrl hb]
    rfl

/-- A write to CTRL: SRESET first, then BUSY, then IRQ_EN and START (44_system.md R260). -/
theorem access_writeCtrl (s : State) (v : Word) : s.access (.w32 0x004#22 v) =
    .ok (if v.getLsbD 1 then s.softReset else if s.status.busy then s.dropWrite else s.writeCtrl v, none) := by
  have hok : (Access.w32 0x004#22 v).ok s.params = true := ok_word_regs _ _ _ (by decide) (by decide)
  have htarget : targetOf (Access.w32 0x004#22 v).offset = .reg .ctrl := targetOf_offset .ctrl
  rw [access_write rfl hok, State.busWrite, isSoftReset_ctrl, idleWrite_reg htarget]
  rfl

/-- Settles O7: the branches of `access_writeCtrl` and of `writeCtrl`. -/
theorem ctrlWriteFollowsRule : Obligations.CtrlWriteFollowsRule := by
  refine fun s v => ⟨_, access_writeCtrl s v, fun h1 => if_pos h1, fun h1 hb => ?_, fun h1 hb h0 => ?_,
    fun h1 hb h0 => ?_⟩
  · rw [if_neg (Bool.eq_false_iff.1 h1), if_pos hb]
    rfl
  · rw [if_neg (Bool.eq_false_iff.1 h1), if_neg (Bool.eq_false_iff.1 hb), State.writeCtrl,
      if_neg (Bool.eq_false_iff.1 h0)]
  · rw [if_neg (Bool.eq_false_iff.1 h1), if_neg (Bool.eq_false_iff.1 hb), State.writeCtrl, if_pos h0]
    rfl

/-! ## The interrupt line -/

theorem access_unique {s t u : State} {a : Access} {x y : Option Word} (ht : s.access a = .ok (t, x))
    (hu : s.access a = .ok (u, y)) : t = u :=
  congrArg Prod.fst (Except.ok.inj (ht.symm.trans hu))

theorem step_of_resetAsserted {s : State} (h : s.resetAsserted = true) : step s = .next s.sampled.hardReset :=
  if_pos h

@[simp] theorem State.softReset_irq (s : State) : s.softReset.irq = false := by simp [State.irq]

/-- Settles O20: a completion sets DONE and keeps IRQ_EN (`complete_frame`), CTRL is written as `ctrlWriteFollowsRule`
says, and the other events clear DONE. -/
theorem irqLevelFollowsDoneAndEnable : Obligations.IrqLevelFollowsDoneAndEnable := by
  refine ⟨fun _ => rfl, fun s t h => ?_, fun s t v h hb h1 => ?_, fun s t v h hb h1 => ?_, fun s t v h h1 => ?_,
    fun s t hr h => ?_⟩
  · rw [complete_frame h]
    rfl
  · obtain ⟨u, hu, -, -, hidle, hstart⟩ := ctrlWriteFollowsRule s v
    obtain rfl : u = t := access_unique hu h
    cases h0 : v.getLsbD 0 with
    | false => rw [hidle h1 hb h0]; rfl
    | true => rw [hstart h1 hb h0]; rfl
  · obtain rfl : s.writeReg .status v = t := access_unique (access_writeReg hb (r := .status) nofun v) h
    simp [State.irq, State.writeReg, Status.w1c_eq, h1]
  · obtain ⟨u, hu, hsoft, -⟩ := ctrlWriteFollowsRule s v
    obtain rfl : u = t := access_unique hu h
    rw [hsoft h1, State.softReset_irq]
  · rw [step_of_resetAsserted ((resetAsserted_iff s).2 hr)] at h
    rw [← Host.Outcome.next.inj h]
    rfl

/-! ## Reads while busy -/

/-- The registers that a read returns exactly even while busy (44_system.md R266). -/
def RegName.exactBusy : List RegName := [.id, .ctrl, .cmd, .status, .cfgInCap, .cfgOutCap, .cfgLz]

theorem access_readReg_exact {r : RegName} (hr : r ∈ RegName.exactBusy) (s : State) :
    s.access (.r32 r.offset) = .ok (s, some (s.readReg r)) := by
  have hexact : ∀ q ∈ RegName.exactBusy, (Target.reg q).exactWhileBusy = true := by decide
  have htarget : targetOf (Access.r32 r.offset).offset = .reg r := targetOf_offset r
  obtain ⟨hlt, ha⟩ := r.offset_aligned
  have hok : (Access.r32 r.offset).ok s.params = true := ok_word_regs _ _ _ hlt ha
  rw [access_read rfl hok, busRead_exact (by rw [htarget]; exact hexact r hr)]
  simp [State.exactRead, htarget]

theorem access_read_free {s : State} {a : Access} (hb : s.status.busy = true) (hd : a.dir = .read)
    (ho : a.ok s.params = true) (hx : (targetOf a.offset).exactWhileBusy = false) :
    s.access a = .ok (s.nextDraw, some (a.freeRead s.draws)) := by
  rw [access_read hd ho, busRead_busy hb hx]

/-- Settles O12: the seven registers are those of `RegName.exactBusy`, and any other read returns a free value that
depends on the draw number alone. -/
theorem busyReadsTellNothing : Obligations.BusyReadsTellNothing := by
  refine ⟨fun s hb off v hrow => ?_, fun s u a hbs hbu hdraws hd hos hou hun hoff => ?_⟩
  · rw [← State.readReg_ctrl] at hrow
    have hreg : (off, v) ∈ RegName.exactBusy.map (fun r => (r.offset, s.readReg r)) := hrow
    obtain ⟨r, hexact, hr⟩ := List.mem_map.1 hreg
    obtain ⟨rfl, rfl⟩ := Prod.mk.inj hr
    exact access_readReg_exact hexact s
  · have hfree : (targetOf a.offset).exactWhileBusy = false := by
      rw [← Bool.not_eq_true, exactWhileBusy_iff hos]
      exact not_or.2 ⟨hun, hoff⟩
    refine ⟨_, access_read_free hbs hd hos hfree, ?_⟩
    rw [hdraws]
    exact access_read_free hbu hd hou hfree

end Sys2Proof.Machine
end

section
/-! SUPPORT. The reference decoders: which RLE streams decode, the three round trips, and that no stream which decodes
begins a longer one, for Huffman and LZ77 (45_reference_decoders.md R281 to R291). -/

namespace Sys2Proof.Machine

/-! ## RLE: which streams decode -/

/-- The bytes a list of records stands for: `count` copies of each value (R281). -/
def rleExpand (rs : List (Byte × Byte)) : List Byte := rs.flatMap fun r => List.replicate r.1.toNat r.2

theorem rleDecPairs_zeroCount : ∀ b : List Byte, b.length % 2 = 0 → (∃ r ∈ rleRecordsOf b, r.1 = 0#8) →
    rleDecPairs b = .error .zeroCount
  | [], _, ⟨_, hr, _⟩ => absurd hr List.not_mem_nil
  | [_], hlen, _ => absurd hlen Nat.one_ne_zero
  | c :: v :: rest, hlen, h => by
    rw [rleDecPairs]
    split
    · rfl
    · next hc =>
      have hrest : ∃ r ∈ rleRecordsOf rest, r.1 = 0#8 := by
        rw [rleRecordsOf, List.exists_mem_cons_iff] at h
        exact h.resolve_left hc
      rw [rleDecPairs_zeroCount rest ((Nat.add_mod_right _ 2).symm.trans hlen) hrest]

theorem rleDecPairs_expand : ∀ b : List Byte, b.length % 2 = 0 → (∀ r ∈ rleRecordsOf b, r.1 ≠ 0#8) →
    rleDecPairs b = .ok (rleExpand (rleRecordsOf b))
  | [], _, _ => rfl
  | [_], hlen, _ => absurd hlen Nat.one_ne_zero
  | c :: v :: rest, hlen, h => by
    rw [rleRecordsOf, List.forall_mem_cons] at h
    obtain ⟨hc, hrest⟩ := h
    rw [rleDecPairs, if_neg hc, rleDecPairs_expand rest ((Nat.add_mod_right _ 2).symm.trans hlen) hrest]
    rfl

theorem rleDec_even {b : List Byte} (h : b.length % 2 = 0) : rleDec b = rleDecPairs b :=
  if_neg (not_not.2 h)

/-- Settles O53: an odd length is the first check, and the pair loop is followed record by record for the two others. -/
theorem rleDecoderAcceptsExactly : Obligations.RleDecoderAcceptsExactly := fun b =>
  ⟨fun h => if_pos (by omega),
    fun h hzero => (rleDec_even h).trans (rleDecPairs_zeroCount b h hzero),
    fun h hpos => (rleDec_even h).trans (rleDecPairs_expand b h hpos)⟩

/-- A stream decodes exactly when its length is even and no count is 0, and then to the copies of its records. -/
theorem rleDec_eq_ok_iff {b out : List Byte} : rleDec b = .ok out ↔
    b.length % 2 = 0 ∧ (∀ r ∈ rleRecordsOf b, r.1 ≠ 0#8) ∧ out = rleExpand (rleRecordsOf b) := by
  obtain ⟨hodd, hzero, hok⟩ := rleDecoderAcceptsExactly b
  constructor
  · intro h
    have hlen : b.length % 2 = 0 := by
      by_contra hne
      rw [hodd (by omega)] at h
      cases h
    have hpos : ∀ r ∈ rleRecordsOf b, r.1 ≠ 0#8 := by
      intro r hr hc
      rw [hzero hlen ⟨r, hr, hc⟩] at h
      cases h
    rw [hok hlen hpos] at h
    exact ⟨hlen, hpos, (Except.ok.inj h).symm⟩
  · rintro ⟨hlen, hpos, rfl⟩
    exact hok hlen hpos

/-! ## RLE: the round trip, and a stream cut at a record -/

/-- The records of an encoded input stand for that input. -/
theorem rleExpand_rleEncode (inp : List Byte) : rleExpand (rleRecordsOf (rleEncode inp)) = inp := by
  induction inp using rle_induction with
  | nil => rfl
  | run v rest ih =>
    rw [rleRecordsOf_rleEncode_cons, rleExpand, List.flatMap_cons, ← rleExpand, ih, runCount_byte]
    exact (runCount_spec v rest).2.2.1.symm

/-- Settles O35: an encoded input has two bytes a record and no zero count, and its records stand for the input. -/
theorem rleRoundTrip : Obligations.RleRoundTrip := by
  intro inp
  refine rleDec_eq_ok_iff.2 ⟨?_, fun r hr hzero => ?_, (rleExpand_rleEncode inp).symm⟩
  · rw [rleEncode_length]
    exact Nat.mul_mod_right 2 _
  · have hpos := rleRecordsOf_count_pos inp r hr
    rw [hzero] at hpos
    exact absurd hpos (by decide)

theorem rleRecordsOf_take : ∀ (n : Nat) (b : List Byte), rleRecordsOf (b.take (2 * n)) = (rleRecordsOf b).take n
  | 0, b => by simp [rleRecordsOf]
  | n + 1, [] => rfl
  | n + 1, [_] => rfl
  | n + 1, c :: v :: rest => congrArg ((c, v) :: ·) (rleRecordsOf_take n rest)

theorem rleExpand_take_isPrefix (rs : List (Byte × Byte)) (n : Nat) : rleExpand (rs.take n) <+: rleExpand rs := by
  refine ⟨rleExpand (rs.drop n), ?_⟩
  rw [rleExpand, rleExpand, ← List.flatMap_append, List.take_append_drop, rleExpand]

/-- An RLE stream cut at a record decodes, to the beginning of the data (R291). -/
theorem rleDec_take {b out : List Byte} (h : rleDec b = .ok out) (n : Nat) :
    ∃ out', rleDec (b.take (2 * n)) = .ok out' ∧ out' <+: out := by
  obtain ⟨hlen, hpos, rfl⟩ := rleDec_eq_ok_iff.1 h
  refine ⟨_, rleDec_eq_ok_iff.2 ⟨?_, fun r hr => ?_, rfl⟩, ?_⟩
  · rw [List.length_take]
    omega
  · rw [rleRecordsOf_take] at hr
    exact hpos r (List.mem_of_mem_take hr)
  · rw [rleRecordsOf_take]
    exact rleExpand_take_isPrefix _ _

/-! ## LZ77: one token -/

/-- One turn of the loop of R287: a token `(d, l, c)` read after the output `out`, for a declared length `n`. -/
def lzDecToken (n : Nat) (out : List Byte) (d : Nat) (l c : Byte) : Except DecodeError (List Byte) :=
  if out.length < n then
    if d = 0 ∧ l = 0#8 then .ok (out ++ [c])
    else if d = 0 ∨ l = 0#8 then .error .badSentinel
    else if d > out.length then .error .badDistance
    else if (copyBack d l.toNat out ++ [c]).length > n then .error .overrun
    else .ok (copyBack d l.toNat out ++ [c])
  else .error .trailingData

/-- The loop of R287, one turn. -/
theorem lzDecTokens_cons (n : Nat) (out : List Byte) (d1 d0 l c : Byte) (rest : List Byte) :
    lzDecTokens n out (d1 :: d0 :: l :: c :: rest) =
      (lzDecToken n out (beValue [d1, d0]) l c).bind fun out' => lzDecTokens n out' rest := by
  rw [lzDecTokens, lzDecToken]
  split_ifs <;> rfl

/-- A body of less than one record decodes only when it is empty, and then to the output so far (R288). -/
theorem lzDecTokens_eq_ok_iff_of_short {n : Nat} {out body r : List Byte} (hlen : body.length < 4) :
    lzDecTokens n out body = .ok r ↔ body = [] ∧ n ≤ out.length ∧ r = out := by
  have hend : lzDecTokens n out body =
      if out.length < n then .error .truncatedBody else if body.isEmpty then .ok out else .error .trailingData := by
    rw [lzDecTokens]
    intro d1 d0 l c rest hbody
    rw [hbody] at hlen
    simp only [List.length_cons] at hlen
    omega
  rw [hend]
  split
  · next h => exact ⟨nofun, fun ⟨_, hn, _⟩ => absurd h (Nat.not_lt.2 hn)⟩
  · next h => cases body <;> simp [Nat.not_lt.1 h, eq_comm]

theorem lzDecToken_lt {n d : Nat} {out out' : List Byte} {l c : Byte} (h : lzDecToken n out d l c = .ok out') :
    out.length < n := by
  by_contra hlen
  rw [lzDecToken, if_neg hlen] at h
  cases h

theorem lzDecToken_literal {n : Nat} {out : List Byte} (h : out.length < n) (c : Byte) :
    lzDecToken n out 0 0#8 c = .ok (out ++ [c]) := by
  simp [lzDecToken, h]

theorem copyBack_length (d : Nat) : ∀ (l : Nat) (out : List Byte), (copyBack d l out).length = out.length + l
  | 0, _ => rfl
  | l + 1, out => by
    rw [copyBack, copyBack_length d l, List.length_append, List.length_singleton]
    omega

theorem lzDecToken_match {n d : Nat} {out : List Byte} {l : Byte} (hd : 1 ≤ d) (hback : d ≤ out.length)
    (hl : l ≠ 0#8) (hfit : out.length + l.toNat + 1 ≤ n) (c : Byte) :
    lzDecToken n out d l c = .ok (copyBack d l.toNat out ++ [c]) := by
  have hlen : (copyBack d l.toNat out ++ [c]).length = out.length + l.toNat + 1 := by
    rw [List.length_append, copyBack_length, List.length_singleton]
  rw [lzDecToken, if_pos (by omega), if_neg (by simp [hl]), if_neg (not_or.2 ⟨by omega, hl⟩), if_neg (by omega),
    if_neg (by omega)]

/-! ## LZ77: the round trip -/

section
variable {window minMatch : Nat} {inp : List Byte} {p : Nat}

/-- The token at a position, read after the input up to there, gives the input up to the token's end (R287). -/
theorem lzDecToken_tokenAt (hmin : 1 ≤ minMatch) (hp : p < inp.length) {t : Token}
    (ht : t = tokenAt window minMatch inp p) :
    lzDecToken inp.length (inp.take p) t.dist (BitVec.ofNat 8 t.len) t.lit = .ok (inp.take (p + t.len + 1)) := by
  have hend : p + t.len + 1 ≤ inp.length := ht ▸ tokenAt_end window minMatch hp
  have hlit : inp[p + t.len]? = some t.lit := ht ▸ tokenAt_lit window minMatch hp
  have hlen : t.len ≤ 255 := ht ▸ lzFind_len_le window minMatch inp p
  have htake : (inp.take p).length = p := List.length_take_of_le hp.le
  have hsnoc : inp.take (p + t.len + 1) = inp.take (p + t.len) ++ [t.lit] := by
    rw [List.take_add_one, hlit, Option.toList_some]
  have hform : t.dist = 0 ∧ t.len = 0 ∨ 1 ≤ t.dist ∧ t.dist ≤ p ∧ t.dist ≤ window ∧ minMatch ≤ t.len ∧
      ∀ i, i < t.len → inp[p + i]? = inp[p - t.dist + i]? :=
    ht ▸ (lzFind_form (window := window) (inp := inp) (p := p) hmin).imp_left Prod.mk.inj
  rw [hsnoc]
  obtain ⟨hd, hl⟩ | ⟨hd, hback, -, hl, hagree⟩ := hform
  · rw [hd, hl]
    exact lzDecToken_literal (by omega) t.lit
  · have hbyte : (BitVec.ofNat 8 t.len).toNat = t.len := Nat.mod_eq_of_lt (by omega)
    have hne : BitVec.ofNat 8 t.len ≠ 0#8 := fun h => by
      rw [h] at hbyte
      exact absurd (hmin.trans hl) (by rw [← hbyte]; decide)
    rw [lzDecToken_match hd (by omega) hne (by omega), hbyte,
      copyBack_spec inp t.dist hd t.len p hback (by omega) hagree]

/-- The record of a token whose distance fits its field, read by the loop of R287. -/
theorem lzDecTokens_record {n : Nat} {out : List Byte} {t : Token} (hd : t.dist < 2 ^ 16) (rest : List Byte) :
    lzDecTokens n out (t.record ++ rest) =
      (lzDecToken n out t.dist (BitVec.ofNat 8 t.len) t.lit).bind fun out' => lzDecTokens n out' rest := by
  refine (lzDecTokens_cons n out _ _ _ _ rest).trans ?_
  rw [← be16, beValue_be16 _ hd]

/-- The tokens from a position on, read after the input up to there, give the whole input. -/
theorem lzDecTokens_tokensAt (hmin : 1 ≤ minMatch) (hwin : window < 2 ^ 16) : ∀ p, p ≤ inp.length →
    lzDecTokens inp.length (inp.take p) ((tokensAt window minMatch inp p).flatMap Token.record) = .ok inp := by
  refine tokens_induction (window := window) (minMatch := minMatch) ?atEnd ?token
  case atEnd =>
    rw [tokensAt_end window minMatch (le_refl inp.length), List.take_length]
    exact (lzDecTokens_eq_ok_iff_of_short (by decide)).2 ⟨rfl, le_refl _, rfl⟩
  case token =>
    intro p hp ih
    have hd : (tokenAt window minMatch inp p).dist < 2 ^ 16 := (lzFind_dist_le inp p hmin).trans_lt hwin
    rw [tokensAt_step window minMatch hp, List.flatMap_cons, lzDecTokens_record hd, lzDecToken_tokenAt hmin hp rfl]
    exact ih

end

/-- What a stream that decodes is: a header, whole records, and tokens that decode (R286). -/
theorem lzDec_eq_ok_iff {b out : List Byte} : lzDec b = .ok out ↔
    4 ≤ b.length ∧ (b.length - 4) % 4 = 0 ∧ lzDecTokens (beValue (b.take 4)) [] (b.drop 4) = .ok out := by
  rw [lzDec, List.length_drop]
  split
  · next h => exact ⟨nofun, fun ⟨h4, _⟩ => absurd h (Nat.not_lt.2 h4)⟩
  · next h =>
    split
    · next h4 => simp [h4]
    · next h4 => simp [not_not.1 h4, Nat.not_lt.1 h]

/-- Settles O49: the header gives the input's length back (`beValue_be32`), and the tokens from position 0 on give the
input (`lzDecTokens_tokensAt`). -/
theorem lzRoundTrip : Obligations.LzRoundTrip := by
  rintro p inp ⟨-, -, ⟨-, hwin⟩, ⟨hmin, -⟩⟩ hlen
  have hlength := lzEncode_length p.lzWindow p.lzMinMatch inp
  refine lzDec_eq_ok_iff.2 ⟨by omega, by omega, ?_⟩
  rw [lzEncode, List.take_left' (be32_length _), List.drop_left' (be32_length _), beValue_be32 _ hlen, tokens_eq]
  exact lzDecTokens_tokensAt hmin (by omega) 0 (Nat.zero_le _)

/-! ## LZ77: no stream begins a longer one -/

theorem exists_of_bind_eq_ok {ε α β : Type} {x : Except ε α} {f : α → Except ε β} {r : β}
    (h : x.bind f = .ok r) : ∃ a, x = .ok a ∧ f a = .ok r := by
  cases x with
  | error e => cases h
  | ok a => exact ⟨a, rfl, h⟩

/-- What holds of a body shorter than one record, and of a record and a body whenever it holds of the body, holds of
every body. -/
theorem lzBody_induction {P : List Byte → Prop} (short : ∀ body, body.length < 4 → P body)
    (record : ∀ d1 d0 l c rest, P rest → P (d1 :: d0 :: l :: c :: rest)) : ∀ body, P body
  | [] => short _ (by simp)
  | [_] => short _ (by simp)
  | [_, _] => short _ (by simp)
  | [_, _, _] => short _ (by simp)
  | d1 :: d0 :: l :: c :: rest => record d1 d0 l c rest (lzBody_induction short record rest)

/-- Once the declared length is reached nothing may follow (R288). -/
theorem eq_nil_of_lzDecTokens {n : Nat} {out body r : List Byte} (hn : n ≤ out.length)
    (h : lzDecTokens n out body = .ok r) : body = [] := by
  induction body using lzBody_induction with
  | short body hlen => exact ((lzDecTokens_eq_ok_iff_of_short hlen).1 h).1
  | record d1 d0 l c rest =>
    rw [lzDecTokens_cons] at h
    obtain ⟨out', htoken, -⟩ := exists_of_bind_eq_ok h
    exact absurd (lzDecToken_lt htoken) (Nat.not_lt.2 hn)

/-- Nothing can follow a body that decodes: it reaches the declared length. -/
theorem lzDecTokens_append_ok {n : Nat} {body more r r' : List Byte} : ∀ {out : List Byte},
    lzDecTokens n out body = .ok r → lzDecTokens n out (body ++ more) = .ok r' → more = [] := by
  induction body using lzBody_induction with
  | short body hlen =>
    intro out h h'
    obtain ⟨rfl, hn, -⟩ := (lzDecTokens_eq_ok_iff_of_short hlen).1 h
    exact eq_nil_of_lzDecTokens hn h'
  | record d1 d0 l c rest ih =>
    intro out h h'
    rw [lzDecTokens_cons] at h
    simp only [List.cons_append, lzDecTokens_cons] at h'
    obtain ⟨out', htoken, h⟩ := exists_of_bind_eq_ok h
    rw [htoken] at h'
    exact ih h h'

theorem lzDec_append_ok {b more out out' : List Byte} (h : lzDec b = .ok out) (h' : lzDec (b ++ more) = .ok out') :
    more = [] := by
  obtain ⟨hlen, -, h⟩ := lzDec_eq_ok_iff.1 h
  obtain ⟨-, -, h'⟩ := lzDec_eq_ok_iff.1 h'
  rw [List.take_append_of_le_length hlen, List.drop_append_of_le_length hlen] at h'
  exact lzDecTokens_append_ok h h'

/-! ## Huffman: the table -/

/-- One entry of the table loop (R283): its symbol is above the one before, its frequency is not 0, and the entries
after it are read. -/
theorem hufDecTable_cons_eq_ok_iff {k : Nat} {prev : Option Byte} {s b3 b2 b1 b0 : Byte} {rest : List Byte}
    {es : List (Byte × Nat)} : hufDecTable (k + 1) prev (s :: b3 :: b2 :: b1 :: b0 :: rest) = .ok es ↔
    (∀ q ∈ prev, q.toNat < s.toNat) ∧ beValue [b3, b2, b1, b0] ≠ 0 ∧
      ∃ es', hufDecTable k (some s) rest = .ok es' ∧ es = (s, beValue [b3, b2, b1, b0]) :: es' := by
  simp only [hufDecTable]
  split_ifs with hunsorted hzero
  · cases prev with
    | none => cases hunsorted
    | some q =>
      refine ⟨nofun, fun ⟨hprev, _⟩ => absurd (hprev q rfl) ?_⟩
      simpa using hunsorted
  · exact ⟨nofun, fun ⟨_, hpos, _⟩ => absurd hzero hpos⟩
  · have hprev : ∀ q ∈ prev, q.toNat < s.toNat := by
      cases prev with
      | none => simp
      | some q => simpa using hunsorted
    cases hufDecTable k (some s) rest with
    | error e => simp
    | ok es' => simpa [hzero, eq_comm] using fun _ => hprev

/-- The entries of a header, read back: the symbols in order with their frequencies (R200, R283). -/
theorem hufDecTable_entries {F : Byte → Nat} (rest : List Byte) : ∀ (S : List Byte) (prev : Option Byte),
    S.Pairwise (fun a b => a.toNat < b.toNat) → (∀ q ∈ prev, ∀ s ∈ S, q.toNat < s.toNat) →
    (∀ s ∈ S, 0 < F s ∧ F s < 2 ^ 32) →
    hufDecTable S.length prev (S.flatMap (fun s => s :: be32 (F s)) ++ rest) = .ok (S.map fun s => (s, F s))
  | [], _, _, _, _ => rfl
  | s :: S, prev, hasc, hprev, hF => by
    obtain ⟨hs, hasc⟩ := List.pairwise_cons.1 hasc
    obtain ⟨⟨hpos, hlt⟩, hF⟩ := List.forall_mem_cons.1 hF
    have ih := hufDecTable_entries rest S (some s) hasc (by simpa using hs) hF
    have hvalue := beValue_be32 (F s) hlt
    rw [List.flatMap_cons, List.append_assoc, List.length_cons]
    refine hufDecTable_cons_eq_ok_iff.2 ⟨fun q hq => hprev q hq s List.mem_cons_self, ?_, _, ih, ?_⟩
    · rw [← be32, hvalue]
      exact hpos.ne'
    · rw [← be32, hvalue, List.map_cons]

/-- The table of the entries of a frequency table is that table: a byte value without an entry has frequency 0. -/
theorem tableFreq_symbols (F : Byte → Nat) : tableFreq ((symbols F).map fun s => (s, F s)) = F := by
  funext s
  by_cases h : s ∈ symbols F
  · rw [tableFreq, List.lookup_graph F h, Option.getD_some]
  · have hnone : ((symbols F).map fun s => (s, F s)).lookup s = none :=
      List.lookup_eq_none_iff.2 (List.forall_mem_map.2 fun x hx => bne_iff_ne.2 (ne_of_mem_of_not_mem hx h).symm)
    rw [mem_symbols, Nat.not_lt] at h
    rw [tableFreq, hnone, Option.getD_none, Nat.le_zero.1 h]

/-- The table loop reads its entries only, whatever follows them. -/
theorem hufDecTable_append (more : List Byte) : ∀ {k : Nat} {prev : Option Byte} {b : List Byte}
    {es : List (Byte × Nat)}, hufDecTable k prev b = .ok es → hufDecTable k prev (b ++ more) = .ok es
  | 0, _, _, _, h => by
    rw [hufDecTable] at h ⊢
    exact h
  | k + 1, prev, s :: b3 :: b2 :: b1 :: b0 :: rest, es, h => by
    obtain ⟨hprev, hpos, es', hrest, rfl⟩ := hufDecTable_cons_eq_ok_iff.1 h
    exact hufDecTable_cons_eq_ok_iff.2 ⟨hprev, hpos, es', hufDecTable_append more hrest, rfl⟩
  | _ + 1, _, [], _, h | _ + 1, _, [_], _, h | _ + 1, _, [_, _], _, h | _ + 1, _, [_, _, _], _, h
  | _ + 1, _, [_, _, _, _], _, h => nomatch h

/-! ## Huffman: the body -/

theorem bodyBits_freqOf (inp : List Byte) : bodyBits (freqOf inp) = (hufBits inp).length := by
  rw [hufBits_length, sum_map_eq_symbols, bodyBits]

/-- The walk along the codes of an input gives the input, whatever bits follow (R285). -/
theorem walkSymbols_codes {t : HufTree} {code : Byte → List Bool} (rest : List Bool) : ∀ inp : List Byte,
    (∀ s ∈ inp, t.path s = some (code s)) → walkSymbols t inp.length (inp.flatMap code ++ rest) = .ok inp
  | [], _ => rfl
  | s :: inp, h => by
    obtain ⟨hs, h⟩ := List.forall_mem_cons.1 h
    rw [List.length_cons, List.flatMap_cons, List.append_assoc, walkSymbols, walkSymbol_path t s _ _ hs]
    simp only [walkSymbols_codes rest inp h]

/-- The packed body of an input, read with the input's own frequency table (R284, R285). -/
theorem hufDecBody_pack (inp : List Byte) : hufDecBody inp.length (freqOf inp) (pack (hufBits inp)) = .ok inp := by
  rw [hufDecBody, if_neg (by rw [pack_length, bodyBits_freqOf]; exact not_not.2 rfl)]
  split
  · next h =>
    have hnil : inp = [] := List.eq_nil_iff_forall_not_mem.2 fun s hs => by
      rw [← mem_symbols_freqOf, h] at hs
      exact List.not_mem_nil hs
    rw [hnil]
  · next s0 h =>
    have hone : ∀ s ∈ inp, s = s0 := fun s hs => by
      rwa [← mem_symbols_freqOf, h, List.mem_singleton] at hs
    rw [← List.eq_replicate_of_mem hone]
  · next h =>
    obtain ⟨t, ht, -, hpath, -, -⟩ := buildTree_spec (freqOf inp) (by rw [h]; simp)
    simp only [ht]
    rw [streamBits_pack, hufBits]
    exact walkSymbols_codes _ inp fun s hs => hpath s (mem_symbols_freqOf.2 hs)

theorem hufDecBody_ok_length {n : Nat} {F : Byte → Nat} {body out : List Byte} (h : hufDecBody n F body = .ok out) :
    body.length = (bodyBits F + 7) / 8 := by
  by_contra hlen
  rw [hufDecBody, if_pos hlen] at h
  cases h

/-! ## Huffman: the round trip, and no stream begins a longer one -/

/-- What a stream that decodes is, with N and K its header's fields: a whole header, a valid table whose frequencies sum
to N, and a body that decodes with it (R282 to R285). -/
theorem hufDec_eq_ok_iff {b out : List Byte} {n k : Nat} (hn : n = beValue (b.take 4))
    (hk : k = beValue ((b.drop 4).take 2)) : hufDec b = .ok out ↔
    6 + 5 * k ≤ b.length ∧ k ≤ 256 ∧ ∃ es, hufDecTable k none (b.drop 6) = .ok es ∧ (es.map fun e => e.2).sum = n ∧
      hufDecBody n (tableFreq es) (b.drop (6 + 5 * k)) = .ok out := by
  have hdec : hufDec b =
      if b.length < 6 then .error .truncatedHeader
      else if k > 256 then .error .badSymbolCount
      else if b.length < 6 + 5 * k then .error .truncatedTable
      else (hufDecTable k none (b.drop 6)).bind fun es =>
        if (es.map fun e => e.2).sum ≠ n then .error .countMismatch
        else hufDecBody n (tableFreq es) (b.drop (6 + 5 * k)) := by
    simp only [hufDec, ← hn, ← hk]
    cases hufDecTable k none (b.drop 6) <;> rfl
  rw [hdec]
  split_ifs with h6 hmax hlen
  · exact ⟨nofun, fun ⟨_, _, _⟩ => by omega⟩
  · exact ⟨nofun, fun ⟨_, _, _⟩ => by omega⟩
  · exact ⟨nofun, fun ⟨_, _, _⟩ => by omega⟩
  · constructor
    · intro h
      obtain ⟨es, hes, h⟩ := exists_of_bind_eq_ok h
      split_ifs at h with hsum
      exact ⟨by omega, by omega, es, hes, not_not.1 hsum, h⟩
    · rintro ⟨-, -, es, hes, hsum, h⟩
      rw [hes]
      exact (if_neg (not_not.2 hsum)).trans h

/-- The entries and BODY stand after N and K (R200). -/
theorem huffEncode_drop_six (inp : List Byte) : (huffEncode inp).drop 6 =
    (symbols (freqOf inp)).flatMap (fun s => s :: be32 (freqOf inp s)) ++ pack (hufBits inp) := by
  rw [huffEncode_eq, ← List.append_assoc]
  exact List.drop_left' rfl

/-- Settles O43: the header gives N and K back, the table the input's own frequencies (`hufDecTable_entries`,
`tableFreq_symbols`), and the body the input (`hufDecBody_pack`). -/
theorem huffmanRoundTrip : Obligations.HuffmanRoundTrip := by
  intro inp hlen
  have hmax := symbols_length_le (freqOf inp)
  have hn : inp.length = beValue ((huffEncode inp).take 4) := by
    rw [huffEncode_eq, List.take_left' (be32_length _), beValue_be32 _ hlen]
  have hk : (symbols (freqOf inp)).length = beValue (((huffEncode inp).drop 4).take 2) := by
    rw [huffEncode_eq, List.drop_left' (be32_length _), List.take_left' (be16_length _), beValue_be16 _ (by omega)]
  have hF : ∀ s ∈ symbols (freqOf inp), 0 < freqOf inp s ∧ freqOf inp s < 2 ^ 32 := fun s hs =>
    ⟨mem_symbols.1 hs, List.count_le_length.trans_lt hlen⟩
  refine (hufDec_eq_ok_iff hn hk).2 ⟨by rw [huffEncode_length]; omega, hmax,
    (symbols (freqOf inp)).map (fun s => (s, freqOf inp s)), ?_, ?_, ?_⟩
  · have hentries := hufDecTable_entries (pack (hufBits inp)) _ none (symbols_ascending _) (by simp) hF
    rwa [huffEncode_drop_six]
  · rw [List.map_map]
    simpa [Function.comp_def, eq_comm] using sum_map_eq_symbols inp fun _ => 1
  · rw [tableFreq_symbols, huffEncode_body, hufDecBody_pack]

/-- Nothing can follow a stream that decodes: its header says how long it is (R284). -/
theorem hufDec_append_ok {b more out out' : List Byte} (h : hufDec b = .ok out) (h' : hufDec (b ++ more) = .ok out') :
    more = [] := by
  obtain ⟨hlen, -, es, hes, -, hbody⟩ := (hufDec_eq_ok_iff rfl rfl).1 h
  have h4 : (b ++ more).take 4 = b.take 4 := List.take_append_of_le_length (by omega)
  have h6 : ((b ++ more).drop 4).take 2 = (b.drop 4).take 2 := by
    rw [List.drop_append_of_le_length (by omega), List.take_append_of_le_length (by rw [List.length_drop]; omega)]
  obtain ⟨-, -, es', hes', -, hbody'⟩ := (hufDec_eq_ok_iff (congrArg beValue h4.symm) (congrArg beValue h6.symm)).1 h'
  rw [List.drop_append_of_le_length (by omega), hufDecTable_append more hes] at hes'
  obtain rfl := Except.ok.inj hes'
  have hsame := (hufDecBody_ok_length hbody').trans (hufDecBody_ok_length hbody).symm
  rw [List.drop_append_of_le_length hlen, List.length_append] at hsame
  exact List.length_eq_zero_iff.1 (by omega)

/-! ## Truncated streams -/

/-- A decoder that decodes no two streams of which one begins the other fails on a stream that it
decodes when its end is cut off. -/
theorem isDecodeError_take {dec : List Byte → Except DecodeError (List Byte)} {b out : List Byte} {n : Nat}
    (happend : ∀ {b more out out'}, dec b = .ok out → dec (b ++ more) = .ok out' → more = [])
    (h : dec b = .ok out) (hn : n < b.length) : isDecodeError (dec (b.take n)) = true := by
  cases hcut : dec (b.take n) with
  | error e => rfl
  | ok out' =>
    have hnil : b.drop n = [] := happend hcut (by rw [List.take_append_drop]; exact h)
    exact absurd (List.drop_eq_nil_iff.1 hnil) (Nat.not_le.2 hn)

/-- Settles O54: no Huffman or LZ77 stream begins a longer one (`hufDec_append_ok`, `lzDec_append_ok`), and an RLE
stream cut at a record is `rleDec_take`. -/
theorem truncatedStreamsFail : Obligations.TruncatedStreamsFail :=
  ⟨fun _ _ _ => isDecodeError_take hufDec_append_ok, fun _ _ _ => isDecodeError_take lzDec_append_ok,
    fun _ _ n h => rleDec_take h n⟩

end Sys2Proof.Machine
end

section
/-! SUPPORT. How each command ends: in which order its checks apply, what an error reports and leaves, and that the
content of the input is no reason to fail (60_exceptions.md R312 to R317). -/

namespace Sys2Proof.Machine

/-! ## Every way a command ends -/

/-- The operands of a command pass every check that it makes of them (30_encoding.md R116). -/
structure OperandsLegal (i : Instr) (s : State) : Prop where
  len : readsInput i = true → s.srcLen.toNat ≤ s.params.inCap
  put : i = .bpPut → 1 ≤ s.bpNbits.toNat ∧ s.bpNbits.toNat ≤ 32
  get : i = .buGet → 1 ≤ s.buNbits.toNat ∧ s.buNbits.toNat ≤ 32
  pos : i = .rleRun ∨ i = .lzFind → s.pos.toNat < s.srcLen.toNat

/-- The ends of the pseudocode of command `i` from state `s`, with what each error reports (R313) and leaves (R315). -/
inductive CmdResult.EndsAs (i : Instr) (s : State) : CmdResult → Prop
  | success (u : State) : EndsAs i s (.ok u)
  /-- A check of the operands failed. -/
  | refused {e : ErrCode} (he : e ∈ [ErrCode.badLen, .badNbits, .badPos]) (x : Word) (h : ¬ OperandsLegal i s) :
      EndsAs i s (.raise s e x)
  | packerFull (hi : i = .bpPut ∨ i = .bpFlush) : EndsAs i s (.raise s .outOverflow s.capWord)
  /-- The emission overflowed; HUF_ENC had written its tables before. -/
  | encoderFull (hi : isEncoder i = true) {u : State} (hu : u = s ∨ i = .hufEnc ∧ u = s.setTables s.input) :
      EndsAs i s (.raise ((u.forgetOut s.cap).setPacker (Packer.at 0 0)) .outOverflow s.capWord)
  | exhausted (hi : i = .buGet) : EndsAs i s (.raise s .buExhausted s.buPos)

section
variable {i : Instr} {s : State} {r : CmdResult}

theorem ite_endsAs {c : Prop} [Decidable c] {r' : CmdResult} (hr : r.EndsAs i s) (hr' : r'.EndsAs i s) :
    (if c then r else r').EndsAs i s :=
  iteInduction (fun _ => hr) fun _ => hr'

theorem withLen_endsAs (hi : readsInput i = true) (hr : r.EndsAs i s) : (withLen s r).EndsAs i s := by
  rcases Nat.lt_or_ge s.params.inCap s.srcLen.toNat with hlen | hlen
  · rw [withLen_bad hlen]
    exact .refused (by decide) _ fun h => Nat.not_le.2 hlen (h.len hi)
  · rwa [withLen_ok hlen]

theorem withNbits_endsAs {n : BitVec 6} (hn : OperandsLegal i s → 1 ≤ n.toNat ∧ n.toNat ≤ 32) (hr : r.EndsAs i s) :
    (withNbits s n r).EndsAs i s := by
  by_cases h : 1 ≤ n.toNat ∧ n.toNat ≤ 32
  · rwa [withNbits_ok h.1 h.2]
  · rw [withNbits_bad (by omega)]
    exact .refused (by decide) _ fun hlegal => h (hn hlegal)

theorem withPos_endsAs (hp : i = .rleRun ∨ i = .lzFind) (hr : r.EndsAs i s) : (withPos s r).EndsAs i s := by
  rcases Nat.lt_or_ge s.pos.toNat s.srcLen.toNat with h | h
  · rwa [withPos_ok h]
  · rw [withPos_bad h]
    exact .refused (by decide) _ fun hlegal => Nat.not_lt.2 h (hlegal.pos hp)

theorem emit_endsAs (hi : isEncoder i = true) {u : State} (hu : u = s ∨ i = .hufEnc ∧ u = s.setTables s.input)
    (o : List Byte) (pad : Nat) : (emit u o pad).EndsAs i s := by
  have hcap : u.cap = s.cap := by obtain rfl | ⟨-, rfl⟩ := hu <;> rfl
  rcases Nat.lt_or_ge u.cap o.length with h | h
  · rw [emit_overflows h, State.capWord, hcap]
    exact .encoderFull hi hu
  · rw [emit_fits h]
    exact .success _

theorem countTokens_endsAs (hr : r.EndsAs i s) (n : Nat) : (r.countTokens n).EndsAs i s := by
  unfold CmdResult.countTokens
  split
  next hcode =>
    cases hr with
    | success => exact .success _
    | @refused e he =>
      obtain rfl : e = .noError := hcode
      exact absurd he (by decide)
    | packerFull | encoderFull | exhausted => cases hcode
  next => exact hr

end

theorem runOf_endsAs (i : Instr) (s : State) : (runOf i s).EndsAs i s := by
  cases i with
  | nop | bpClear | buClear => exact .success _
  | bpPut => exact withNbits_endsAs (fun h => h.put rfl) (ite_endsAs (.packerFull (.inl rfl)) (.success _))
  | bpFlush => exact ite_endsAs (.success _) (ite_endsAs (.packerFull (.inr rfl)) (.success _))
  | buGet =>
    exact withLen_endsAs rfl (withNbits_endsAs (fun h => h.get rfl) (ite_endsAs (.exhausted rfl) (.success _)))
  | rleRun => exact withLen_endsAs rfl (withPos_endsAs (.inl rfl) (.success _))
  | lzFind => exact withLen_endsAs rfl (withPos_endsAs (.inr rfl) (.success _))
  | rleEnc => exact withLen_endsAs rfl (emit_endsAs rfl (.inl rfl) _ _)
  | hufEnc => exact withLen_endsAs rfl (emit_endsAs rfl (.inr ⟨rfl, rfl⟩) _ _)
  | lzEnc => exact withLen_endsAs rfl (countTokens_endsAs (emit_endsAs rfl (.inl rfl) _ _) _)

/-! ## What an error leaves -/

/-- The update of R206 writes FREQ, CODELEN, CODE and HUF_NSYM and nothing else. -/
theorem State.setTables_frame (s : State) (inp : List Byte) : ∃ F L C n,
    s.setTables inp = { s with freq := F, codeLen := L, code := C, hufNsym := n } :=
  ⟨_, _, _, _, rfl⟩

/-- Settles O24: the ends of `runOf_endsAs` one by one. All errors but an encoder's OUT_OVERFLOW leave the state as it
was before the completion update. -/
theorem errorsLeaveState : Obligations.ErrorsLeaveState := by
  intro i s t h
  rw [exec_next h]
  have hends := runOf_endsAs i s
  generalize runOf i s = r at hends
  cases hends with
  | success => exact ⟨fun hcode => absurd rfl hcode, nofun⟩
  | @refused e he =>
    refine ⟨fun _ _ => rfl, fun hcode => ?_⟩
    obtain rfl : e = .outOverflow := hcode
    exact absurd he (by decide)
  | packerFull hi =>
    refine ⟨fun _ _ => rfl, fun _ henc => ?_⟩
    obtain rfl | rfl := hi <;> cases henc
  | encoderFull hi hu =>
    refine ⟨fun _ hother => ?_, fun _ _ => ?_⟩
    · obtain hcode | rfl | rfl := hother
      · exact absurd rfl hcode
      · cases hi
      · cases hi
    · have hout := Memory.read_forget_ge s.outBuf s.cap s.draws
      obtain rfl | ⟨rfl, rfl⟩ := hu
      · exact ⟨rfl, hout, rfl, fun _ => ⟨rfl, rfl, rfl, rfl⟩⟩
      · obtain ⟨F, L, C, n, htables⟩ := s.setTables_frame s.input
        rw [htables]
        exact ⟨rfl, hout, rfl, fun hne => absurd rfl hne⟩
  | exhausted hi =>
    refine ⟨fun _ _ => rfl, fun _ henc => ?_⟩
    subst hi
    cases henc

/-! ## The priority of the checks -/

section
variable {i : Instr} {s : State}

theorem runOf_badLen (hi : readsInput i = true) (h : s.params.inCap < s.srcLen.toNat) :
    runOf i s = .raise s .badLen s.srcLen := by
  cases i with
  | buGet | rleRun | rleEnc | hufEnc | lzFind | lzEnc => exact withLen_bad h
  | _ => cases hi

theorem runOf_badPos (hi : i = .rleRun ∨ i = .lzFind) (hlen : s.srcLen.toNat ≤ s.params.inCap)
    (h : s.srcLen.toNat ≤ s.pos.toNat) : runOf i s = .raise s .badPos s.pos := by
  obtain rfl | rfl := hi
  · exact runRleRun_badPos hlen h
  · exact runLzFind_badPos hlen h

/-- The completion of an error reports its code and information word (44_system.md R263). -/
theorem reports_of_raise {u : State} {e : ErrCode} {x : Word} (h : runOf i s = .raise u e x) :
    ((runOf i s).st.completed (runOf i s).code (runOf i s).info).status.errcode = e ∧
      ((runOf i s).st.completed (runOf i s).code (runOf i s).info).errinfo = x := by
  rw [h]
  exact ⟨rfl, rfl⟩

/-- The last level of R314: a command with legal operands ends well, with OUT_OVERFLOW or with BU_EXHAUSTED. -/
theorem lastLevel_of_operandsLegal (h : OperandsLegal i s) :
    (runOf i s).code = .noError ∧ (runOf i s).info = 0#32 ∨
    (runOf i s).code = .outOverflow ∧ (runOf i s).info = s.capWord ∧
      (i = .bpPut ∨ i = .bpFlush ∨ isEncoder i = true) ∨
    (runOf i s).code = .buExhausted ∧ (runOf i s).info = s.buPos ∧ i = .buGet := by
  have hends := runOf_endsAs i s
  generalize runOf i s = r at hends
  cases hends with
  | success => exact .inl ⟨rfl, rfl⟩
  | refused _ _ hillegal => exact absurd h hillegal
  | packerFull hi => exact .inr (.inl ⟨rfl, rfl, hi.imp_right .inl⟩)
  | encoderFull hi => exact .inr (.inl ⟨rfl, rfl, .inr (.inr hi)⟩)
  | exhausted hi => exact .inr (.inr ⟨rfl, rfl, hi⟩)

end

/-- Settles O25: each check by its own lemma, with the checks before it passed, and the last level by
`lastLevel_of_operandsLegal`. -/
theorem firstApplicableErrorIsReported : Obligations.FirstApplicableErrorIsReported := by
  refine ⟨fun s h => ⟨_, complete_reserved h, rfl, rfl⟩, fun i s => ⟨_, exec_eq i s,
    fun hi h => reports_of_raise (runOf_badLen hi h), fun hlen => ⟨?_, ?_, ?_, fun hput hget hpos =>
      lastLevel_of_operandsLegal ⟨hlen, hput, hget, hpos⟩⟩⟩⟩
  · rintro rfl h
    exact reports_of_raise (runBpPut_badNbits h)
  · rintro rfl h
    exact reports_of_raise (runBuGet_badNbits (hlen rfl) h)
  · intro hi h
    have hreads : readsInput i = true := by obtain rfl | rfl := hi <;> rfl
    exact reports_of_raise (runOf_badPos hi (hlen hreads) h)

/-! ## Content never fails -/

theorem Memory.bytes_writeBytes_zero (m : Memory) (o : List Byte) : (m.writeBytes 0 o).bytes o.length = o :=
  List.ext_getElem (Memory.bytes_length _ _) fun a _ ha => by
    rw [Memory.bytes_getElem, writeBytes_zero_read, dif_pos ha]

/-- An encoder whose output fits puts it into OUT_BUF from 0 on and leaves the packer after it, whatever the bytes of
its input (40_bitpacker.md R148). -/
theorem runOf_encoder_fits {i : Instr} {s : State} (hi : isEncoder i = true)
    (hlen : s.srcLen.toNat ≤ s.params.inCap) (hfit : (encoderOutput s.params s.input i).length ≤ s.cap) :
    ∃ (u : State) (pad : Nat), runOf i s = .ok u ∧
      u.packer = Packer.at (encoderOutput s.params s.input i).length pad ∧
      u.outBuf = s.outBuf.writeBytes 0 (encoderOutput s.params s.input i) := by
  cases i with
  | rleEnc => exact ⟨_, _, runRleEnc_fits hlen hfit, rfl, rfl⟩
  | hufEnc => exact ⟨_, _, runHufEnc_fits hlen hfit, rfl, rfl⟩
  | lzEnc => exact ⟨_, _, runLzEnc_fits hlen rfl rfl hfit, rfl, rfl⟩
  | _ => cases hi

/-- Settles O51, by `runOf_encoder_fits`. CAP is a word, so that DST_LEN holds the length of the output. -/
theorem contentNeverFails : Obligations.ContentNeverFails := by
  intro i s hi hlen hfit
  obtain ⟨u, pad, hrun, hpacker, hout⟩ := runOf_encoder_fits hi hlen hfit
  have hword : (encoderOutput s.params s.input i).length < 2 ^ 32 := Nat.lt_of_le_of_lt hfit s.cap_lt
  refine ⟨_, exec_of_ok hrun, rfl, ?_⟩
  rw [State.completed_packer, State.completed_outBuf, hpacker, hout, Packer.at_dstLen pad hword]
  exact Memory.bytes_writeBytes_zero _ _

end Sys2Proof.Machine
end

section
/-! SUPPORT. What the two resets leave, and the state right after reset (70_reset_and_hazards.md R340 to R342). -/

namespace Sys2Proof.Machine

/-! ## Cleared tables -/

/-- Cleared tables hold 0 at every byte value (10_state.md R53 to R55). -/
theorem State.tables_zero_of_cleared {s : State} (hf : s.freq = Vector.replicate 256 0#32)
    (hl : s.codeLen = Vector.replicate 256 0#8) (hc : s.code = Vector.replicate 256 0#256) (b : Byte) :
    s.freqAt b = 0#32 ∧ s.codeLenAt b = 0#8 ∧ s.codeAt b = 0#256 := by
  simp [State.freqAt, State.codeLenAt, State.codeAt, hf, hl, hc]

/-! ## The soft reset -/

theorem State.softReset_outBuf_idle {s : State} (hb : s.status.busy = false) : s.softReset.outBuf = s.outBuf := by
  rw [State.softReset_outBuf, if_neg (Bool.eq_false_iff.1 hb)]

/-- A soft reset keeps OUT_BUF from CAP on, busy or idle (10_state.md R57). -/
theorem State.softReset_outBuf_read_ge {s : State} {a : Nat} (ha : s.cap ≤ a) :
    s.softReset.outBuf.read a = s.outBuf.read a := by
  rw [State.softReset_outBuf]
  split
  · exact s.outBuf.read_forget_ge s.cap s.draws a ha
  · rfl

/-- A soft reset is the reset of the registers, but for OUT_BUF and the draw counter. -/
theorem State.softReset_eq_resetRegs (s : State) :
    s.softReset = { s.resetRegs with outBuf := s.softReset.outBuf, draws := s.softReset.draws } := by
  unfold State.softReset
  split <;> rfl

/-- Settles O8: the CTRL write is the soft reset (`ctrlWriteFollowsRule`), whose registers are those of `resetRegs`
and whose OUT_BUF is forgotten below CAP when busy. -/
theorem softResetResetsRegisters : Obligations.SoftResetResetsRegisters := by
  intro s v h1
  obtain ⟨t, ht, hsoft, -⟩ := ctrlWriteFollowsRule s v
  obtain rfl : t = s.softReset := hsoft h1
  refine ⟨_, ht, ?_, State.tables_zero_of_cleared s.softReset_freq s.softReset_codeLen s.softReset_code,
    State.softReset_outBuf_idle, fun _ => State.softReset_outBuf_read_ge, s.softReset_irq⟩
  rw [State.softReset_eq_resetRegs]
  rfl

/-! ## The hard reset -/

/-- Settles O9: an asserted reset input makes the step a hard reset, whatever is in flight. -/
theorem hardResetResetsRegisters : Obligations.HardResetResetsRegisters := by
  intro s rest hin
  have hasserted : s.resetAsserted = true := by simp [resetAsserted_iff, hin]
  have hrest : s.sampled.resetIn = rest := by rw [State.sampled_resetIn, hin, List.tail_cons]
  refine ⟨_, step_of_resetAsserted hasserted, ?_, State.tables_zero_of_cleared rfl rfl rfl, rfl⟩
  rw [← hrest]
  rfl

/-! ## Right after reset -/

/-- CFG_LZ as a number: its three fields do not overlap for legal parameters (10_state.md R52). -/
theorem cfgLzWord_eq {p : Config.Params} (hw : p.lzWindow ≤ 65535) (hm : p.lzMinMatch ≤ 255) :
    cfgLzWord p = BitVec.ofNat 32 (p.lzWindow + p.lzMinMatch * 2 ^ 16 + 255 * 2 ^ 24) := by
  have hhigh : (BitVec.ofNat 8 Config.lzMaxLen ++ BitVec.ofNat 8 p.lzMinMatch).toNat = p.lzMinMatch + 255 * 2 ^ 8 := by
    rw [BitVec.toNat_append, ← Nat.shiftLeft_add_eq_or_of_lt (BitVec.isLt _)]
    simp only [Config.lzMaxLen, BitVec.toNat_ofNat, Nat.shiftLeft_eq]
    omega
  apply BitVec.eq_of_toNat_eq
  rw [cfgLzWord, BitVec.toNat_append, hhigh, ← Nat.shiftLeft_add_eq_or_of_lt (BitVec.isLt _)]
  simp only [BitVec.toNat_ofNat, Nat.shiftLeft_eq]
  omega

/-- The reset value of each register as a word (10_state.md R32 to R52). -/
def RegName.resetValue (p : Config.Params) : RegName → Word
  | .id => Config.idValue
  | .dstCap | .cfgOutCap => BitVec.ofNat 32 p.outCap
  | .cfgInCap => BitVec.ofNat 32 p.inCap
  | .cfgLz => cfgLzWord p
  | _ => 0#32

theorem State.readReg_resetWith (p : Config.Params) (r : RegName) :
    (State.resetWith p).readReg r = r.resetValue p := by
  cases r with
  | status => exact show Status.word ⟨false, false, false, .noError⟩ = 0#32 by decide
  | bpState => exact show Packer.word ⟨0#32, 0#3, 0#3, 0#8⟩ = 0#32 by decide
  | matchReg => exact show MatchReg.word ⟨0#16, 0#8, 0#8⟩ = 0#32 by decide
  | runReg => exact show RunReg.word ⟨0#8, 0#8⟩ = 0#32 by decide
  | _ => rfl

/-- Settles O10: the table of reads lists every register's offset and reset value, in the order of 20_memory.md R86. -/
theorem resetReadsResetValues : Obligations.ResetReadsResetValues := by
  intro p hp off v hrow
  obtain ⟨-, -, ⟨-, hw⟩, -, hm⟩ := hp
  rw [← cfgLzWord_eq hw hm] at hrow
  have hreg : (off, v) ∈ RegName.all.map (fun r => (r.offset, r.resetValue p)) := hrow
  obtain ⟨r, -, hr⟩ := List.mem_map.1 hreg
  obtain ⟨rfl, rfl⟩ := Prod.mk.inj hr
  rw [← State.readReg_resetWith]
  exact access_readReg rfl r

/-- The reset state meets the invariant of registers and buffers for legal parameters. -/
theorem State.resetWith_inv {p : Config.Params} (hp : p.legal) : (State.resetWith p).Inv :=
  have hin := Memory.Fits.unknown 0 p.inCap
  have hout := Memory.Fits.unknown 1 p.outCap
  { legal := hp
    inWf := hin.wf, inCells := hin.cells, inFills := rfl
    outWf := hout.wf, outCells := hout.cells, outFills := hout.fills
    dstLen := Nat.zero_le _
    accClean := Packer.clean_of_acc rfl
    buPos := Nat.zero_le _
    busyClean := nofun
    ntok := Nat.zero_le _
    matchForm := .inl ⟨rfl, rfl⟩ }

theorem State.resetWith_tablesInv (p : Config.Params) : (State.resetWith p).TablesInv :=
  .of_cleared rfl rfl rfl rfl

/-- Settles O55; the default parameters are legal. -/
theorem resetMeetsInvariants : Obligations.ResetMeetsInvariants :=
  ⟨fun p hp => ⟨State.resetWith_inv hp, State.resetWith_tablesInv p⟩,
    State.resetWith_inv (by decide), State.resetWith_tablesInv _⟩

end Sys2Proof.Machine
end
